-- ==== Sys2Proof/Word.lean ====
section
/-! DEFINITION. The plainest data of the block: bytes, nibbles, the two color types (00_scope.md R10, R12). -/

namespace Sys2Proof

/-- A byte is 8 bits (00_scope.md R10); a `u8`. -/
abbrev Byte := BitVec 8

/-- A 4-bit channel of a packed color, 0-15 (00_scope.md R12). -/
abbrev Nibble := BitVec 4

/-- A `u32`: every `_ms` field and `repeat_count` (00_scope.md R8 `DESCRIPTOR_FIELD_BITS`). -/
abbrev Word32 := BitVec 32

/-- A `u16`. -/
abbrev Word16 := BitVec 16

/-- A color `(r, g, b)`: three 8-bit channels (00_scope.md R12). -/
structure Color where
  r : Byte
  g : Byte
  b : Byte
deriving DecidableEq, Repr

/-- A packed color `<r, g, b>`: three 4-bit channels (00_scope.md R12). -/
structure PackedColor where
  r : Nibble
  g : Nibble
  b : Nibble
deriving DecidableEq, Repr

/-- The bytes of a color in the order of its fields. -/
def Color.bytes (c : Color) : List Byte := [c.r, c.g, c.b]

end Sys2Proof
end

