-- ==== Sys2Proof/Machine/Constants.lean ====
section
/-! DEFINITION. The literals the spec takes as normative, each named once: 00_scope.md R9 asks that "a correction
is a one-place change". They stand here, and not in Config.lean, so that a later repair can mend one (log 9). -/

namespace Sys2Proof

/-- `PALETTE_SQUARES` (00_scope.md R8): square indices and the pointer are below it. -/
abbrev Config.paletteSquares : Nat := 256

/-- `PALETTE_BYTES` (00_scope.md R8, 20_memory.md R50). -/
abbrev Config.paletteBytes : Nat := 384

/-- Bytes in one group, which holds two squares (00_scope.md R15). -/
abbrev Config.groupBytes : Nat := 3

/-- `INTERP_TICK_MS` (41_effect_player.md R122). -/
abbrev Config.interpTickMs : Nat := 20

/-- `RHYTHM_UNIT_MS` (42_sequence.md R161). -/
abbrev Config.rhythmUnitMs : Nat := 10

/-- `RHYTHM_MIN` (00_scope.md R8, 10_state.md R31). -/
abbrev Config.rhythmMin : Nat := 1

/-- `RHYTHM_MAX` (00_scope.md R8, 10_state.md R31). -/
abbrev Config.rhythmMax : Nat := 255

/-- `ROW_LENGTH`: a BEAT when the advanced pointer is a multiple of it (42_sequence.md R162). -/
abbrev Config.rowLength : Nat := 16

/-- The display scale: a 4-bit channel times this is its display channel (40_palette.md R101). -/
abbrev Config.displayScale : Nat := 16

/-- The length of a SEQUENCE message, id, rhythm and palette: 386 (30_encoding.md R80). -/
abbrev Config.sequenceMessageBytes : Nat := 2 + Config.paletteBytes

/-- The length of a BEAT message (30_encoding.md R81). -/
abbrev Config.beatMessageBytes : Nat := 2

/-- The length of a START, a STOP and a RESET message (30_encoding.md R82). -/
abbrev Config.controlMessageBytes : Nat := 1

/-- The length of a set-color message (30_encoding.md R83). -/
abbrev Config.setcolorMessageBytes : Nat := 4

end Sys2Proof
end

