-- ==== Sys2Proof/Machine/Operands.lean ====
section
/-! DEFINITION. Every operand form and every number form of the frames: bytes of a frame, little-endian numbers,
colors, nibbles and buffers (00_scope.md R10, R11; 30_encoding.md R72). -/

namespace Sys2Proof

/-- `F[i]`, byte `i` of a frame (00_scope.md R11). Only asked below the frame's length. -/
def byteAt (F : List Byte) (i : Nat) : Byte := F.getD i 0

/-- `le16(F, i)` (00_scope.md R11). -/
def le16 (F : List Byte) (i : Nat) : Word16 :=
  BitVec.ofNat 16 ((byteAt F i).toNat + 2 ^ 8 * (byteAt F (i + 1)).toNat)

/-- `le32(F, i)` (00_scope.md R11). -/
def le32 (F : List Byte) (i : Nat) : Word32 :=
  BitVec.ofNat 32 ((byteAt F i).toNat + 2 ^ 8 * (byteAt F (i + 1)).toNat
    + 2 ^ 16 * (byteAt F (i + 2)).toNat + 2 ^ 24 * (byteAt F (i + 3)).toNat)

/-- `le16b(v)`: the 2 bytes of `v`, least significant first (00_scope.md R11). -/
def le16b (v : Word16) : List Byte :=
  [BitVec.ofNat 8 v.toNat, BitVec.ofNat 8 (v.toNat / 2 ^ 8)]

/-- `le32b(v)`: the 4 bytes of `v`, least significant first (00_scope.md R11). -/
def le32b (v : Word32) : List Byte :=
  [BitVec.ofNat 8 v.toNat, BitVec.ofNat 8 (v.toNat / 2 ^ 8),
   BitVec.ofNat 8 (v.toNat / 2 ^ 16), BitVec.ofNat 8 (v.toNat / 2 ^ 24)]

/-- A color field at `i`: three bytes `(r, g, b)` (30_encoding.md R72). -/
def colorAt (F : List Byte) (i : Nat) : Color :=
  ⟨byteAt F i, byteAt F (i + 1), byteAt F (i + 2)⟩

/-- A field that runs from byte `i` to the end of its frame: a buffer or a message, copied byte for byte
(30_encoding.md R72, R73). -/
def bytesFrom (F : List Byte) (i : Nat) : List Byte := F.drop i

/-- Whether a byte is a legal rhythm, `RHYTHM_MIN` to `RHYTHM_MAX` (10_state.md R31); the rules that refuse an illegal
one write `rhythm == 0` (42_sequence.md R163, 43_codec.md R191, R198). -/
def isRhythm (b : Byte) : Bool := decide (Config.rhythmMin ≤ b.toNat) && decide (b.toNat ≤ Config.rhythmMax)

/-- `hi(b) = b[7:4]` (00_scope.md R10). -/
def hi (b : Byte) : Nibble := b.extractLsb' 4 4

/-- `lo(b) = b[3:0]` (00_scope.md R10). -/
def lo (b : Byte) : Nibble := b.extractLsb' 0 4

/-- A nibble operand is a byte whose value must be 0-15 (30_encoding.md R72). -/
def isNibble (b : Byte) : Bool := decide (b.toNat ≤ 15)

/-- The channel that a nibble operand carries; asked only where `isNibble` holds. -/
def nibbleOf (b : Byte) : Nibble := b.setWidth 4

/-- A packed channel as the byte a response carries, `zext_8` (00_scope.md R10). -/
def nibbleByte (n : Nibble) : Byte := n.setWidth 8

/-- A 1-bit state element as the byte a response carries, 0 or 1 (30_encoding.md R75). -/
def flagByte (b : Bool) : Byte := if b then 1 else 0

end Sys2Proof
end

