-- ==== Sys2Proof/Syntax.lean ====
section
/-! DEFINITION. The commands: one constructor per row of spec/opcode_table.json, with the operand fields of
30_encoding.md R73. -/

namespace Sys2Proof

/-- A host command with its operand fields (30_encoding.md R73). A buffer or message field is its byte list; its
length is checked in WellFormed.lean. -/
inductive Instr where
  /-- EP_PLAY (41_effect_player.md R131). `kind` is the raw byte: 1 strobe, 2 fade, any other refused. -/
  | epPlay (kind : Byte) (onColor offColor : Color) (t0 t1 hold repeatCount delay : Word32)
  /-- EP_STOP (41_effect_player.md R132). -/
  | epStop
  /-- EP_QUERY (41_effect_player.md R150). -/
  | epQuery
  /-- PAL_SET (40_palette.md R104). -/
  | palSet (buffer : List Byte)
  /-- PAL_GET (40_palette.md R105). -/
  | palGet (index : Word16)
  /-- PAL_PACK_PAIR (40_palette.md R106); the operands are whole bytes, values above 15 are refused. -/
  | palPackPair (er eg eb or' og ob : Byte)
  /-- PAL_UNPACK_PAIR (40_palette.md R107). -/
  | palUnpackPair (b0 b1 b2 : Byte)
  /-- PAL_TO_DISPLAY (40_palette.md R108); the operands are whole bytes, values above 15 are refused. -/
  | palToDisplay (r g b : Byte)
  /-- PAL_QUANTIZE (40_palette.md R109). -/
  | palQuantize (r g b : Byte)
  /-- SQ_STORE (42_sequence.md R163). -/
  | sqStore (rhythm : Byte) (buffer : List Byte)
  /-- SQ_START (42_sequence.md R164). -/
  | sqStart
  /-- SQ_STOP (42_sequence.md R165). -/
  | sqStop
  /-- SQ_RESET (42_sequence.md R166). -/
  | sqReset
  /-- SQ_QUERY (42_sequence.md R172). -/
  | sqQuery
  /-- MSG_ENC_SEQUENCE (43_codec.md R191). -/
  | msgEncSequence (rhythm : Byte) (buffer : List Byte)
  /-- MSG_ENC_BEAT (43_codec.md R192). -/
  | msgEncBeat (pointer : Byte)
  /-- MSG_ENC_START (43_codec.md R193). -/
  | msgEncStart
  /-- MSG_ENC_STOP (43_codec.md R194). -/
  | msgEncStop
  /-- MSG_ENC_RESET (43_codec.md R195). -/
  | msgEncReset
  /-- MSG_ENC_SETCOLOR (43_codec.md R196). -/
  | msgEncSetcolor (r g b : Byte)
  /-- MSG_DECODE (43_codec.md R197); `n` is the message's length. -/
  | msgDecode (message : List Byte)
deriving DecidableEq, Repr

/-- The operation a frame's first byte selects (30_encoding.md R70, R73), before its operands are read. -/
inductive Opcode where
  | epPlay | epStop | epQuery
  | palSet | palGet | palPackPair | palUnpackPair | palToDisplay | palQuantize
  | sqStore | sqStart | sqStop | sqReset | sqQuery
  | msgEncSequence | msgEncBeat | msgEncStart | msgEncStop | msgEncReset | msgEncSetcolor | msgDecode
deriving DecidableEq, Repr

end Sys2Proof
end

