-- ==== Sys2Proof/WellFormed.lean ====
section
/-! DEFINITION. Which commands a frame can carry: a buffer field is 384 bytes and a message's length fits the u16
length field (30_encoding.md R71 to R73). -/

namespace Sys2Proof

/-- Whether a command's fields have the lengths that 30_encoding.md R71 to R73 give them. Values a command refuses
(30_encoding.md R78) are no matter of form: such a frame is well formed and answered INVALID_ARGUMENT. -/
def Instr.wellFormed : Instr → Bool
  | .epPlay _ _ _ _ _ _ _ _ => true
  | .epStop => true
  | .epQuery => true
  | .palSet buffer => buffer.length == Config.paletteBytes
  | .palGet _ => true
  | .palPackPair _ _ _ _ _ _ => true
  | .palUnpackPair _ _ _ => true
  | .palToDisplay _ _ _ => true
  | .palQuantize _ _ _ => true
  | .sqStore _ buffer => buffer.length == Config.paletteBytes
  | .sqStart => true
  | .sqStop => true
  | .sqReset => true
  | .sqQuery => true
  | .msgEncSequence _ buffer => buffer.length == Config.paletteBytes
  | .msgEncBeat _ => true
  | .msgEncStart => true
  | .msgEncStop => true
  | .msgEncReset => true
  | .msgEncSetcolor _ _ _ => true
  | .msgDecode message => decide (message.length < 65536)

end Sys2Proof
end

