-- ==== Sys2Proof/Decode.lean ====
section
/-! DEFINITION. The decoder of command frames, total on any byte string, rejecting by name (30_encoding.md R70 to
R73, R76, R77), and after it the encoder, written from the same table. -/

namespace Sys2Proof

/-- What a frame decodes to: a command, or one of the two named rejections of 30_encoding.md R76 and R77. -/
inductive Decoded where
  /-- A well-formed frame of a listed opcode. -/
  | command (i : Instr)
  /-- The opcode is not in the map (30_encoding.md R76). -/
  | illegalCommand
  /-- The frame is empty or its length is not its opcode's (30_encoding.md R77). -/
  | malformed
deriving DecidableEq, Repr

/-- The opcode byte of each operation (30_encoding.md R73). -/
def Opcode.code : Opcode → Byte
  | .epPlay => 0x01
  | .epStop => 0x02
  | .epQuery => 0x03
  | .palSet => 0x10
  | .palGet => 0x11
  | .palPackPair => 0x12
  | .palUnpackPair => 0x13
  | .palToDisplay => 0x14
  | .palQuantize => 0x15
  | .sqStore => 0x20
  | .sqStart => 0x21
  | .sqStop => 0x22
  | .sqReset => 0x23
  | .sqQuery => 0x24
  | .msgEncSequence => 0x30
  | .msgEncBeat => 0x31
  | .msgEncStart => 0x32
  | .msgEncStop => 0x33
  | .msgEncReset => 0x34
  | .msgEncSetcolor => 0x35
  | .msgDecode => 0x36

/-- The 21 operations of 30_encoding.md R73. -/
def opcodes : List Opcode :=
  [.epPlay, .epStop, .epQuery,
   .palSet, .palGet, .palPackPair, .palUnpackPair, .palToDisplay, .palQuantize,
   .sqStore, .sqStart, .sqStop, .sqReset, .sqQuery,
   .msgEncSequence, .msgEncBeat, .msgEncStart, .msgEncStop, .msgEncReset, .msgEncSetcolor, .msgDecode]

/-- The operation a first byte selects; none for every byte 30_encoding.md R73 does not list (R76). -/
def opcodeOfByte (b : Byte) : Option Opcode := opcodes.find? fun o => o.code == b

/-- The length a frame of this opcode must have (30_encoding.md R71, R73): fixed, but for MSG_DECODE, whose bytes 1
and 2 tell it; none for a MSG_DECODE frame too short to hold them (R77). -/
def frameLength (o : Opcode) (F : List Byte) : Option Nat :=
  match o with
  | .epPlay => some 28
  | .epStop => some 1
  | .epQuery => some 1
  | .palSet => some (1 + Config.paletteBytes)
  | .palGet => some 3
  | .palPackPair => some 7
  | .palUnpackPair => some 4
  | .palToDisplay => some 4
  | .palQuantize => some 4
  | .sqStore => some (2 + Config.paletteBytes)
  | .sqStart => some 1
  | .sqStop => some 1
  | .sqReset => some 1
  | .sqQuery => some 1
  | .msgEncSequence => some (2 + Config.paletteBytes)
  | .msgEncBeat => some 2
  | .msgEncStart => some 1
  | .msgEncStop => some 1
  | .msgEncReset => some 1
  | .msgEncSetcolor => some 4
  | .msgDecode => if F.length < 3 then none else some (3 + (le16 F 1).toNat)

/-- The command with the operand fields of a frame of its opcode's length (30_encoding.md R72, R73). -/
def commandOf (o : Opcode) (F : List Byte) : Instr :=
  match o with
  | .epPlay => .epPlay (byteAt F 1) (colorAt F 2) (colorAt F 5) (le32 F 8) (le32 F 12) (le32 F 16) (le32 F 20) (le32 F 24)
  | .epStop => .epStop
  | .epQuery => .epQuery
  | .palSet => .palSet (bytesFrom F 1)
  | .palGet => .palGet (le16 F 1)
  | .palPackPair => .palPackPair (byteAt F 1) (byteAt F 2) (byteAt F 3) (byteAt F 4) (byteAt F 5) (byteAt F 6)
  | .palUnpackPair => .palUnpackPair (byteAt F 1) (byteAt F 2) (byteAt F 3)
  | .palToDisplay => .palToDisplay (byteAt F 1) (byteAt F 2) (byteAt F 3)
  | .palQuantize => .palQuantize (byteAt F 1) (byteAt F 2) (byteAt F 3)
  | .sqStore => .sqStore (byteAt F 1) (bytesFrom F 2)
  | .sqStart => .sqStart
  | .sqStop => .sqStop
  | .sqReset => .sqReset
  | .sqQuery => .sqQuery
  | .msgEncSequence => .msgEncSequence (byteAt F 1) (bytesFrom F 2)
  | .msgEncBeat => .msgEncBeat (byteAt F 1)
  | .msgEncStart => .msgEncStart
  | .msgEncStop => .msgEncStop
  | .msgEncReset => .msgEncReset
  | .msgEncSetcolor => .msgEncSetcolor (byteAt F 1) (byteAt F 2) (byteAt F 3)
  | .msgDecode => .msgDecode (bytesFrom F 3)

/-- Decoding a frame: the opcode first, then the length (60_exceptions.md R213), then the operands. -/
def decode (F : List Byte) : Decoded :=
  match F with
  | [] => .malformed
  | b :: _ =>
    match opcodeOfByte b with
    | none => .illegalCommand
    | some o => if frameLength o F = some F.length then .command (commandOf o F) else .malformed

/-- The opcode a command is encoded with. -/
def opcodeOf : Instr → Opcode
  | .epPlay _ _ _ _ _ _ _ _ => .epPlay
  | .epStop => .epStop
  | .epQuery => .epQuery
  | .palSet _ => .palSet
  | .palGet _ => .palGet
  | .palPackPair _ _ _ _ _ _ => .palPackPair
  | .palUnpackPair _ _ _ => .palUnpackPair
  | .palToDisplay _ _ _ => .palToDisplay
  | .palQuantize _ _ _ => .palQuantize
  | .sqStore _ _ => .sqStore
  | .sqStart => .sqStart
  | .sqStop => .sqStop
  | .sqReset => .sqReset
  | .sqQuery => .sqQuery
  | .msgEncSequence _ _ => .msgEncSequence
  | .msgEncBeat _ => .msgEncBeat
  | .msgEncStart => .msgEncStart
  | .msgEncStop => .msgEncStop
  | .msgEncReset => .msgEncReset
  | .msgEncSetcolor _ _ _ => .msgEncSetcolor
  | .msgDecode _ => .msgDecode

/-- The operand bytes of a command, at the offsets of 30_encoding.md R73. -/
def operandBytes : Instr → List Byte
  | .epPlay kind onColor offColor t0 t1 hold repeatCount delay =>
    kind :: (onColor.bytes ++ offColor.bytes ++ le32b t0 ++ le32b t1 ++ le32b hold ++ le32b repeatCount ++ le32b delay)
  | .epStop => []
  | .epQuery => []
  | .palSet buffer => buffer
  | .palGet index => le16b index
  | .palPackPair er eg eb or' og ob => [er, eg, eb, or', og, ob]
  | .palUnpackPair b0 b1 b2 => [b0, b1, b2]
  | .palToDisplay r g b => [r, g, b]
  | .palQuantize r g b => [r, g, b]
  | .sqStore rhythm buffer => rhythm :: buffer
  | .sqStart => []
  | .sqStop => []
  | .sqReset => []
  | .sqQuery => []
  | .msgEncSequence rhythm buffer => rhythm :: buffer
  | .msgEncBeat pointer => [pointer]
  | .msgEncStart => []
  | .msgEncStop => []
  | .msgEncReset => []
  | .msgEncSetcolor r g b => [r, g, b]
  | .msgDecode message => le16b (BitVec.ofNat 16 message.length) ++ message

/-- The frame of a command (30_encoding.md R70, R73). -/
def encode (i : Instr) : List Byte := (opcodeOf i).code :: operandBytes i

/-- The lowest `n` bytes of a number, the lowest first. -/
def bytesOfNat : Nat → Nat → List Byte
  | 0, _ => []
  | n + 1, w => BitVec.ofNat 8 w :: bytesOfNat n (w / 2 ^ 8)

/-- The frame whose bits are the `nbits` bits of `w` and zeros above them: the port delivers a frame with its length
(30_encoding.md R70), which is the one 30_encoding.md R71 gives for its opcode, and the given bytes for no opcode
(log 14). -/
def frameOfWord (nbits w : Nat) : List Byte :=
  let v := w % 2 ^ nbits
  match opcodeOfByte (BitVec.ofNat 8 v) with
  | none => bytesOfNat ((nbits + 7) / 8) v
  | some o => bytesOfNat ((frameLength o (bytesOfNat 3 v)).getD 0) v

/-- The command the decoder reads from the instruction whose bits are `w`, bit 0 the least significant bit of the
first byte, every bit above `nbits` zero; none where the decoder rejects. -/
def decodeTableWord (nbits w : Nat) : Option Instr :=
  match decode (frameOfWord nbits w) with
  | .command i => some i
  | .illegalCommand => none
  | .malformed => none

end Sys2Proof
end

