-- ==== Sys2Proof/Config.lean ====
section
/-! DEFINITION. What an implementation fixes (00_scope.md R8) and the free values of the model: opaque constants,
so that nothing in Lean can evaluate one. The literals the spec takes as normative stand in Machine/Constants.lean. -/

namespace Sys2Proof

/-- The parameters of 00_scope.md R8 that the spec leaves open and "the model takes as arguments". `State` carries
one such record, which no step changes, so a claim about every state is a claim about every implementation (log 2). -/
structure Params where
  /-- `MIN_TIMER_MS`: what arming a timer with 0 loads (60_exceptions.md R219). -/
  minTimerMs : Nat
  /-- `DEFAULT_RHYTHM`: the rhythm after reset (10_state.md R31). -/
  defaultRhythm : Byte
  /-- `ID_SEQUENCE`, the first byte of a SEQUENCE message (30_encoding.md R80, R84). -/
  idSequence : Byte
  /-- `ID_BEAT` (30_encoding.md R81, R84). -/
  idBeat : Byte
  /-- `ID_START` (30_encoding.md R82, R84). -/
  idStart : Byte
  /-- `ID_STOP` (30_encoding.md R82, R84). -/
  idStop : Byte
  /-- `ID_RESET` (30_encoding.md R82, R84). -/
  idReset : Byte
  /-- `ID_SETCOLOR` (30_encoding.md R83, R84). -/
  idSetcolor : Byte
  /-- `ALLOC_MAY_FAIL` (60_exceptions.md R216). -/
  allocMayFail : Bool
deriving DecidableEq, Repr

/-- The six command-ids in the order 30_encoding.md R84 lists them. -/
def Params.ids (p : Params) : List Byte :=
  [p.idSequence, p.idBeat, p.idStart, p.idStop, p.idReset, p.idSetcolor]

/-- `MIN_TIMER_MS - 1`. The spec gives "open, integer >= 1"; that it fits the 32-bit effect timer is DEDUCED (log 2). -/
opaque Config.minTimerPred : Fin 4294967295

/-- Where `DEFAULT_RHYTHM` comes from: any natural, folded into the range of a rhythm by `Config.defaultRhythm`. -/
opaque Config.defaultRhythmSeed : Nat

/-- Where the six command-ids come from: any six pairwise distinct bytes are the images of 0, 1, ..., 5 under some
permutation of the bytes, so this leaves open exactly what 30_encoding.md R84 leaves open. -/
opaque Config.idPerm : Equiv.Perm Byte

/-- `ALLOC_MAY_FAIL`, an open Boolean (00_scope.md R8). -/
opaque Config.allocMayFail : Bool

/-- The role strap's level at the reset that `State.reset` stands for (10_state.md R36). -/
opaque Config.isRootStrap : Bool

/-- The `n`-th draw of `alloc_fails()`: "a free Boolean draw" (60_exceptions.md R216; log 4). -/
opaque Config.allocFails : Nat → Bool

/-- The `n`-th choice of the order of two expiries in one `TICK` (60_exceptions.md R222; log 5): whether the
sequence timer's rule runs first. -/
opaque Config.sequenceFirst : Nat → Bool

/-- `DEFAULT_RHYTHM`: an open integer from `RHYTHM_MIN` to `RHYTHM_MAX` (00_scope.md R8). -/
def Config.defaultRhythm : Nat :=
  Config.rhythmMin + Config.defaultRhythmSeed % (Config.rhythmMax - Config.rhythmMin + 1)

/-- The parameters of the implementation that `State.reset` is the reset state of (log 2). -/
def Config.params : Params where
  minTimerMs := Config.minTimerPred.val + 1
  defaultRhythm := BitVec.ofNat 8 Config.defaultRhythm
  idSequence := Config.idPerm 0
  idBeat := Config.idPerm 1
  idStart := Config.idPerm 2
  idStop := Config.idPerm 3
  idReset := Config.idPerm 4
  idSetcolor := Config.idPerm 5
  allocMayFail := Config.allocMayFail

end Sys2Proof
end

