-- ==== Sys2Proof/Machine/State.lean ====
section
/-! DEFINITION. The state of the block, 10_state.md R20, as plain data; beside it, in fields marked as the model's
own, the environment's schedule and the outputs of the step (00_scope.md R7). -/

namespace Sys2Proof.Machine

open Sys2Proof

/-- Why a run stops. The block itself has no fatal state (60_exceptions.md R211), so no state that meets
`State.Inv` of Safety.lean ever faults. -/
inductive Fault where
  /-- Raised by a `TICK` in which the effect timer expires in phase IDLE: 41_effect_player.md R140 says it "cannot
  occur" and gives no action. Safe: the model stops where the spec has no behaviour (log 7). -/
  | expiryWhileIdle
deriving DecidableEq, Repr

/-- Why an instruction has no meaning. -/
inductive Refusal where
  /-- An instruction the model gives no meaning; no arm of `exec` answers it. Safe: the model stops. -/
  | notModelled (mnemonic : String)
deriving DecidableEq, Repr

/-- `S.ep_kind` (10_state.md R24): 0 none, 1 STROBE, 2 FADE; the code 3 is not legal (log 12). -/
inductive EffectKind where
  | none
  | strobe
  | fade
deriving DecidableEq, Repr

/-- `S.ep_phase` (10_state.md R26). The code 7 is never held and has no constructor (log 12). -/
inductive Phase where
  /-- No effect; the effect timer is disarmed. -/
  | idle
  /-- `on` shown, waiting `duration_on_ms`. -/
  | strobeOn
  /-- `off` shown, waiting `duration_off_ms`. -/
  | strobeOff
  /-- Interpolating `on` to `off`, waiting the next 20 ms. -/
  | fadeIn
  /-- `off` shown, waiting `hold_ms`. -/
  | fadeHold
  /-- Interpolating `off` to `on`, waiting the next 20 ms. -/
  | fadeOut
  /-- Waiting `start_delay_ms` before the first phase. -/
  | delay
deriving DecidableEq, Repr

/-- A timer: an armed bit and a count of `width` bits (60_exceptions.md R219). -/
structure Timer (width : Nat) where
  armed : Bool
  count : BitVec width
deriving DecidableEq, Repr

/-- The descriptor registers (10_state.md R24), "replaced wholesale" (R25). -/
structure Descriptor where
  /-- `S.ep_kind`. -/
  kind : EffectKind
  /-- `S.ep_on`. -/
  onColor : Color
  /-- `S.ep_off`. -/
  offColor : Color
  /-- `S.ep_t0`: `duration_on_ms` or `fade_in_ms`. -/
  t0 : Word32
  /-- `S.ep_t1`: `duration_off_ms` or `fade_out_ms`. -/
  t1 : Word32
  /-- `S.ep_hold`: `hold_ms`; a strobe stores and never reads it. -/
  hold : Word32
  /-- `S.ep_repeat`: `repeat_count`, 0 for ever. -/
  repeatCount : Word32
  /-- `S.ep_delay`: `start_delay_ms`. -/
  delay : Word32
deriving DecidableEq, Repr

/-- The effect player's state (10_state.md R23 to R30). -/
structure EffectPlayer where
  /-- `S.ep_valid`. -/
  valid : Bool
  desc : Descriptor
  /-- `S.ep_phase`. -/
  phase : Phase
  /-- `S.ep_remaining`. -/
  remaining : Word32
  /-- `S.ep_elapsed`. -/
  elapsed : Word32
  /-- `S.ept_armed`, `S.ept_count`. -/
  timer : Timer 32
deriving DecidableEq, Repr

/-- The sequence stepper's state (10_state.md R31 to R34). -/
structure Sequencer where
  /-- `S.sq_rhythm`. -/
  rhythm : Byte
  /-- `S.sq_pointer`. -/
  pointer : Byte
  /-- `S.sq_active`. -/
  active : Bool
  /-- `S.sqt_armed`, `S.sqt_count`. -/
  timer : Timer 16
deriving DecidableEq, Repr

/-- The palette RAM (20_memory.md R50) as (offset, byte) pairs in one canonical form: offsets strictly rising, below
384, and no entry with the byte 0x00, which an unlisted offset reads as (10_state.md R35: the reset content). -/
abbrev Memory := List Host.Cell

/-- An event the environment presents (00_scope.md R7), or the external reset (70_reset_and_hazards.md R240). -/
inductive Event where
  /-- A host command frame, delivered whole with its length (30_encoding.md R70). -/
  | cmd (frame : List Byte)
  /-- One millisecond of the time base (60_exceptions.md R228). -/
  | tick
  /-- Reset, with the level of the role strap that it samples (10_state.md R36; log 3). -/
  | reset (strap : Bool)
deriving DecidableEq, Repr

/-- An output event (00_scope.md R7). -/
inductive Output where
  /-- `Sink(r, g, b)`: a light-sink write (60_exceptions.md R224). -/
  | sink (c : Color)
  /-- `Msg(bytes)`: a wire message handed to the transport once (60_exceptions.md R225). -/
  | msg (bytes : List Byte)
deriving DecidableEq, Repr

/-- The status names of 60_exceptions.md R210. -/
inductive Status where
  | ok
  | wrongRole
  | invalidArgument
  | resourceExhausted
  /-- Never returned (60_exceptions.md R214). -/
  | transportFailure
  /-- Never returned (60_exceptions.md R215). -/
  | notActive
  | illegalCommand
  | malformed
  | unknownMessage
deriving DecidableEq, Repr

/-- A response frame (30_encoding.md R74): the status and the payload bytes. -/
structure Response where
  status : Status
  payload : List Byte
deriving DecidableEq, Repr

/-- The state of the machine. `ep`, `sq`, `pal` and `isRoot` are the record `S` of 10_state.md R20 and nothing else;
the fields after them are the model's own. -/
structure State where
  ep : EffectPlayer
  sq : Sequencer
  /-- `S.pal`. -/
  pal : Memory
  /-- `S.is_root`. -/
  isRoot : Bool
  /-- The parameters of 00_scope.md R8, which no step changes (log 2). -/
  par : Params
  /-- How many free draws have been made: what the next one is read at (log 4, log 5). -/
  draws : Nat
  /-- The environment's schedule: the events still to come, the next one first (log 1). -/
  inbox : List Event
  /-- The output events of the step, in order (log 6). -/
  out : List Output
  /-- The response frame of the step, none where the step's event was no command (log 6). -/
  resp : Option Response
deriving DecidableEq, Repr

/-- The canonical form of a palette whose offsets start at `low` or above. -/
def Memory.wfFrom (low : Nat) : Memory → Bool
  | [] => true
  | (a, b) :: rest =>
    decide (low ≤ a) && decide (a < Config.paletteBytes) && !(b == 0) && Memory.wfFrom (a + 1) rest

/-- The canonical form of the palette: offsets strictly rising and below 384, no byte 0x00 listed. -/
def Memory.wf (m : Memory) : Bool := Memory.wfFrom 0 m

/-- No descriptor: every descriptor register reads 0 (10_state.md R23, R24). -/
def Descriptor.absent : Descriptor where
  kind := .none
  onColor := ⟨0, 0, 0⟩
  offColor := ⟨0, 0, 0⟩
  t0 := 0
  t1 := 0
  hold := 0
  repeatCount := 0
  delay := 0

/-- The effect player after reset (10_state.md R40). -/
def EffectPlayer.atReset : EffectPlayer where
  valid := false
  desc := Descriptor.absent
  phase := .idle
  remaining := 0
  elapsed := 0
  timer := ⟨false, 0⟩

/-- The sequence stepper after reset (10_state.md R40). -/
def Sequencer.atReset (p : Params) : Sequencer where
  rhythm := p.defaultRhythm
  pointer := 0
  active := false
  timer := ⟨false, 0⟩

/-- The machine right after reset (10_state.md R40, 70_reset_and_hazards.md R240, R241): nothing emitted, no event
arrived, the parameters and the strap those of the implementation (log 1, 2, 4, 6). -/
def State.reset : State where
  ep := EffectPlayer.atReset
  sq := Sequencer.atReset Config.params
  pal := []
  isRoot := Config.isRootStrap
  par := Config.params
  draws := 0
  inbox := []
  out := []
  resp := none

end Sys2Proof.Machine
end

