-- ==== Sys2Proof/Machine/Flags.lean ====
section
/-! DEFINITION. The block has no condition codes (10_state.md R37): the only flag-like results are the status byte of
a response, the 1-bit state elements and the phase and kind codes that EP_QUERY reports. Their codes stand here. -/

namespace Sys2Proof.Machine

open Sys2Proof

/-- The status byte (60_exceptions.md R210). -/
def Status.code : Status → Byte
  | .ok => 0x00
  | .wrongRole => 0x01
  | .invalidArgument => 0x02
  | .resourceExhausted => 0x03
  | .transportFailure => 0x04
  | .notActive => 0x05
  | .illegalCommand => 0x10
  | .malformed => 0x11
  | .unknownMessage => 0x12

/-- The phase encoding (10_state.md R26). -/
def Phase.code : Phase → Byte
  | .idle => 0
  | .strobeOn => 1
  | .strobeOff => 2
  | .fadeIn => 3
  | .fadeHold => 4
  | .fadeOut => 5
  | .delay => 6

/-- The kind encoding (10_state.md R20, R24). -/
def EffectKind.code : EffectKind → Byte
  | .none => 0
  | .strobe => 1
  | .fade => 2

/-- The kind EP_PLAY's kind byte names: 1 or 2, none for 0 (an absent descriptor) and 3-255
(41_effect_player.md R131). -/
def effectKindOfByte (b : Byte) : Option EffectKind :=
  if b = 1 then some .strobe else if b = 2 then some .fade else none

/-- The bytes of a response frame: the status byte, then the payload (30_encoding.md R74). -/
def Response.frame (r : Response) : List Byte := r.status.code :: r.payload

end Sys2Proof.Machine
end

