-- ==== Sys2Proof/Machine/Ops.lean ====
section
/-! DEFINITION. The operations the meanings share: timers, the palette RAM, output and response, `raise`, the free
draw, and reset (00_scope.md R11; 60_exceptions.md). -/

namespace Sys2Proof.Machine

open Sys2Proof

/-! ### Timers (60_exceptions.md section 3) -/

/-- `load(n)`: a 0 loads `MIN_TIMER_MS` (60_exceptions.md R219). -/
def timerLoad (p : Params) (n : Nat) : Nat := if 0 < n then n else p.minTimerMs

/-- `arm(T, n)` (60_exceptions.md R219). -/
def armTimer {width : Nat} (p : Params) (n : Nat) : Timer width := ⟨true, BitVec.ofNat width (timerLoad p n)⟩

/-- `disarm(T)` (60_exceptions.md R221). -/
def disarmed {width : Nat} : Timer width := ⟨false, 0⟩

/-- Whether this `TICK` expires the timer: it is armed and its count, decremented, is 0 (60_exceptions.md R220). -/
def Timer.expires {width : Nat} (t : Timer width) : Bool := t.armed && t.count - 1 == 0

/-- What a `TICK` does to a timer before any expiry rule runs (60_exceptions.md R220): an armed one counts down, and
is disarmed when the count reaches 0; a disarmed one is left as it is. A count of 0 would wrap (log 13). -/
def Timer.countDown {width : Nat} (t : Timer width) : Timer width :=
  if t.armed then ⟨!t.expires, t.count - 1⟩ else t

/-! ### The palette RAM (20_memory.md) -/

/-- `MemRead(a, 1)` (00_scope.md R11): an offset that is not listed reads 0x00. -/
def Memory.read : Memory → Nat → Byte
  | [], _ => 0
  | (k, b) :: rest, a => if k = a then b else Memory.read rest a

/-- The cells of a byte string laid out from offset `a`, the bytes 0x00 left unlisted. -/
def cellsFrom : Nat → List Byte → Memory
  | _, [] => []
  | a, b :: rest => if b = 0 then cellsFrom (a + 1) rest else (a, b) :: cellsFrom (a + 1) rest

/-- `MemWrite(0, 384, v)`: the whole-buffer write, the only write of the palette (20_memory.md R55). -/
def Memory.load (buffer : List Byte) : Memory := cellsFrom 0 (buffer.take Config.paletteBytes)

/-- The offset of byte `k`, below 3, of the group that holds square `i`: at most 383 (20_memory.md R51, R56). -/
def squareOffset (i : Byte) (k : Nat) : Nat := Config.groupBytes * (i.toNat / 2) + k

/-- `square(i)` (20_memory.md R51, 40_palette.md R100). -/
def square (m : Memory) (i : Byte) : PackedColor :=
  if i.toNat % 2 = 0 then
    ⟨hi (m.read (squareOffset i 0)), lo (m.read (squareOffset i 0)), hi (m.read (squareOffset i 1))⟩
  else
    ⟨lo (m.read (squareOffset i 1)), hi (m.read (squareOffset i 2)), lo (m.read (squareOffset i 2))⟩

/-! ### Output, response, `raise` and the free draw -/

/-- `emit` for a list of events (00_scope.md R11). -/
def State.emit (s : State) (os : List Output) : State := { s with out := s.out ++ os }

/-- `respond(st, p)` (00_scope.md R11). -/
def State.respond (s : State) (st : Status) (payload : List Byte) : State := { s with resp := some ⟨st, payload⟩ }

/-- `raise <Status>` (60_exceptions.md R212), the block's whole way of reporting an error (60_exceptions.md R217 says
there is no trap): applied to the state the command found, it leaves every state element as it was and emits
nothing. -/
def State.raise (s : State) (st : Status) : State := s.respond st []

/-- `ALLOC_MAY_FAIL and alloc_fails()` (60_exceptions.md R216): the free draw of this command (log 4). -/
def State.allocFails (s : State) : Bool := s.par.allocMayFail && Config.allocFails s.draws

/-- The draw has been made where `ALLOC_MAY_FAIL` asks for one, so that the next one is another (log 4). -/
def State.drawn (s : State) : State := { s with draws := s.draws + s.par.allocMayFail.toNat }

/-- The role check (60_exceptions.md R223, 42_sequence.md R160): `k` is the command on a root. -/
def State.onRoot (s : State) (k : State) : State := if s.isRoot then k else s.raise .wrongRole

/-! ### Reset (70_reset_and_hazards.md R240) -/

/-- The reset event: every element of `S` takes its reset value, `is_root` the strap's level; nothing is emitted
(R241). The parameters and the environment's own fields stay. -/
def State.resetBlock (s : State) (strap : Bool) : State :=
  { s with ep := EffectPlayer.atReset, sq := Sequencer.atReset s.par, pal := [], isRoot := strap }

end Sys2Proof.Machine
end

