-- ==== Sys2Proof/Machine/EffectPlayer.lean ====
section
/-! DEFINITION. The effect player: interpolation, the transition procedures, its three commands and its expiry rule
(41_effect_player.md). A procedure takes the parameters and the player, and answers the player after it with the
`Sink` writes it makes, in order: the player touches nothing else of the block (42_sequence.md R171). -/

namespace Sys2Proof.Machine

open Sys2Proof

/-! ### Interpolation (41_effect_player.md R121) -/

/-- `interp` on naturals, with exact products and floor division (41_effect_player.md R121). -/
def interpNat (start finish elapsed total : Nat) : Nat :=
  if total ≤ elapsed then finish else (start * (total - elapsed) + finish * elapsed) / total

/-- `interp` of one 8-bit channel (41_effect_player.md R121). -/
def interp (start finish : Byte) (elapsed total : Nat) : Byte :=
  BitVec.ofNat 8 (interpNat start.toNat finish.toNat elapsed total)

/-- `interp_color`, channel by channel (41_effect_player.md R121). -/
def interpColor (start finish : Color) (elapsed total : Nat) : Color :=
  ⟨interp start.r finish.r elapsed total, interp start.g finish.g elapsed total,
   interp start.b finish.b elapsed total⟩

/-! ### Transition procedures (41_effect_player.md section 2) -/

/-- A write of the sink before what a procedure does next. -/
def sinkThen (c : Color) (r : EffectPlayer × List Output) : EffectPlayer × List Output := (r.1, .sink c :: r.2)

/-- `finish()` (41_effect_player.md R130): the timer cancelled, the descriptor released, the counters reset, IDLE. -/
def finish (e : EffectPlayer) : EffectPlayer :=
  { e with timer := disarmed, valid := false, desc := Descriptor.absent, remaining := 0, elapsed := 0, phase := .idle }

/-- `enter_strobe_on()` (41_effect_player.md R124). -/
def enterStrobeOn (p : Params) (e : EffectPlayer) : EffectPlayer × List Output :=
  ({ e with phase := .strobeOn, timer := armTimer p e.desc.t0.toNat }, [.sink e.desc.onColor])

/-- The repeat count of a completed toggle or cycle, and what follows where the effect goes on
(41_effect_player.md R125, R129): with `repeat > 0` the remaining count goes down, and the effect finishes at 0. -/
def repeatThen (e : EffectPlayer) (next : EffectPlayer → EffectPlayer × List Output) : EffectPlayer × List Output :=
  if e.desc.repeatCount = 0 then next e
  else if e.remaining - 1 = 0 then (finish e, [])
  else next { e with remaining := e.remaining - 1 }

/-- Waiting out `duration_off_ms` (41_effect_player.md R125). -/
def waitStrobeOff (p : Params) (e : EffectPlayer) : EffectPlayer × List Output :=
  ({ e with phase := .strobeOff, timer := armTimer p e.desc.t1.toNat }, [])

/-- `enter_strobe_off()` (41_effect_player.md R125). -/
def enterStrobeOff (p : Params) (e : EffectPlayer) : EffectPlayer × List Output :=
  sinkThen e.desc.offColor (repeatThen e (waitStrobeOff p))

/-- `enter_fade_hold()` (41_effect_player.md R127). -/
def enterFadeHold (p : Params) (e : EffectPlayer) : EffectPlayer × List Output :=
  ({ e with elapsed := 0, phase := .fadeHold, timer := armTimer p e.desc.hold.toNat }, [.sink e.desc.offColor])

/-- `enter_fade_in()` (41_effect_player.md R126). -/
def enterFadeIn (p : Params) (e : EffectPlayer) : EffectPlayer × List Output :=
  if e.desc.t0 = 0 then enterFadeHold p { e with elapsed := 0 }
  else ({ e with elapsed := 0, phase := .fadeIn, timer := armTimer p Config.interpTickMs }, [])

/-- `cycle_complete()` (41_effect_player.md R129). -/
def cycleComplete (p : Params) (e : EffectPlayer) : EffectPlayer × List Output := repeatThen e (enterFadeIn p)

/-- `enter_fade_out()` (41_effect_player.md R128). -/
def enterFadeOut (p : Params) (e : EffectPlayer) : EffectPlayer × List Output :=
  if e.desc.t1 = 0 then sinkThen e.desc.onColor (cycleComplete p { e with elapsed := 0 })
  else ({ e with elapsed := 0, phase := .fadeOut, timer := armTimer p Config.interpTickMs }, [])

/-- `enter_first_phase()` (41_effect_player.md R123). -/
def enterFirstPhase (p : Params) (e : EffectPlayer) : EffectPlayer × List Output :=
  if e.desc.kind = .strobe then enterStrobeOn p e else sinkThen e.desc.onColor (enterFadeIn p e)

/-- One interpolation tick: the elapsed count goes to `elapsed`, the color is written, 20 ms more are armed
(41_effect_player.md R141, R142). -/
def interpStep (p : Params) (e : EffectPlayer) (elapsed : Nat) (c : Color) : EffectPlayer × List Output :=
  ({ e with elapsed := BitVec.ofNat 32 elapsed, timer := armTimer p Config.interpTickMs }, [.sink c])

/-- `fade_in_step()` (41_effect_player.md R141). The sum is a natural: no width bounds it. -/
def fadeInStep (p : Params) (e : EffectPlayer) : EffectPlayer × List Output :=
  let elapsed := e.elapsed.toNat + Config.interpTickMs
  if e.desc.t0.toNat ≤ elapsed then enterFadeHold p e
  else interpStep p e elapsed (interpColor e.desc.onColor e.desc.offColor elapsed e.desc.t0.toNat)

/-- `fade_out_step()` (41_effect_player.md R142). The sum is a natural: no width bounds it. -/
def fadeOutStep (p : Params) (e : EffectPlayer) : EffectPlayer × List Output :=
  let elapsed := e.elapsed.toNat + Config.interpTickMs
  if e.desc.t1.toNat ≤ elapsed then sinkThen e.desc.onColor (cycleComplete p { e with elapsed := 0 })
  else interpStep p e elapsed (interpColor e.desc.offColor e.desc.onColor elapsed e.desc.t1.toNat)

/-! ### Timer expiry (41_effect_player.md R140) -/

/-- The effect timer's expiry rule, by phase; none in IDLE, which R140 says cannot occur (log 7). -/
def effectExpiry (p : Params) (e : EffectPlayer) : Option (EffectPlayer × List Output) :=
  match e.phase with
  | .idle => none
  | .strobeOn => some (enterStrobeOff p e)
  | .strobeOff => some (enterStrobeOn p e)
  | .fadeIn => some (fadeInStep p e)
  | .fadeHold => some (enterFadeOut p e)
  | .fadeOut => some (fadeOutStep p e)
  | .delay => some (enterFirstPhase p e)

/-- The player after a procedure, its writes appended to the step's output. -/
def State.withEffect (s : State) (r : EffectPlayer × List Output) : State :=
  ({ s with ep := r.1 } : State).emit r.2

/-! ### Commands (41_effect_player.md section 3) -/

/-- The descriptor stored into the player `e`, the repeat counter loaded, and the delay or the first phase entered
(41_effect_player.md R131, from `S.ep_valid <- 1` on). -/
def startEffect (p : Params) (e : EffectPlayer) (d : Descriptor) : EffectPlayer × List Output :=
  let e' : EffectPlayer := { e with valid := true, desc := d, remaining := d.repeatCount }
  if d.delay = 0 then enterFirstPhase p e'
  else ({ e' with phase := .delay, timer := armTimer p d.delay.toNat }, [])

/-- EP_PLAY of a present descriptor (41_effect_player.md R131): the running effect is cancelled first, so a failed
draw leaves the player IDLE (60_exceptions.md R216, 90_conflicts.md C1). -/
def State.play (s : State) (d : Descriptor) : State :=
  if s.allocFails then ({ s with ep := finish s.ep } : State).drawn.respond .resourceExhausted []
  else (s.drawn.withEffect (startEffect s.par (finish s.ep) d)).respond .ok []

/-- EP_PLAY (41_effect_player.md R131). -/
def execEpPlay (kind : Byte) (onColor offColor : Color) (t0 t1 hold repeatCount delay : Word32) (s : State) :
    Host.Outcome State Fault Refusal :=
  .next (
    match effectKindOfByte kind with
    | none => s.raise .invalidArgument
    | some k => s.play ⟨k, onColor, offColor, t0, t1, hold, repeatCount, delay⟩)

/-- EP_STOP (41_effect_player.md R132). -/
def execEpStop (s : State) : Host.Outcome State Fault Refusal :=
  .next (({ s with ep := finish s.ep } : State).respond .ok [])

/-- The payload of EP_QUERY (41_effect_player.md R150, 30_encoding.md R75). -/
def EffectPlayer.report (e : EffectPlayer) : List Byte :=
  [e.phase.code, e.desc.kind.code] ++ le32b e.remaining ++ le32b e.elapsed
    ++ [flagByte e.timer.armed] ++ le32b e.timer.count

/-- EP_QUERY (41_effect_player.md R150). -/
def execEpQuery (s : State) : Host.Outcome State Fault Refusal := .next (s.respond .ok s.ep.report)

end Sys2Proof.Machine
end

