-- ==== Sys2Proof/Machine/Codec.lean ====
section
/-! DEFINITION. The wire messages and the codec commands (30_encoding.md R79 to R85, 43_codec.md). Every codec
command is pure: it reads and writes no state and emits nothing; its result is its response payload. -/

namespace Sys2Proof.Machine

open Sys2Proof

/-! ### Encoder and decoder functions (43_codec.md section 1) -/

/-- `enc_sequence` (43_codec.md R190, 30_encoding.md R80). -/
def encSequence (p : Params) (rhythm : Byte) (buffer : List Byte) : List Byte := p.idSequence :: rhythm :: buffer

/-- `enc_beat` (43_codec.md R190, 30_encoding.md R81). -/
def encBeat (p : Params) (pointer : Byte) : List Byte := [p.idBeat, pointer]

/-- `enc_start` (43_codec.md R190, 30_encoding.md R82). -/
def encStart (p : Params) : List Byte := [p.idStart]

/-- `enc_stop` (43_codec.md R190, 30_encoding.md R82). -/
def encStop (p : Params) : List Byte := [p.idStop]

/-- `enc_reset` (43_codec.md R190, 30_encoding.md R82). -/
def encReset (p : Params) : List Byte := [p.idReset]

/-- `enc_setcolor` (43_codec.md R190, 30_encoding.md R83). -/
def encSetcolor (p : Params) (c : Color) : List Byte := p.idSetcolor :: c.bytes

/-- A message of one layout: its length must be the layout's exactly, and the answer is its kind code and the bytes
after its id (43_codec.md R198, 30_encoding.md R85). -/
def decFields (length : Nat) (kind : Byte) (m : List Byte) : Status × List Byte :=
  if m.length = length then (.ok, kind :: bytesFrom m 1) else (.malformed, [])

/-- A SEQUENCE message: a rhythm that is not legal is refused, after the length (43_codec.md R198). -/
def decSequence (m : List Byte) : Status × List Byte :=
  if m.length = Config.sequenceMessageBytes ∧ isRhythm (byteAt m 1) = false then (.invalidArgument, [])
  else decFields Config.sequenceMessageBytes 0 m

/-- `dec(m)` (43_codec.md R198). -/
def decodeMessage (p : Params) (m : List Byte) : Status × List Byte :=
  match m with
  | [] => (.malformed, [])
  | id :: _ =>
    if id = p.idSequence then decSequence m
    else if id = p.idBeat then decFields Config.beatMessageBytes 1 m
    else if id = p.idStart then decFields Config.controlMessageBytes 2 m
    else if id = p.idStop then decFields Config.controlMessageBytes 3 m
    else if id = p.idReset then decFields Config.controlMessageBytes 4 m
    else if id = p.idSetcolor then decFields Config.setcolorMessageBytes 5 m
    else (.unknownMessage, [])

/-! ### Commands -/

/-- MSG_ENC_SEQUENCE (43_codec.md R191). -/
def execMsgEncSequence (rhythm : Byte) (buffer : List Byte) (s : State) : Host.Outcome State Fault Refusal :=
  .next (if isRhythm rhythm then s.respond .ok (encSequence s.par rhythm buffer) else s.raise .invalidArgument)

/-- MSG_ENC_BEAT (43_codec.md R192). -/
def execMsgEncBeat (pointer : Byte) (s : State) : Host.Outcome State Fault Refusal :=
  .next (s.respond .ok (encBeat s.par pointer))

/-- MSG_ENC_START (43_codec.md R193). -/
def execMsgEncStart (s : State) : Host.Outcome State Fault Refusal := .next (s.respond .ok (encStart s.par))

/-- MSG_ENC_STOP (43_codec.md R194). -/
def execMsgEncStop (s : State) : Host.Outcome State Fault Refusal := .next (s.respond .ok (encStop s.par))

/-- MSG_ENC_RESET (43_codec.md R195). -/
def execMsgEncReset (s : State) : Host.Outcome State Fault Refusal := .next (s.respond .ok (encReset s.par))

/-- MSG_ENC_SETCOLOR (43_codec.md R196). -/
def execMsgEncSetcolor (r g b : Byte) (s : State) : Host.Outcome State Fault Refusal :=
  .next (s.respond .ok (encSetcolor s.par ⟨r, g, b⟩))

/-- MSG_DECODE (43_codec.md R197). -/
def execMsgDecode (message : List Byte) (s : State) : Host.Outcome State Fault Refusal :=
  .next (s.respond (decodeMessage s.par message).1 (decodeMessage s.par message).2)

end Sys2Proof.Machine
end

