-- ==== Sys2Proof/Machine/Palette.lean ====
section
/-! DEFINITION. The palette commands: PAL_SET, PAL_GET, PAL_PACK_PAIR, PAL_UNPACK_PAIR, PAL_TO_DISPLAY and
PAL_QUANTIZE (40_palette.md). None checks the role, emits an output or, but for PAL_SET, writes state. -/

namespace Sys2Proof.Machine

open Sys2Proof

/-! ### Functions (40_palette.md section 1) -/

/-- A packed channel times the display scale (40_palette.md R101). -/
def displayChannel (n : Nibble) : Byte := BitVec.ofNat 8 (Config.displayScale * n.toNat)

/-- `to_display` (40_palette.md R101). -/
def toDisplay (p : PackedColor) : Color := ⟨displayChannel p.r, displayChannel p.g, displayChannel p.b⟩

/-- Two channels in one byte, the first in the high nibble (20_memory.md R53). -/
def packByte (high low : Nibble) : Byte := BitVec.ofNat 8 (high.toNat * 16 + low.toNat)

/-- `pack_pair(E, O)` (40_palette.md R102). -/
def packPair (e o : PackedColor) : List Byte := [packByte e.r e.g, packByte e.b o.r, packByte o.g o.b]

/-- `quantize` of one channel, which undoes the display scale (40_palette.md R103). -/
def quantizeChannel (b : Byte) : Nibble := BitVec.ofNat 4 (b.toNat / Config.displayScale)

/-- `quantize` (40_palette.md R103). -/
def quantize (c : Color) : PackedColor := ⟨quantizeChannel c.r, quantizeChannel c.g, quantizeChannel c.b⟩

/-- The three channels of a packed color as response bytes. -/
def PackedColor.responseBytes (p : PackedColor) : List Byte := [nibbleByte p.r, nibbleByte p.g, nibbleByte p.b]

/-! ### Commands (40_palette.md section 2) -/

/-- PAL_SET (40_palette.md R104). -/
def execPalSet (buffer : List Byte) (s : State) : Host.Outcome State Fault Refusal :=
  .next (({ s with pal := Memory.load buffer } : State).respond .ok [])

/-- PAL_GET (40_palette.md R105). -/
def execPalGet (index : Word16) (s : State) : Host.Outcome State Fault Refusal :=
  .next (
    if Config.paletteSquares ≤ index.toNat then s.raise .invalidArgument
    else
      let p := square s.pal (index.setWidth 8)
      s.respond .ok (PackedColor.responseBytes p ++ (toDisplay p).bytes))

/-- PAL_PACK_PAIR (40_palette.md R106). -/
def execPalPackPair (er eg eb or' og ob : Byte) (s : State) : Host.Outcome State Fault Refusal :=
  .next (
    if [er, eg, eb, or', og, ob].all isNibble then
      s.respond .ok
        (packPair ⟨nibbleOf er, nibbleOf eg, nibbleOf eb⟩ ⟨nibbleOf or', nibbleOf og, nibbleOf ob⟩)
    else s.raise .invalidArgument)

/-- PAL_UNPACK_PAIR (40_palette.md R107). -/
def execPalUnpackPair (b0 b1 b2 : Byte) (s : State) : Host.Outcome State Fault Refusal :=
  .next (s.respond .ok
    [nibbleByte (hi b0), nibbleByte (lo b0), nibbleByte (hi b1),
     nibbleByte (lo b1), nibbleByte (hi b2), nibbleByte (lo b2)])

/-- PAL_TO_DISPLAY (40_palette.md R108). -/
def execPalToDisplay (r g b : Byte) (s : State) : Host.Outcome State Fault Refusal :=
  .next (
    if [r, g, b].all isNibble then s.respond .ok (toDisplay ⟨nibbleOf r, nibbleOf g, nibbleOf b⟩).bytes
    else s.raise .invalidArgument)

/-- PAL_QUANTIZE (40_palette.md R109). -/
def execPalQuantize (r g b : Byte) (s : State) : Host.Outcome State Fault Refusal :=
  .next (s.respond .ok (PackedColor.responseBytes (quantize ⟨r, g, b⟩)))

end Sys2Proof.Machine
end

