-- ==== Sys2Proof/Machine/Sequencer.lean ====
section
/-! DEFINITION. The sequence stepper: its step, its five commands and its expiry rule (42_sequence.md). -/

namespace Sys2Proof.Machine

open Sys2Proof

/-- `period()`: the rhythm times 10 ms (42_sequence.md R161). -/
def Sequencer.period (q : Sequencer) : Nat := q.rhythm.toNat * Config.rhythmUnitMs

/-- `arm(T_SQ, period())` (42_sequence.md R161). -/
def Sequencer.rearmed (p : Params) (q : Sequencer) : Sequencer := { q with timer := armTimer p q.period }

/-- The BEAT of a step, sent when the advanced pointer stands at a row boundary (42_sequence.md R162). -/
def beatAt (p : Params) (pointer : Byte) : List Output :=
  if pointer.toNat % Config.rowLength = 0 then [.msg (encBeat p pointer)] else []

/-- The pointer after a step, modulo the number of squares (42_sequence.md R162). -/
def advance (pointer : Byte) : Byte := BitVec.ofNat 8 ((pointer.toNat + 1) % Config.paletteSquares)

/-- `seq_step()` (42_sequence.md R162), which is also the sequence timer's expiry rule (R168). -/
def seqStep (p : Params) (pal : Memory) (q : Sequencer) : Sequencer × List Output :=
  (Sequencer.rearmed p { q with pointer := advance q.pointer },
   .sink (toDisplay (square pal q.pointer)) :: beatAt p (advance q.pointer))

/-- The stepper after a step, its outputs appended to the step's output. -/
def State.withSequence (s : State) (r : Sequencer × List Output) : State :=
  ({ s with sq := r.1 } : State).emit r.2

/-- The stepper restarted: timer cancelled, pointer 0, active, a full period armed (42_sequence.md R163, R164). -/
def Sequencer.restarted (p : Params) (q : Sequencer) : Sequencer :=
  Sequencer.rearmed p { q with timer := disarmed, pointer := 0, active := true }

/-- SQ_RESET's part on the stepper (42_sequence.md R166): pointer 0; only an active one restarts its period. -/
def Sequencer.pointerReset (p : Params) (q : Sequencer) : Sequencer :=
  if q.active then Sequencer.rearmed p { q with pointer := 0, timer := disarmed } else { q with pointer := 0 }

/-! ### Commands (42_sequence.md section 2) -/

/-- SQ_STORE (42_sequence.md R163). -/
def execSqStore (rhythm : Byte) (buffer : List Byte) (s : State) : Host.Outcome State Fault Refusal :=
  .next (s.onRoot (
    if !isRhythm rhythm then s.raise .invalidArgument
    else if s.allocFails then s.drawn.raise .resourceExhausted
    else
      (({ s.drawn with
            sq := Sequencer.restarted s.par { s.sq with rhythm := rhythm }, pal := Memory.load buffer } : State).emit
        [.msg (encSequence s.par rhythm buffer)]).respond .ok []))

/-- SQ_START (42_sequence.md R164). -/
def execSqStart (s : State) : Host.Outcome State Fault Refusal :=
  .next (s.onRoot (
    if s.allocFails then s.drawn.raise .resourceExhausted
    else
      (({ s.drawn with sq := Sequencer.restarted s.par s.sq } : State).emit [.msg (encStart s.par)]).respond .ok []))

/-- SQ_STOP (42_sequence.md R165). -/
def execSqStop (s : State) : Host.Outcome State Fault Refusal :=
  .next (s.onRoot (
    (({ s with sq := { s.sq with timer := disarmed, active := false } } : State).emit
      [.msg (encStop s.par)]).respond .ok []))

/-- SQ_RESET (42_sequence.md R166): the draw is made only while the stepper is active. -/
def execSqReset (s : State) : Host.Outcome State Fault Refusal :=
  .next (s.onRoot (
    if s.sq.active && s.allocFails then s.drawn.raise .resourceExhausted
    else
      let s' := if s.sq.active then s.drawn else s
      (({ s' with sq := Sequencer.pointerReset s.par s.sq } : State).emit [.msg (encReset s.par)]).respond .ok []))

/-- The payload of SQ_QUERY (42_sequence.md R172, 30_encoding.md R75). -/
def State.sequenceReport (s : State) : List Byte :=
  [s.sq.rhythm, s.sq.pointer, flagByte s.sq.active] ++ le16b s.sq.timer.count ++ [flagByte s.isRoot]

/-- SQ_QUERY (42_sequence.md R172), not role-checked. -/
def execSqQuery (s : State) : Host.Outcome State Fault Refusal := .next (s.respond .ok s.sequenceReport)

end Sys2Proof.Machine
end

