-- ==== Sys2Proof/Machine/Dispatch.lean ====
section
/-! DEFINITION. One arm per command, each one call of its meaning. -/

namespace Sys2Proof.Machine

open Sys2Proof

/-- The meaning of a command in the state its frame is presented in (00_scope.md R14). -/
def exec (i : Instr) (s : State) : Host.Outcome State Fault Refusal :=
  match i with
  | .epPlay kind onColor offColor t0 t1 hold repeatCount delay => Sys2Proof.Machine.execEpPlay kind onColor offColor t0 t1 hold repeatCount delay s
  | .epStop => Sys2Proof.Machine.execEpStop s
  | .epQuery => Sys2Proof.Machine.execEpQuery s
  | .palSet buffer => Sys2Proof.Machine.execPalSet buffer s
  | .palGet index => Sys2Proof.Machine.execPalGet index s
  | .palPackPair er eg eb or' og ob => Sys2Proof.Machine.execPalPackPair er eg eb or' og ob s
  | .palUnpackPair b0 b1 b2 => Sys2Proof.Machine.execPalUnpackPair b0 b1 b2 s
  | .palToDisplay r g b => Sys2Proof.Machine.execPalToDisplay r g b s
  | .palQuantize r g b => Sys2Proof.Machine.execPalQuantize r g b s
  | .sqStore rhythm buffer => Sys2Proof.Machine.execSqStore rhythm buffer s
  | .sqStart => Sys2Proof.Machine.execSqStart s
  | .sqStop => Sys2Proof.Machine.execSqStop s
  | .sqReset => Sys2Proof.Machine.execSqReset s
  | .sqQuery => Sys2Proof.Machine.execSqQuery s
  | .msgEncSequence rhythm buffer => Sys2Proof.Machine.execMsgEncSequence rhythm buffer s
  | .msgEncBeat pointer => Sys2Proof.Machine.execMsgEncBeat pointer s
  | .msgEncStart => Sys2Proof.Machine.execMsgEncStart s
  | .msgEncStop => Sys2Proof.Machine.execMsgEncStop s
  | .msgEncReset => Sys2Proof.Machine.execMsgEncReset s
  | .msgEncSetcolor r g b => Sys2Proof.Machine.execMsgEncSetcolor r g b s
  | .msgDecode message => Sys2Proof.Machine.execMsgDecode message s

end Sys2Proof.Machine
end

