-- ==== Sys2Proof/Machine/Tick.lean ====
section
/-! DEFINITION. The `TICK` step (60_exceptions.md R220, R222). -/

namespace Sys2Proof.Machine

open Sys2Proof

/-- Both counts go down before either expiry rule runs (60_exceptions.md R220). -/
def State.countedDown (s : State) : State :=
  { s with
    ep := { s.ep with timer := s.ep.timer.countDown }
    sq := { s.sq with timer := s.sq.timer.countDown } }

/-- The effect timer's expiry in a `TICK` (41_effect_player.md R140); the model faults where R140 gives no action
(log 7). -/
def runEffectExpiry (s : State) : Host.Outcome State Fault Refusal :=
  match effectExpiry s.par s.ep with
  | none => .fault .expiryWhileIdle
  | some r => .next (s.withEffect r)

/-- The sequence timer's expiry in a `TICK` (42_sequence.md R168). -/
def runSequenceExpiry (s : State) : State := s.withSequence (seqStep s.par s.pal s.sq)

/-- Both expiries in one `TICK`, in the order the free choice gives (60_exceptions.md R222; log 5). -/
def runBothExpiries (s : State) : Host.Outcome State Fault Refusal :=
  let s' : State := { s with draws := s.draws + 1 }
  if Config.sequenceFirst s.draws then runEffectExpiry (runSequenceExpiry s')
  else
    match runEffectExpiry s' with
    | .next t => .next (runSequenceExpiry t)
    | .fault r => .fault r
    | .refused r => .refused r

/-- A `TICK` (60_exceptions.md R220). -/
def tick (s : State) : Host.Outcome State Fault Refusal :=
  match s.ep.timer.expires, s.sq.timer.expires with
  | false, false => .next s.countedDown
  | true, false => runEffectExpiry s.countedDown
  | false, true => .next (runSequenceExpiry s.countedDown)
  | true, true => runBothExpiries s.countedDown

end Sys2Proof.Machine
end

