-- ==== Sys2Proof/Machine/Event.lean ====
section
/-! DEFINITION. One event, and how the next one is taken from the environment's schedule (00_scope.md R7; log 1). -/

namespace Sys2Proof.Machine

open Sys2Proof

/-- A command frame (30_encoding.md R70): an unlisted opcode raises ILLEGAL_COMMAND (R76), a wrong length MALFORMED
(R77), and any other frame runs its command. -/
def runFrame (frame : List Byte) (s : State) : Host.Outcome State Fault Refusal :=
  match decode frame with
  | .command i => exec i s
  | .illegalCommand => .next (s.raise .illegalCommand)
  | .malformed => .next (s.raise .malformed)

/-- One event (00_scope.md R7, 70_reset_and_hazards.md R240). -/
def runEvent (e : Event) (s : State) : Host.Outcome State Fault Refusal :=
  match e with
  | .cmd frame => runFrame frame s
  | .tick => tick s
  | .reset strap => .next (s.resetBlock strap)

/-- The state an event finds: the events after it still to come, and nothing emitted or answered yet in its step. -/
def State.opened (s : State) (rest : List Event) : State := { s with inbox := rest, out := [], resp := none }

/-- A step takes the next event of the schedule; with none there, the block waits (70_reset_and_hazards.md R241). -/
def takeEvent (s : State) : Host.Outcome State Fault Refusal :=
  match s.inbox with
  | [] => .next (s.opened [])
  | e :: rest => runEvent e (s.opened rest)

/-- `s` with this event presented next. -/
def State.present (s : State) (e : Event) : State := { s with inbox := e :: s.inbox }

end Sys2Proof.Machine
end

