-- ==== Sys2Proof/Machine/Step.lean ====
section
/-! DEFINITION. The step of the machine (00_scope.md R7), and how the host places an instruction. -/

namespace Sys2Proof.Machine

open Sys2Proof

/-- One step: exactly one event of the environment's schedule, executed to completion (00_scope.md R7, R14). -/
def step (s : State) : Host.Outcome State Fault Refusal := takeEvent s

/-- `s` with the frame of the instruction whose bits are `w` presented as the next event, where `step` takes it. -/
def State.withFetchWord (s : State) (nbits w : Nat) : State := s.present (.cmd (frameOfWord nbits w))

end Sys2Proof.Machine
end

