-- ==== Sys2Proof/Safety.lean ====
section
/-! DEFINITION. What a safe state is (the invariants that the rules keep), what is observed of a run, and the outputs
that 41_effect_player.md and 42_sequence.md give whole runs of the engines: the words the statements use. -/

namespace Sys2Proof.Machine

open Sys2Proof

/-- The parameters an implementation may have (00_scope.md R8, 30_encoding.md R84). -/
structure ParamsLegal (p : Params) : Prop where
  /-- `MIN_TIMER_MS` is at least 1 (60_exceptions.md R219). -/
  minTimer_pos : 1 ≤ p.minTimerMs
  /-- `MIN_TIMER_MS` fits the effect timer's count (log 2). -/
  minTimer_fits : p.minTimerMs < 2 ^ 32
  /-- `DEFAULT_RHYTHM` is 1 to 255 (10_state.md R31). -/
  rhythm_pos : p.defaultRhythm ≠ 0
  /-- The six ids are pairwise distinct (30_encoding.md R84). -/
  ids_distinct : p.ids.Nodup

/-- What every rule keeps of the effect player (10_state.md R20, R23, R27, R28, R30). -/
structure EffectInv (e : EffectPlayer) : Prop where
  /-- IDLE exactly without a descriptor (10_state.md R30). -/
  idle_iff : e.phase = .idle ↔ e.valid = false
  /-- The timer runs exactly outside IDLE (10_state.md R30). -/
  armed_iff : e.timer.armed = true ↔ e.phase ≠ .idle
  /-- IDLE holds no descriptor and no count (10_state.md R23, R30). -/
  idle_cleared : e.phase = .idle → e.desc = Descriptor.absent ∧ e.remaining = 0 ∧ e.elapsed = 0
  /-- An armed count is at least 1 (10_state.md R20). -/
  armed_count : e.timer.armed = true → e.timer.count ≠ 0
  /-- A disarmed count is 0 (10_state.md R20). -/
  disarmed_count : e.timer.armed = false → e.timer.count = 0
  /-- The strobe phases are a strobe's (41_effect_player.md R120). -/
  strobe_kind : e.phase = .strobeOn ∨ e.phase = .strobeOff → e.desc.kind = .strobe
  /-- The fade phases are a fade's (41_effect_player.md R120). -/
  fade_kind : e.phase = .fadeIn ∨ e.phase = .fadeHold ∨ e.phase = .fadeOut → e.desc.kind = .fade
  /-- A delayed effect has a kind and a delay (41_effect_player.md R131). -/
  delay_kind : e.phase = .delay → e.desc.kind ≠ .none ∧ e.desc.delay ≠ 0
  /-- `ep_remaining` stays 0 for an effect without end (10_state.md R27). -/
  forever_remaining : e.desc.repeatCount = 0 → e.remaining = 0
  /-- While a finite effect runs, 1 to `repeat_count` cycles remain (41_effect_player.md R125). -/
  finite_remaining : e.phase ≠ .idle → e.desc.repeatCount ≠ 0 →
    e.remaining ≠ 0 ∧ e.remaining.toNat ≤ e.desc.repeatCount.toNat
  /-- `ep_elapsed` in FADE_IN (10_state.md R28). -/
  fadeIn_elapsed : e.phase = .fadeIn → e.elapsed.toNat < e.desc.t0.toNat ∧ e.elapsed.toNat % 20 = 0
  /-- `ep_elapsed` in FADE_OUT (10_state.md R28). -/
  fadeOut_elapsed : e.phase = .fadeOut → e.elapsed.toNat < e.desc.t1.toNat ∧ e.elapsed.toNat % 20 = 0
  /-- `ep_elapsed` is 0 outside FADE_IN and FADE_OUT (10_state.md R28). -/
  other_elapsed : e.phase ≠ .fadeIn → e.phase ≠ .fadeOut → e.elapsed = 0

/-- What every rule keeps of the sequence stepper (10_state.md R20, R31, R34). -/
structure SequenceInv (q : Sequencer) : Prop where
  /-- The rhythm never holds 0 (10_state.md R31). -/
  rhythm_pos : q.rhythm ≠ 0
  /-- `S.sqt_armed = S.sq_active` (10_state.md R34). -/
  armed_eq : q.timer.armed = q.active
  /-- When armed, the count is 1 to the period (10_state.md R34). -/
  armed_count : q.timer.armed = true → 1 ≤ q.timer.count.toNat ∧ q.timer.count.toNat ≤ q.rhythm.toNat * 10
  /-- When disarmed, the count is 0 (10_state.md R20). -/
  disarmed_count : q.timer.armed = false → q.timer.count = 0

/-- The invariant of the machine. -/
structure State.Inv (s : State) : Prop where
  params : ParamsLegal s.par
  effect : EffectInv s.ep
  sequence : SequenceInv s.sq
  /-- The palette keeps its canonical form: 384 bytes, each listed at most once (20_memory.md R50). -/
  palette : s.pal.wf = true
  /-- A child's stepper never runs (60_exceptions.md R223). -/
  child_stopped : s.isRoot = false → s.sq.active = false

/-! ### Observation (00_scope.md R17) -/

/-- What is observed of one step: its response frame, if its event was a command, and its output events. -/
structure Observation where
  resp : Option Response
  out : List Output
deriving DecidableEq, Repr

/-- `n` steps and what is observed of each, in step order; none where a step does not answer a next state. A run
never ends by itself, so a claim says how many steps it covers (00_scope.md R17). -/
def run : Nat → State → Option (State × List Observation)
  | 0, s => some (s, [])
  | n + 1, s =>
    match step s with
    | .next t =>
      match run n t with
      | some (u, obs) => some (u, ⟨t.resp, t.out⟩ :: obs)
      | none => none
    | .fault _ => none
    | .refused _ => none

/-- The output events of a run, in step order. -/
def outputsOf (obs : List Observation) : List Output := obs.flatMap Observation.out

/-- The schedule of one command followed by `n` `TICK`s. -/
def commandThenTicks (i : Instr) (n : Nat) : List Event := .cmd (encode i) :: List.replicate n .tick

/-! ### Infinite runs and the time base -/

/-- An infinite run in which the environment presents `env n` at step `n`, whatever it does (00_scope.md R7). Each event
is presented for its step, so no finite schedule bounds the run (log 10). -/
def InfiniteRun (env : Nat → Event) (s : Nat → State) : Prop :=
  ∀ n, step ((s n).present (env n)) = .next (s (n + 1))

/-- The fairness assumption on the environment: infinitely many `TICK`s (70_reset_and_hazards.md R250). It is a premise
of a claim about progress, never a property of the block. -/
def FairEnvironment (env : Nat → Event) : Prop := ∀ n, ∃ m, n ≤ m ∧ env m = .tick

/-- No frame the environment presents begins with one of these opcodes. -/
def NeverSends (env : Nat → Event) (opcodes : List Byte) : Prop :=
  ∀ n F op, env n = .cmd F → F.head? = some op → op ∉ opcodes

/-- The environment never resets the block. -/
def NeverResets (env : Nat → Event) : Prop := ∀ n strap, env n ≠ .reset strap

/-! ### What one event leaves -/

/-- The count that arming with `n` gives: `n`, or `MIN_TIMER_MS` for 0 (60_exceptions.md R219); what
41_effect_player.md R143 writes `x'`. -/
def waitOf (p : Params) (n : Nat) : Nat := if n = 0 then p.minTimerMs else n

/-- `s` after a `TICK` with the events `rest` still to come, in which only the effect timer expired: the player is `e`,
the step's outputs are `out`, there is no response, and the other timer has counted down (60_exceptions.md R220). -/
def State.afterEffectTick (s : State) (rest : List Event) (e : EffectPlayer) (out : List Output) : State :=
  { s with
    ep := e, sq := { s.sq with timer := s.sq.timer.countDown }, inbox := rest, out := out, resp := none }

/-- `s` after a command that read the state only and answered `st` with `payload`. -/
def State.answered (s : State) (st : Status) (payload : List Byte) : State := { s with resp := some ⟨st, payload⟩ }

/-- A running effect: descriptor `d` held, in `phase`, with these counts, waiting `n` `TICK`s. -/
def EffectPlayer.running (d : Descriptor) (phase : Phase) (remaining elapsed : Word32) (n : Nat) : EffectPlayer where
  valid := true
  desc := d
  phase := phase
  remaining := remaining
  elapsed := elapsed
  timer := ⟨true, BitVec.ofNat 32 n⟩

/-- `enter_fade_in()` with nothing written before it (41_effect_player.md R126, R127): FADE_IN for 20 ms, or, with
`fade_in_ms` 0, `off` written and FADE_HOLD. -/
def fadeEntered (p : Params) (d : Descriptor) (remaining : Word32) : EffectPlayer × List Output :=
  if d.t0 = 0 then (EffectPlayer.running d .fadeHold remaining 0 (waitOf p d.hold.toNat), [.sink d.offColor])
  else (EffectPlayer.running d .fadeIn remaining 0 20, [])

/-- The end of a fade cycle (41_effect_player.md R129): a finite effect with one cycle left is finished, any other
goes to its next cycle. -/
def cycleEnded (p : Params) (d : Descriptor) (remaining : Word32) : EffectPlayer × List Output :=
  if d.repeatCount = 0 then fadeEntered p d remaining
  else if remaining = 1 then (EffectPlayer.atReset, [])
  else fadeEntered p d (remaining - 1)

/-- PAL_GET's payload for the channels `r g b` (40_palette.md R105): the nibbles, then each times 16. -/
def squareAnswer (r g b : Nat) : List Byte := [r, g, b, 16 * r, 16 * g, 16 * b].map (BitVec.ofNat 8)

/-! ### What whole runs of the engines output -/

/-- `L(t)`: the `TICK`s a fade phase of length `t` takes (41_effect_player.md R145). -/
def fadeTicks (t : Nat) : Nat := 20 * ((t + 19) / 20)

/-- The first `k` outputs of the stepper from pointer 0 (42_sequence.md R169, R170): the squares 0, 1, ... modulo 256
in display color, with a BEAT after every 16th step. -/
def sequenceOutputs (p : Params) (pal : Memory) (k : Nat) : List Output :=
  (List.range k).flatMap fun j =>
    .sink (toDisplay (square pal (BitVec.ofNat 8 j)))
      :: (if (j + 1) % 16 = 0 then [.msg [p.idBeat, BitVec.ofNat 8 (j + 1)]] else [])

/-- The `Sink` colors interpolated over a phase of length `total`, at 20, 40, ... below it (41_effect_player.md
R141, R142). -/
def interpolatedColors (start finish : Color) (total : Nat) : List Output :=
  (List.range ((total + 19) / 20 - 1)).map fun j => .sink (interpColor start finish (20 * (j + 1)) total)

/-- The `Sink` writes of one fade cycle after its first `on` (41_effect_player.md R126 to R128, R141, R142). -/
def fadeCycleOutputs (d : Descriptor) : List Output :=
  interpolatedColors d.onColor d.offColor d.t0.toNat ++ [.sink d.offColor]
    ++ interpolatedColors d.offColor d.onColor d.t1.toNat ++ [.sink d.onColor]

end Sys2Proof.Machine
end

