-- ==== Sys2Proof/Certificates/Slice0/Obligations.lean ====
section
/-! DEFINITION. The statements about the model, for the provers. Each says which rule of spec/ it formalises. -/

open Sys2Proof Sys2Proof.Machine

/-! ### Encoding -/

/-- Decoding the encoding of a well-formed command gives the command back, with every operand at every value
(30_encoding.md R70 to R73). -/
def Obligations.DecodeOfEncodeIsTheCommand : Prop :=
  ∀ i : Instr, i.wellFormed = true → decode (encode i) = .command i

/-- Every frame the decoder accepts is the encoding of a well-formed command, so no byte of a frame is ignored
(30_encoding.md R70 to R73). -/
def Obligations.AcceptedFramesAreEncodings : Prop :=
  ∀ (F : List Byte) (i : Instr), decode F = .command i → i.wellFormed = true ∧ encode i = F

/-- An opcode outside the map raises ILLEGAL_COMMAND, status 0x10, whatever follows it, and changes nothing
(30_encoding.md R76). -/
def Obligations.UnlistedOpcodesRaiseIllegalCommand : Prop :=
  ∀ (s : State) (op : Byte) (args : List Byte) (rest : List Event),
    s.inbox = .cmd (op :: args) :: rest →
    (op.toNat = 0 ∨ (0x04 ≤ op.toNat ∧ op.toNat ≤ 0x0F) ∨ (0x16 ≤ op.toNat ∧ op.toNat ≤ 0x1F)
      ∨ (0x25 ≤ op.toNat ∧ op.toNat ≤ 0x2F) ∨ 0x37 ≤ op.toNat) →
    step s = .next { s with inbox := rest, out := [], resp := some ⟨.illegalCommand, []⟩ }
      ∧ Response.frame ⟨.illegalCommand, []⟩ = [0x10]

/-- A frame of a listed opcode with another length than its opcode's, or an empty frame, raises MALFORMED, status
0x11, and changes nothing (30_encoding.md R77, with the lengths of R73). -/
def Obligations.WrongLengthsRaiseMalformed : Prop :=
  ∀ (s : State) (F : List Byte) (rest : List Event),
    s.inbox = .cmd F :: rest →
    (F = []
      ∨ (∃ row ∈ ([(0x01, 28), (0x02, 1), (0x03, 1), (0x10, 385), (0x11, 3), (0x12, 7), (0x13, 4), (0x14, 4), (0x15, 4),
            (0x20, 386), (0x21, 1), (0x22, 1), (0x23, 1), (0x24, 1), (0x30, 386), (0x31, 2), (0x32, 1), (0x33, 1),
            (0x34, 1), (0x35, 4)] : List (Byte × Nat)), F.head? = some row.1 ∧ F.length ≠ row.2)
      ∨ (F.head? = some 0x36
          ∧ (F.length < 3 ∨ F.length ≠ 3 + ((F.getD 1 0).toNat + 256 * (F.getD 2 0).toNat)))) →
    step s = .next { s with inbox := rest, out := [], resp := some ⟨.malformed, []⟩ }
      ∧ Response.frame ⟨.malformed, []⟩ = [0x11]

/-- Frames the spec writes out decode to the commands it gives for them (30_encoding.md R89; 95_test_vectors.md P-S2,
P-P1, P-U1, M1, P5): a sanity statement. -/
def Obligations.SpecFramesDecode : Prop :=
  decode [0x01, 0x01, 0xFF, 0xFF, 0xFF, 0x00, 0x00, 0x00, 0x05, 0x00, 0x00, 0x00, 0x03, 0x00, 0x00, 0x00, 0x00, 0x00,
      0x00, 0x00, 0x02, 0x00, 0x00, 0x00, 0x00, 0x00, 0x00, 0x00]
    = .command (.epPlay 1 ⟨255, 255, 255⟩ ⟨0, 0, 0⟩ 5 3 0 2 0)
  ∧ decode [0x11, 0x01, 0x00] = .command (.palGet 1)
  ∧ decode [0x12, 0x0F, 0x00, 0x00, 0x0F, 0x00, 0x00] = .command (.palPackPair 15 0 0 15 0 0)
  ∧ decode [0x13, 0xAB, 0xCD, 0xEF] = .command (.palUnpackPair 0xAB 0xCD 0xEF)
  ∧ decode [0x31, 0x10] = .command (.msgEncBeat 16)
  ∧ decode [0x35, 0x12, 0x34, 0x56] = .command (.msgEncSetcolor 18 52 86)

/-! ### Steps, reset and the invariant -/

/-- A step whose next event is a frame that decodes to `i` is `exec i`, in the state with that event taken from the
schedule and the outputs of the step before cleared (00_scope.md R7, R14); and the frame `withFetchWord` presents is
the one the next step runs, with the rest of the schedule kept (the model's interface, log 1 and log 14). -/
def Obligations.StepRunsTheDecodedCommand : Prop :=
  (∀ (s : State) (F : List Byte) (i : Instr) (rest : List Event),
    s.inbox = .cmd F :: rest → decode F = .command i →
    step s = exec i { s with inbox := rest, out := [], resp := none })
  ∧ ∀ (s : State) (nbits w : Nat) (i : Instr),
    decodeTableWord nbits w = some i →
    step (s.withFetchWord nbits w) = exec i { s with out := [], resp := none }

/-- Progress rests on the time base alone (70_reset_and_hazards.md R250). In every infinite run from a state of the
invariant whose environment presents infinitely many `TICK`s, the fairness assumption: a finite effect that no EP_PLAY
replaces comes to IDLE, and a running stepper that no stepper command or reset touches takes a step again and again,
each writing the square at its pointer. Where no `TICK` is presented, an engine that is sent no command and no reset
stands still. An infinite run is the model's form of one (log 10). -/
def Obligations.FairEnvironmentsMakeProgress : Prop :=
  ∀ (env : Nat → Event) (s : Nat → State), InfiniteRun env s → (s 0).Inv →
    (FairEnvironment env → NeverSends env [0x01] → (s 0).ep.desc.repeatCount ≠ 0 → ∃ n, (s n).ep.phase = .idle)
    ∧ (FairEnvironment env → NeverResets env → NeverSends env [0x20, 0x21, 0x22, 0x23] → (s 0).sq.active = true →
        ∀ n, ∃ m, n ≤ m ∧ env m = .tick ∧ (s (m + 1)).sq.pointer = (s m).sq.pointer + 1
          ∧ Output.sink (toDisplay (square (s m).pal (s m).sq.pointer)) ∈ (s (m + 1)).out)
    ∧ ((∀ n, env n ≠ .tick) → NeverResets env →
        (NeverSends env [0x01, 0x02] → ∀ n, (s n).ep = (s 0).ep)
        ∧ (NeverSends env [0x20, 0x21, 0x22, 0x23] → ∀ n, (s n).sq = (s 0).sq))

/-- The reset values of every element of `S` (10_state.md R40): the rhythm is the open parameter, the role the strap's
level (both open, log 2), and every palette byte 0x00. -/
def Obligations.ResetStateHasTheResetValues : Prop :=
  State.reset.ep = ⟨false, ⟨.none, ⟨0, 0, 0⟩, ⟨0, 0, 0⟩, 0, 0, 0, 0, 0⟩, .idle, 0, 0, ⟨false, 0⟩⟩
  ∧ State.reset.sq = ⟨State.reset.par.defaultRhythm, 0, false, ⟨false, 0⟩⟩
  ∧ (∀ a, a < 384 → State.reset.pal.read a = 0)
  ∧ State.reset.isRoot = Config.isRootStrap
  ∧ 1 ≤ State.reset.par.defaultRhythm.toNat

/-- The reset event gives every element of `S` its reset value and samples the strap (70_reset_and_hazards.md R240,
R242), and emits nothing (R241). That the event carries the strap's level, and that the parameters, the schedule and
the draw counter stay, are the model's choices (log 3, log 4). -/
def Obligations.ResetEventResetsTheBlock : Prop :=
  ∀ (s : State) (strap : Bool) (rest : List Event),
    s.inbox = .reset strap :: rest →
    ∃ t, step s = .next t ∧ t.ep = State.reset.ep
      ∧ t.sq = ⟨s.par.defaultRhythm, 0, false, ⟨false, 0⟩⟩ ∧ (∀ a, a < 384 → t.pal.read a = 0)
      ∧ t.isRoot = strap ∧ t.out = [] ∧ t.resp = none ∧ t.par = s.par ∧ t.inbox = rest ∧ t.draws = s.draws

/-- The reset state meets the invariant: the engines' (10_state.md R30, R34, R40), and that the parameters are in their
ranges with six distinct ids (00_scope.md R8, 30_encoding.md R84); that `MIN_TIMER_MS` fits 32 bits is the model's
bound, DEDUCED (log 2). -/
def Obligations.ResetStateMeetsTheInvariant : Prop := State.reset.Inv

/-- Every step keeps the invariant: the effect player's of 10_state.md R30 with R23, R27 and R28, the stepper's of R31
and R34, the palette's canonical form, the child's stopped stepper, and the parameters' ranges (log 2). -/
def Obligations.EveryStepKeepsTheInvariant : Prop :=
  ∀ s t : State, s.Inv → step s = .next t → t.Inv

/-- No run stops: from any state that meets the invariant, whatever the environment presents, every number of steps
answers (60_exceptions.md R211, 00_scope.md R17), and IDLE never expires (41_effect_player.md R140); and every
environment has an infinite run from that state, which keeps the invariant. Where the finite schedule has run out, the
steps of the first clause are the model's waiting steps (log 1); the second clause has none. -/
def Obligations.NoRunEverStops : Prop :=
  (∀ (n : Nat) (s : State), s.Inv → ∃ t obs, run n s = some (t, obs) ∧ t.Inv ∧ obs.length = n)
  ∧ ∀ (env : Nat → Event) (start : State), start.Inv →
    ∃ s : Nat → State, s 0 = start ∧ InfiniteRun env s ∧ ∀ n, (s n).Inv

/-- A child never emits a message, and only a reset whose strap is high makes it a root (60_exceptions.md R223,
10_state.md R36). -/
def Obligations.ChildNeverEmitsAMessage : Prop :=
  ∀ s t : State, s.Inv → s.isRoot = false → step s = .next t →
    (∀ m, Output.msg m ∉ t.out) ∧ (t.isRoot = true → ∃ rest, s.inbox = .reset true :: rest)

/-- The role changes in no step but a reset, and the parameters in none (10_state.md R36, R39). -/
def Obligations.RoleChangesOnlyAtReset : Prop :=
  ∀ s t : State, step s = .next t →
    t.par = s.par ∧ ((∀ strap rest, s.inbox ≠ .reset strap :: rest) → t.isRoot = s.isRoot)

/-- The engines are independent (42_sequence.md R171): a step, with the same allocation draw or with none, leaves two
machines with equal players with equal players, and two with equal steppers, palettes and roles with equal steppers,
palettes and messages, whatever the rest of them holds. -/
def Obligations.EnginesAreIndependent : Prop :=
  ∀ s₁ s₂ t₁ t₂ : State,
    s₁.par = s₂.par → (s₁.par.allocMayFail = false ∨ s₁.draws = s₂.draws) → s₁.inbox = s₂.inbox →
    step s₁ = .next t₁ → step s₂ = .next t₂ →
    (s₁.ep = s₂.ep → t₁.ep = t₂.ep)
    ∧ (s₁.sq = s₂.sq → s₁.pal = s₂.pal → s₁.isRoot = s₂.isRoot →
        t₁.sq = t₂.sq ∧ t₁.pal = t₂.pal
          ∧ ∀ m, Output.msg m ∈ t₁.out ↔ Output.msg m ∈ t₂.out)

/-- A refused frame answers with an empty payload, leaves every state element as it was and emits nothing, whatever
refused it; the one exception is EP_PLAY's RESOURCE_EXHAUSTED (60_exceptions.md R212). Only the model's counter of free
draws may have gone on (log 4). -/
def Obligations.RefusedCommandsChangeNothing : Prop :=
  ∀ (F : List Byte) (s t : State) (st : Status) (payload : List Byte),
    runFrame F s = .next t → t.resp = some ⟨st, payload⟩ → st ≠ .ok →
    ¬ (F.head? = some 0x01 ∧ st = .resourceExhausted) →
    payload = [] ∧ t = { s with draws := t.draws, resp := some ⟨st, []⟩ }

/-- Every command answers exactly one response: the payload is empty where the status is not OK, and has the length
of 30_encoding.md R75 where it is; TRANSPORT_FAILURE and NOT_ACTIVE are never answered (30_encoding.md R74, R75;
60_exceptions.md R214, R215). -/
def Obligations.EveryCommandAnswersOneResponse : Prop :=
  ∀ (i : Instr) (s : State), i.wellFormed = true →
    ∃ t st payload, exec i s = .next t ∧ t.resp = some ⟨st, payload⟩
      ∧ st ≠ .transportFailure ∧ st ≠ .notActive ∧ (st ≠ .ok → payload = [])
      ∧ (st = .ok →
          match opcodeOf i with
          | .epPlay | .epStop | .palSet | .sqStore | .sqStart | .sqStop | .sqReset => payload.length = 0
          | .epQuery => payload.length = 15
          | .sqQuery | .palGet | .palUnpackPair => payload.length = 6
          | .palPackPair | .palToDisplay | .palQuantize => payload.length = 3
          | .msgEncSequence => payload.length = 386
          | .msgEncBeat => payload.length = 2
          | .msgEncStart | .msgEncStop | .msgEncReset => payload.length = 1
          | .msgEncSetcolor => payload.length = 4
          | .msgDecode => payload.length ∈ [386, 2, 1, 4])

/-- What each command may write (10_state.md R41): only EP_PLAY and EP_STOP write the player, only SQ_STORE, SQ_START,
SQ_STOP and SQ_RESET the stepper, of these only SQ_STORE the rhythm and SQ_STOP not the pointer, only PAL_SET and
SQ_STORE a byte of the palette; none writes the role, the parameters or the schedule. What a command emits is appended:
only EP_PLAY emits `Sink` writes, only the four stepper commands messages, and every other command nothing. -/
def Obligations.CommandsWriteOnlyTheirOwnState : Prop :=
  ∀ (i : Instr) (s t : State), exec i s = .next t →
    t.isRoot = s.isRoot ∧ t.par = s.par ∧ t.inbox = s.inbox
    ∧ (opcodeOf i ≠ .epPlay → opcodeOf i ≠ .epStop → t.ep = s.ep)
    ∧ (opcodeOf i ≠ .sqStore → opcodeOf i ≠ .sqStart → opcodeOf i ≠ .sqStop → opcodeOf i ≠ .sqReset → t.sq = s.sq)
    ∧ (opcodeOf i ≠ .sqStore → t.sq.rhythm = s.sq.rhythm)
    ∧ (opcodeOf i = .sqStop → t.sq.pointer = s.sq.pointer)
    ∧ (opcodeOf i ≠ .palSet → opcodeOf i ≠ .sqStore → t.pal = s.pal ∧ ∀ a, t.pal.read a = s.pal.read a)
    ∧ ∃ os, t.out = s.out ++ os
      ∧ (opcodeOf i ≠ .epPlay → ∀ c, Output.sink c ∉ os)
      ∧ (opcodeOf i ≠ .sqStore → opcodeOf i ≠ .sqStart → opcodeOf i ≠ .sqStop → opcodeOf i ≠ .sqReset →
          ∀ m, Output.msg m ∉ os)
      ∧ (opcodeOf i ≠ .epPlay → opcodeOf i ≠ .sqStore → opcodeOf i ≠ .sqStart → opcodeOf i ≠ .sqStop →
          opcodeOf i ≠ .sqReset → os = [])

/-- The palette is only ever replaced as a whole (20_memory.md R55): a step leaves it as it was, or is the PAL_SET or
SQ_STORE that gives it all 384 bytes of its buffer, or is a reset. -/
def Obligations.PaletteIsReplacedOnlyAsAWhole : Prop :=
  ∀ s t : State, step s = .next t →
    t.pal = s.pal
    ∨ (∃ F rest, s.inbox = .cmd F :: rest ∧ F.length = 385 ∧ F.head? = some 0x10
        ∧ ∀ a, a < 384 → t.pal.read a = F.getD (1 + a) 0)
    ∨ (∃ F rest, s.inbox = .cmd F :: rest ∧ F.length = 386 ∧ F.head? = some 0x20
        ∧ ∀ a, a < 384 → t.pal.read a = F.getD (2 + a) 0)
    ∨ (∃ strap rest, s.inbox = .reset strap :: rest ∧ ∀ a, a < 384 → t.pal.read a = 0)

/-! ### Effect player: commands -/

/-- EP_PLAY of a strobe with no delay (41_effect_player.md R131, R124): whatever ran is replaced, `on` is written, and
the player waits `duration_on_ms`, or `MIN_TIMER_MS` for 0, in STROBE_ON. -/
def Obligations.EpPlayStartsAStrobe : Prop :=
  ∀ (s : State) (onColor offColor : Color) (t0 t1 hold repeatCount : Word32),
    s.par.allocMayFail = false →
    exec (.epPlay 1 onColor offColor t0 t1 hold repeatCount 0) s
      = .next { s with
          ep := EffectPlayer.running ⟨.strobe, onColor, offColor, t0, t1, hold, repeatCount, 0⟩ .strobeOn repeatCount 0
            (waitOf s.par t0.toNat)
          out := s.out ++ [.sink onColor]
          resp := some ⟨.ok, []⟩ }

/-- EP_PLAY of a fade with no delay (41_effect_player.md R131, R123, R126, R144): `on` is written, then FADE_IN waits
its first 20 ms; with `fade_in_ms` 0, `off` is written in the same step and FADE_HOLD waits `hold_ms`. -/
def Obligations.EpPlayStartsAFade : Prop :=
  ∀ (s : State) (onColor offColor : Color) (t0 t1 hold repeatCount : Word32),
    s.par.allocMayFail = false →
    let d : Descriptor := ⟨.fade, onColor, offColor, t0, t1, hold, repeatCount, 0⟩
    exec (.epPlay 2 onColor offColor t0 t1 hold repeatCount 0) s
      = .next (
          if t0 = 0 then
            { s with
              ep := EffectPlayer.running d .fadeHold repeatCount 0 (waitOf s.par hold.toNat)
              out := s.out ++ [.sink onColor, .sink offColor]
              resp := some ⟨.ok, []⟩ }
          else
            { s with
              ep := EffectPlayer.running d .fadeIn repeatCount 0 20
              out := s.out ++ [.sink onColor]
              resp := some ⟨.ok, []⟩ })

/-- EP_PLAY with a start delay (41_effect_player.md R131): the descriptor is held, nothing is written, and the player
waits `start_delay_ms` in DELAY. -/
def Obligations.EpPlayWaitsItsStartDelay : Prop :=
  ∀ (s : State) (kind : Byte) (k : EffectKind) (onColor offColor : Color) (t0 t1 hold repeatCount delay : Word32),
    s.par.allocMayFail = false → (kind = 1 ∧ k = .strobe ∨ kind = 2 ∧ k = .fade) → delay ≠ 0 →
    exec (.epPlay kind onColor offColor t0 t1 hold repeatCount delay) s
      = .next { s with
          ep := EffectPlayer.running ⟨k, onColor, offColor, t0, t1, hold, repeatCount, delay⟩ .delay repeatCount 0 delay.toNat
          resp := some ⟨.ok, []⟩ }

/-- EP_PLAY of kind 0, an absent descriptor, or 3 to 255 answers INVALID_ARGUMENT and leaves the running effect
untouched (41_effect_player.md R131, 30_encoding.md R78). -/
def Obligations.EpPlayRefusesOtherKinds : Prop :=
  ∀ (s : State) (kind : Byte) (onColor offColor : Color) (t0 t1 hold repeatCount delay : Word32),
    (kind = 0 ∨ 3 ≤ kind.toNat) →
    exec (.epPlay kind onColor offColor t0 t1 hold repeatCount delay) s = .next (s.answered .invalidArgument [])

/-- EP_PLAY where allocation may fail (60_exceptions.md R216): on a true draw, whichever draws are true, the old effect
is cancelled, the player is IDLE with no descriptor, nothing is written and the answer is RESOURCE_EXHAUSTED; on a
false draw the command does what it does where allocation cannot fail. The counter of the draws is the model's (log 4). -/
def Obligations.EpPlayFailsToAllocate : Prop :=
  ∀ (s : State) (kind : Byte) (onColor offColor : Color) (t0 t1 hold repeatCount delay : Word32),
    s.par.allocMayFail = true → (kind = 1 ∨ kind = 2) →
    let play := Instr.epPlay kind onColor offColor t0 t1 hold repeatCount delay
    ∃ t, exec play s = .next t
      ∧ (Config.allocFails s.draws = true →
          t = { s with ep := EffectPlayer.atReset, draws := s.draws + 1, resp := some ⟨.resourceExhausted, []⟩ })
      ∧ (Config.allocFails s.draws = false →
          ∃ u, exec play { s with par := { s.par with allocMayFail := false } } = .next u
            ∧ t = { u with par := s.par, draws := s.draws + 1 })

/-- EP_STOP leaves the player IDLE with no descriptor and every count 0, writes no color, and answers OK, on a running
and on an idle player alike (41_effect_player.md R132, R130). -/
def Obligations.EpStopFinishesTheEffect : Prop :=
  ∀ s : State, exec .epStop s
    = .next { s with
        ep := ⟨false, ⟨.none, ⟨0, 0, 0⟩, ⟨0, 0, 0⟩, 0, 0, 0, 0, 0⟩, .idle, 0, 0, ⟨false, 0⟩⟩
        resp := some ⟨.ok, []⟩ }

/-- EP_QUERY answers the phase and kind codes, the remaining and elapsed counts and the timer, little-endian, and in
IDLE 15 zero bytes; it changes nothing (41_effect_player.md R150, 10_state.md R26). -/
def Obligations.EpQueryReportsThePlayer : Prop :=
  ∀ s : State, ∃ payload, exec .epQuery s = .next (s.answered .ok payload)
    ∧ payload.take 2
        = [match s.ep.phase with
            | .idle => 0 | .strobeOn => 1 | .strobeOff => 2 | .fadeIn => 3 | .fadeHold => 4 | .fadeOut => 5 | .delay => 6,
           match s.ep.desc.kind with | .none => 0 | .strobe => 1 | .fade => 2]
    ∧ le32 payload 2 = s.ep.remaining ∧ le32 payload 6 = s.ep.elapsed
    ∧ payload.getD 10 0 = (if s.ep.timer.armed then 1 else 0) ∧ le32 payload 11 = s.ep.timer.count
    ∧ payload.length = 15
    ∧ (EffectInv s.ep → s.ep.phase = .idle → payload = List.replicate 15 0)

/-! ### Effect player: interpolation and expiry -/

/-- `interp` (41_effect_player.md R121): the clamp at and past `t`, the exact floor quotient before it, which always
lies between the two ends, so that the 8-bit channel loses nothing. -/
def Obligations.InterpolationIsExactAndBetweenItsEnds : Prop :=
  ∀ (start finish : Byte) (e t : Nat), 0 < t →
    (t ≤ e → interp start finish e t = finish)
    ∧ (e < t → (interp start finish e t).toNat = (start.toNat * (t - e) + finish.toNat * e) / t)
    ∧ min start.toNat finish.toNat ≤ (interp start finish e t).toNat
    ∧ (interp start finish e t).toNat ≤ max start.toNat finish.toNat

/-- The strobe's expiries (41_effect_player.md R124, R125, R140): STROBE_ON writes `off` and waits `duration_off_ms`, or
finishes when the last of a finite number of toggles is done; STROBE_OFF writes `on` and waits `duration_on_ms`. -/
def Obligations.StrobeExpiryToggles : Prop :=
  ∀ (s : State) (rest : List Event) (d : Descriptor) (remaining : Word32),
    s.inbox = .tick :: rest → s.sq.timer.expires = false →
    (s.ep = EffectPlayer.running d .strobeOn remaining 0 1 →
      (d.repeatCount = 0 →
        step s = .next (s.afterEffectTick rest
          (EffectPlayer.running d .strobeOff remaining 0 (waitOf s.par d.t1.toNat)) [.sink d.offColor]))
      ∧ (d.repeatCount ≠ 0 → remaining = 1 →
        step s = .next (s.afterEffectTick rest EffectPlayer.atReset [.sink d.offColor]))
      ∧ (d.repeatCount ≠ 0 → remaining ≠ 1 →
        step s = .next (s.afterEffectTick rest
          (EffectPlayer.running d .strobeOff (remaining - 1) 0 (waitOf s.par d.t1.toNat)) [.sink d.offColor])))
    ∧ (s.ep = EffectPlayer.running d .strobeOff remaining 0 1 →
      step s = .next (s.afterEffectTick rest
        (EffectPlayer.running d .strobeOn remaining 0 (waitOf s.par d.t0.toNat)) [.sink d.onColor]))

/-- The end of the start delay (41_effect_player.md R123, R140): a strobe writes `on` and enters STROBE_ON; a fade
writes `on` and enters FADE_IN, or FADE_HOLD after `off` with `fade_in_ms` 0. -/
def Obligations.DelayExpiryEntersTheFirstPhase : Prop :=
  ∀ (s : State) (rest : List Event) (d : Descriptor) (remaining : Word32),
    s.inbox = .tick :: rest → s.sq.timer.expires = false → s.ep = EffectPlayer.running d .delay remaining 0 1 →
    (d.kind = .strobe →
      step s = .next (s.afterEffectTick rest
        (EffectPlayer.running d .strobeOn remaining 0 (waitOf s.par d.t0.toNat)) [.sink d.onColor]))
    ∧ (d.kind = .fade →
      step s = .next (s.afterEffectTick rest (fadeEntered s.par d remaining).1
        (.sink d.onColor :: (fadeEntered s.par d remaining).2)))

/-- One interpolation tick of FADE_IN (41_effect_player.md R141): below `fade_in_ms` the interpolated color and 20 ms
more; at or past it `off`, and FADE_HOLD for `hold_ms`, or `MIN_TIMER_MS` for 0. The sum `ep_elapsed + 20` does not
wrap. -/
def Obligations.FadeInTickInterpolatesOrHolds : Prop :=
  ∀ (s : State) (rest : List Event) (d : Descriptor) (remaining elapsed : Word32),
    s.inbox = .tick :: rest → s.sq.timer.expires = false →
    s.ep = EffectPlayer.running d .fadeIn remaining elapsed 1 →
    (elapsed.toNat + 20 < d.t0.toNat →
      step s = .next (s.afterEffectTick rest (EffectPlayer.running d .fadeIn remaining (elapsed + 20) 20)
        [.sink (interpColor d.onColor d.offColor (elapsed.toNat + 20) d.t0.toNat)])
      ∧ (elapsed + 20).toNat = elapsed.toNat + 20)
    ∧ (d.t0.toNat ≤ elapsed.toNat + 20 →
      step s = .next (s.afterEffectTick rest
        (EffectPlayer.running d .fadeHold remaining 0 (waitOf s.par d.hold.toNat)) [.sink d.offColor]))

/-- The end of FADE_HOLD (41_effect_player.md R128, R129): FADE_OUT waits its first 20 ms and nothing is written; with
`fade_out_ms` 0, `on` is written and the cycle is complete. -/
def Obligations.FadeHoldExpiryEntersFadeOut : Prop :=
  ∀ (s : State) (rest : List Event) (d : Descriptor) (remaining : Word32),
    s.inbox = .tick :: rest → s.sq.timer.expires = false → s.ep = EffectPlayer.running d .fadeHold remaining 0 1 →
    (d.t1 ≠ 0 → step s = .next (s.afterEffectTick rest (EffectPlayer.running d .fadeOut remaining 0 20) []))
    ∧ (d.t1 = 0 →
      step s = .next (s.afterEffectTick rest (cycleEnded s.par d remaining).1
        (.sink d.onColor :: (cycleEnded s.par d remaining).2)))

/-- One interpolation tick of FADE_OUT (41_effect_player.md R142, R129): below `fade_out_ms` the interpolated color and
20 ms more; at or past it `on`, and the cycle is complete. -/
def Obligations.FadeOutTickInterpolatesOrCompletes : Prop :=
  ∀ (s : State) (rest : List Event) (d : Descriptor) (remaining elapsed : Word32),
    s.inbox = .tick :: rest → s.sq.timer.expires = false →
    s.ep = EffectPlayer.running d .fadeOut remaining elapsed 1 →
    (elapsed.toNat + 20 < d.t1.toNat →
      step s = .next (s.afterEffectTick rest (EffectPlayer.running d .fadeOut remaining (elapsed + 20) 20)
        [.sink (interpColor d.offColor d.onColor (elapsed.toNat + 20) d.t1.toNat)])
      ∧ (elapsed + 20).toNat = elapsed.toNat + 20)
    ∧ (d.t1.toNat ≤ elapsed.toNat + 20 →
      step s = .next (s.afterEffectTick rest (cycleEnded s.par d remaining).1
        (.sink d.onColor :: (cycleEnded s.par d remaining).2)))

/-! ### Effect player: runs -/

/-- A strobe with `repeat = n >= 1` and no delay writes exactly `on, off` `n` times and is IDLE, its timer disarmed,
`n*t0' + (n-1)*t1'` `TICK`s after its EP_PLAY (41_effect_player.md R143). -/
def Obligations.FiniteStrobeRunsItsToggles : Prop :=
  ∀ (s : State) (onColor offColor : Color) (t0 t1 hold repeatCount : Word32),
    s.Inv → s.sq.active = false → s.par.allocMayFail = false → repeatCount ≠ 0 →
    let n := repeatCount.toNat
    let ticks := n * waitOf s.par t0.toNat + (n - 1) * waitOf s.par t1.toNat
    s.inbox = commandThenTicks (.epPlay 1 onColor offColor t0 t1 hold repeatCount 0) ticks →
    ∃ t obs, run (1 + ticks) s = some (t, obs)
      ∧ outputsOf obs = (List.replicate n [Output.sink onColor, Output.sink offColor]).flatten
      ∧ t.ep = EffectPlayer.atReset ∧ t.sq = s.sq ∧ t.pal = s.pal

/-- A fade with `repeat = n >= 1` and no delay is IDLE `n` cycle lengths `L(t0) + hold' + L(t1)` after its EP_PLAY, with
`on` written last; it wrote `on`, and in each cycle the interpolated colors at 20, 40, ..., `off`, the interpolated
colors back, and `on` (41_effect_player.md R145, R141, R142). -/
def Obligations.FiniteFadeRunsItsCycles : Prop :=
  ∀ (s : State) (onColor offColor : Color) (t0 t1 hold repeatCount : Word32),
    s.Inv → s.sq.active = false → s.par.allocMayFail = false → repeatCount ≠ 0 →
    let n := repeatCount.toNat
    let ticks := n * (fadeTicks t0.toNat + waitOf s.par hold.toNat + fadeTicks t1.toNat)
    s.inbox = commandThenTicks (.epPlay 2 onColor offColor t0 t1 hold repeatCount 0) ticks →
    ∃ t obs, run (1 + ticks) s = some (t, obs)
      ∧ outputsOf obs
          = Output.sink onColor
            :: (List.replicate n
                  (fadeCycleOutputs ⟨.fade, onColor, offColor, t0, t1, hold, repeatCount, 0⟩)).flatten
      ∧ t.ep = EffectPlayer.atReset ∧ t.sq = s.sq ∧ t.pal = s.pal

/-- With a start delay an effect writes nothing before the `delay`-th `TICK` after its EP_PLAY; in that `TICK` it writes
what it writes at once with no delay, and stands where it then stands, the stepper, the palette and the role as they
were (41_effect_player.md R146). -/
def Obligations.StartDelayPostponesTheEffect : Prop :=
  ∀ (s : State) (kind : Byte) (onColor offColor : Color) (t0 t1 hold repeatCount delay : Word32),
    s.Inv → s.sq.active = false → s.par.allocMayFail = false → (kind = 1 ∨ kind = 2) → delay ≠ 0 → s.out = [] →
    s.inbox = commandThenTicks (.epPlay kind onColor offColor t0 t1 hold repeatCount delay) delay.toNat →
    (∃ t obs, run delay.toNat s = some (t, obs) ∧ outputsOf obs = [] ∧ t.ep.phase = .delay)
    ∧ ∃ t obs u, run (1 + delay.toNat) s = some (t, obs)
        ∧ exec (.epPlay kind onColor offColor t0 t1 hold repeatCount 0) s = .next u
        ∧ outputsOf obs = u.out ∧ t.ep = { u.ep with desc := { u.ep.desc with delay := delay } }
        ∧ t.sq = s.sq ∧ t.pal = s.pal ∧ t.isRoot = s.isRoot ∧ t.par = s.par

/-- After EP_STOP no expiry of the earlier effect occurs: with the stepper stopped, any number of `TICK`s writes nothing
and leaves the player IDLE (41_effect_player.md R132, R147). -/
def Obligations.NothingIsWrittenAfterEpStop : Prop :=
  ∀ (n : Nat) (s : State),
    s.Inv → s.sq.active = false → s.inbox = commandThenTicks .epStop n →
    ∃ t obs, run (1 + n) s = some (t, obs) ∧ outputsOf obs = [] ∧ t.ep = EffectPlayer.atReset ∧ t.sq = s.sq

/-! ### Palette -/

/-- PAL_SET replaces all 384 bytes by its buffer, byte `j` by byte `j`, and changes nothing else (40_palette.md R104,
20_memory.md R55, R59). -/
def Obligations.PalSetReplacesThePalette : Prop :=
  ∀ (s : State) (buffer : List Byte), buffer.length = 384 →
    ∃ m, exec (.palSet buffer) s = .next { s with pal := m, resp := some ⟨.ok, []⟩ }
      ∧ m.wf = true ∧ ∀ a, a < 384 → m.read a = buffer.getD a 0

/-- PAL_GET (40_palette.md R105, 20_memory.md R51): for an index up to 255 the square's nibbles and their display
channels, read from its group's bytes; above 255 INVALID_ARGUMENT. The palette and all else stay. -/
def Obligations.PalGetReadsTheSquare : Prop :=
  ∀ (s : State) (index : Word16),
    (index.toNat ≤ 255 →
      let at' := fun k : Nat => (s.pal.read (3 * (index.toNat / 2) + k)).toNat
      exec (.palGet index) s
        = .next (s.answered .ok
            (if index.toNat % 2 = 0 then squareAnswer (at' 0 / 16) (at' 0 % 16) (at' 1 / 16)
             else squareAnswer (at' 1 % 16) (at' 2 / 16) (at' 2 % 16))))
    ∧ (255 < index.toNat → exec (.palGet index) s = .next (s.answered .invalidArgument []))

/-- PAL_PACK_PAIR packs six nibbles into three bytes, and refuses an operand above 15 (40_palette.md R106, R102). -/
def Obligations.PalPackPairPacksNibbles : Prop :=
  ∀ (s : State) (er eg eb or' og ob : Byte),
    ((∀ x ∈ [er, eg, eb, or', og, ob], x.toNat ≤ 15) →
      exec (.palPackPair er eg eb or' og ob) s
        = .next (s.answered .ok [er * 16 + eg, eb * 16 + or', og * 16 + ob]))
    ∧ ((∃ x ∈ [er, eg, eb, or', og, ob], 15 < x.toNat) →
      exec (.palPackPair er eg eb or' og ob) s = .next (s.answered .invalidArgument []))

/-- PAL_UNPACK_PAIR answers the six nibbles of three bytes (40_palette.md R107). -/
def Obligations.PalUnpackPairSplitsBytes : Prop :=
  ∀ (s : State) (b0 b1 b2 : Byte),
    exec (.palUnpackPair b0 b1 b2) s
      = .next (s.answered .ok
          (([b0, b1, b2].flatMap fun b => [b.toNat / 16, b.toNat % 16]).map (BitVec.ofNat 8)))

/-- PAL_TO_DISPLAY multiplies each nibble by 16, and refuses an operand above 15 (40_palette.md R108, R101). -/
def Obligations.PalToDisplayScalesNibbles : Prop :=
  ∀ (s : State) (r g b : Byte),
    ((∀ x ∈ [r, g, b], x.toNat ≤ 15) →
      exec (.palToDisplay r g b) s = .next (s.answered .ok [16 * r, 16 * g, 16 * b]))
    ∧ ((∃ x ∈ [r, g, b], 15 < x.toNat) →
      exec (.palToDisplay r g b) s = .next (s.answered .invalidArgument []))

/-- PAL_QUANTIZE answers the high nibble of each channel (40_palette.md R109, R103). -/
def Obligations.PalQuantizeTakesHighNibbles : Prop :=
  ∀ (s : State) (r g b : Byte),
    exec (.palQuantize r g b) s = .next (s.answered .ok [r / 16, g / 16, b / 16])

/-- The round-trip law (40_palette.md R110): a palette write that places `pack_pair(E, O)` at the group `k` makes its
squares `E` and `O`, and packing the two squares of any group gives its three bytes. -/
def Obligations.PackingAndReadingSquaresRoundTrip : Prop :=
  (∀ (buffer : List Byte) (k : Nat) (e o : PackedColor), k < 128 → buffer.length = 384 →
    (buffer.drop (3 * k)).take 3 = packPair e o →
    square (Memory.load buffer) (BitVec.ofNat 8 (2 * k)) = e
      ∧ square (Memory.load buffer) (BitVec.ofNat 8 (2 * k + 1)) = o)
  ∧ (∀ (m : Memory) (k : Nat), k < 128 →
    packPair (square m (BitVec.ofNat 8 (2 * k))) (square m (BitVec.ofNat 8 (2 * k + 1)))
      = [m.read (3 * k), m.read (3 * k + 1), m.read (3 * k + 2)])

/-- Quantizing a display color gives the packed color back, and displaying a quantized color clears the low nibble of
each channel (40_palette.md R112). -/
def Obligations.QuantizeInvertsDisplay : Prop :=
  (∀ p : PackedColor, quantize (toDisplay p) = p)
  ∧ ∀ c : Color, toDisplay (quantize c) = ⟨c.r - c.r % 16, c.g - c.g % 16, c.b - c.b % 16⟩

/-- Every color a sequence step writes is one of the palette path: each channel is a multiple of 16, and so none is 255
(40_palette.md R111), whatever the stepper's state; a `TICK` in which the effect timer does not expire writes no other
color, and one in which it does writes no other color but those of the effect's own rule. -/
def Obligations.StepperColorsAreMultiplesOfSixteen : Prop :=
  (∀ (p : Params) (pal : Memory) (q : Sequencer) (c : Color), Output.sink c ∈ (seqStep p pal q).2 →
    c.r.toNat % 16 = 0 ∧ c.g.toNat % 16 = 0 ∧ c.b.toNat % 16 = 0)
  ∧ (∀ (s t : State) (rest : List Event) (c : Color),
    s.ep.timer.expires = false → s.inbox = .tick :: rest → step s = .next t → Output.sink c ∈ t.out →
    c.r.toNat % 16 = 0 ∧ c.g.toNat % 16 = 0 ∧ c.b.toNat % 16 = 0)
  ∧ ∀ (s t : State) (rest : List Event) (r : EffectPlayer × List Output) (c : Color),
    s.ep.timer.expires = true → s.inbox = .tick :: rest → step s = .next t →
    effectExpiry s.par { s.ep with timer := ⟨false, 0⟩ } = some r → Output.sink c ∈ t.out → Output.sink c ∉ r.2 →
    c.r.toNat % 16 = 0 ∧ c.g.toNat % 16 = 0 ∧ c.b.toNat % 16 = 0

/-! ### Sequence stepper -/

/-- SQ_STORE on a root with a rhythm of 1 to 255 (42_sequence.md R163): rhythm and palette replaced, pointer 0, active, a
full period armed, SEQUENCE emitted. -/
def Obligations.SqStoreLoadsAndRestarts : Prop :=
  ∀ (s : State) (rhythm : Byte) (buffer : List Byte),
    s.isRoot = true → s.par.allocMayFail = false → rhythm ≠ 0 → buffer.length = 384 →
    ∃ m, exec (.sqStore rhythm buffer) s
        = .next { s with
            sq := ⟨rhythm, 0, true, ⟨true, BitVec.ofNat 16 (rhythm.toNat * 10)⟩⟩
            pal := m
            out := s.out ++ [.msg (s.par.idSequence :: rhythm :: buffer)]
            resp := some ⟨.ok, []⟩ }
      ∧ m.wf = true ∧ ∀ a, a < 384 → m.read a = buffer.getD a 0

/-- SQ_START on a root (42_sequence.md R164): pointer 0, active, a full period of the stored rhythm armed, START
emitted. -/
def Obligations.SqStartRestarts : Prop :=
  ∀ s : State, s.isRoot = true → s.par.allocMayFail = false → s.sq.rhythm ≠ 0 →
    exec .sqStart s
      = .next { s with
          sq := ⟨s.sq.rhythm, 0, true, ⟨true, BitVec.ofNat 16 (s.sq.rhythm.toNat * 10)⟩⟩
          out := s.out ++ [.msg [s.par.idStart]]
          resp := some ⟨.ok, []⟩ }

/-- SQ_STOP (42_sequence.md R165): on a root the timer is disarmed and the stepper stopped, the pointer, rhythm and
palette kept, STOP emitted and OK answered, on a stopped stepper too; on a child WRONG_ROLE. -/
def Obligations.SqStopStops : Prop :=
  ∀ s : State,
    (s.isRoot = true →
      exec .sqStop s
        = .next { s with
            sq := ⟨s.sq.rhythm, s.sq.pointer, false, ⟨false, 0⟩⟩
            out := s.out ++ [.msg [s.par.idStop]]
            resp := some ⟨.ok, []⟩ })
    ∧ (s.isRoot = false → exec .sqStop s = .next (s.answered .wrongRole []))

/-- SQ_RESET on a root (42_sequence.md R166): pointer 0; an active stepper restarts its period, a stopped one stays
stopped and draws nothing; RESET emitted. -/
def Obligations.SqResetReturnsToSquareZero : Prop :=
  ∀ s : State, s.isRoot = true → (s.par.allocMayFail = false ∨ s.sq.active = false) → s.sq.rhythm ≠ 0 →
    exec .sqReset s
      = .next { s with
          sq :=
            if s.sq.active then
              ⟨s.sq.rhythm, 0, true, ⟨true, BitVec.ofNat 16 (s.sq.rhythm.toNat * 10)⟩⟩
            else ⟨s.sq.rhythm, 0, false, s.sq.timer⟩
          out := s.out ++ [.msg [s.par.idReset]]
          resp := some ⟨.ok, []⟩ }

/-- SQ_QUERY answers the rhythm, the pointer, the active flag, the timer count and the role, on either role, and
changes nothing (42_sequence.md R172). -/
def Obligations.SqQueryReportsTheStepper : Prop :=
  ∀ s : State, ∃ lo' hi' : Byte,
    exec .sqQuery s
      = .next (s.answered .ok
          [s.sq.rhythm, s.sq.pointer, if s.sq.active then 1 else 0, lo', hi', if s.isRoot then 1 else 0])
    ∧ lo'.toNat + 256 * hi'.toNat = s.sq.timer.count.toNat

/-- On a child, SQ_STORE, whatever its operands, SQ_START, SQ_STOP and SQ_RESET answer WRONG_ROLE and change nothing
(60_exceptions.md R223, 42_sequence.md R160; the order of checks is R213's). -/
def Obligations.ChildrenAreRefusedTheStepper : Prop :=
  ∀ (s : State) (rhythm : Byte) (buffer : List Byte), s.isRoot = false →
    ∀ i ∈ [Instr.sqStore rhythm buffer, .sqStart, .sqStop, .sqReset], exec i s = .next (s.answered .wrongRole [])

/-- SQ_STORE of rhythm 0 on a root answers INVALID_ARGUMENT; where allocation may fail, SQ_STORE, SQ_START and an active
SQ_RESET answer RESOURCE_EXHAUSTED on a true draw, whichever draws are true, with all of `S` as it was and no message,
and on a false draw do what they do where allocation cannot fail (42_sequence.md R163, 60_exceptions.md R216). The
counter of the draws is the model's (log 4). -/
def Obligations.StepperRefusalsKeepItsState : Prop :=
  ∀ (s : State) (rhythm : Byte) (buffer : List Byte), s.isRoot = true →
    exec (.sqStore 0 buffer) s = .next (s.answered .invalidArgument [])
    ∧ (s.par.allocMayFail = true →
        ∀ i, (i = .sqStore rhythm buffer ∧ rhythm ≠ 0 ∨ i = .sqStart ∨ i = .sqReset ∧ s.sq.active = true) →
          ∃ t, exec i s = .next t
            ∧ (Config.allocFails s.draws = true →
                t = { s with draws := s.draws + 1, resp := some ⟨.resourceExhausted, []⟩ })
            ∧ (Config.allocFails s.draws = false →
                ∃ u, exec i { s with par := { s.par with allocMayFail := false } } = .next u
                  ∧ t = { u with par := s.par, draws := s.draws + 1 }))

/-- A sequence step (42_sequence.md R162, R168): the square at the pointer is written in display color, the pointer goes
up by one modulo 256, a BEAT with the advanced pointer follows at a row boundary, and a full period is armed. -/
def Obligations.SequenceExpiryStepsThePalette : Prop :=
  ∀ (s : State) (rest : List Event),
    s.inbox = .tick :: rest → s.sq.timer = ⟨true, 1⟩ → s.ep.timer.expires = false → s.sq.rhythm ≠ 0 →
    let next := BitVec.ofNat 8 ((s.sq.pointer.toNat + 1) % 256)
    step s
      = .next { s with
          ep := { s.ep with timer := s.ep.timer.countDown }
          sq := { s.sq with pointer := next, timer := ⟨true, BitVec.ofNat 16 (s.sq.rhythm.toNat * 10)⟩ }
          inbox := rest
          out := .sink (toDisplay (square s.pal s.sq.pointer))
            :: (if next.toNat % 16 = 0 then [.msg [s.par.idBeat, next]] else [])
          resp := none }

/-- From pointer 0 with a full period armed, and the player IDLE, `k` periods of `TICK`s write squares 0, 1, ... modulo
256 once each in order, with a BEAT carrying the advanced pointer after every 16th, and leave the pointer at `k mod 256`
with a full period armed (42_sequence.md R169, R170). -/
def Obligations.SequenceRunsThroughThePalette : Prop :=
  ∀ (k : Nat) (s : State) (rest : List Event),
    s.Inv → s.ep.phase = .idle → s.sq.active = true → s.sq.pointer = 0 →
    s.sq.timer.count.toNat = s.sq.rhythm.toNat * 10 →
    s.inbox = List.replicate (k * (s.sq.rhythm.toNat * 10)) .tick ++ rest →
    ∃ t obs, run (k * (s.sq.rhythm.toNat * 10)) s = some (t, obs)
      ∧ outputsOf obs = sequenceOutputs s.par s.pal k
      ∧ t.sq = { s.sq with pointer := BitVec.ofNat 8 k } ∧ t.ep = s.ep ∧ t.pal = s.pal ∧ t.inbox = rest

/-! ### Timers -/

/-- A timer armed with the count `c` is still armed, `k` lower, after `k < c` `TICK`s, and expires in the `c`-th and in
no earlier one, which leaves it disarmed (60_exceptions.md R219, R220). -/
def Obligations.TimerExpiresInItsCountsTick : Prop :=
  ∀ (width c k : Nat), 0 < c → c < 2 ^ width → k < c →
    let t : Timer width := Timer.countDown^[k] ⟨true, BitVec.ofNat width c⟩
    t = ⟨true, BitVec.ofNat width (c - k)⟩ ∧ (t.expires = true ↔ k + 1 = c)
      ∧ (k + 1 = c → t.countDown = ⟨false, 0⟩)

/-- A `TICK` with no expiry changes only the counts, emits nothing and answers nothing (60_exceptions.md R220). -/
def Obligations.TickWithoutExpiryOnlyCounts : Prop :=
  ∀ (s : State) (rest : List Event),
    s.inbox = .tick :: rest →
    ¬ (s.ep.timer.armed = true ∧ s.ep.timer.count = 1) → ¬ (s.sq.timer.armed = true ∧ s.sq.timer.count = 1) →
    step s
      = .next { s with
          ep := if s.ep.timer.armed then { s.ep with timer := ⟨true, s.ep.timer.count - 1⟩ } else s.ep
          sq := if s.sq.timer.armed then { s.sq with timer := ⟨true, s.sq.timer.count - 1⟩ } else s.sq
          inbox := rest
          out := []
          resp := none }

/-- Simultaneous expiry (60_exceptions.md R222): both rules run, each on its own engine as if alone, and the outputs of
the two follow each other in the order of the free choice, whichever it is. -/
def Obligations.SimultaneousExpiriesRunBothRules : Prop :=
  ∀ (s : State) (rest : List Event),
    s.inbox = .tick :: rest → s.ep.timer = ⟨true, 1⟩ → s.sq.timer = ⟨true, 1⟩ → s.ep.phase ≠ .idle →
    ∃ t r, step s = .next t
      ∧ effectExpiry s.par { s.ep with timer := ⟨false, 0⟩ } = some r
      ∧ t.ep = r.1
      ∧ t.sq = (seqStep s.par s.pal { s.sq with timer := ⟨false, 0⟩ }).1
      ∧ t.pal = s.pal ∧ t.isRoot = s.isRoot ∧ t.inbox = rest ∧ t.resp = none
      ∧ t.out
          = (if Config.sequenceFirst s.draws then
              (seqStep s.par s.pal { s.sq with timer := ⟨false, 0⟩ }).2 ++ r.2
             else r.2 ++ (seqStep s.par s.pal { s.sq with timer := ⟨false, 0⟩ }).2)

/-! ### Codec -/

/-- The encoder commands answer the messages of 30_encoding.md R80 to R83 and change nothing; MSG_ENC_SEQUENCE refuses
rhythm 0 (43_codec.md R190 to R196). -/
def Obligations.EncodersAnswerTheirMessages : Prop :=
  ∀ (s : State) (rhythm pointer r g b : Byte) (buffer : List Byte),
    (rhythm ≠ 0 → exec (.msgEncSequence rhythm buffer) s = .next (s.answered .ok (s.par.idSequence :: rhythm :: buffer)))
    ∧ exec (.msgEncSequence 0 buffer) s = .next (s.answered .invalidArgument [])
    ∧ exec (.msgEncBeat pointer) s = .next (s.answered .ok [s.par.idBeat, pointer])
    ∧ exec .msgEncStart s = .next (s.answered .ok [s.par.idStart])
    ∧ exec .msgEncStop s = .next (s.answered .ok [s.par.idStop])
    ∧ exec .msgEncReset s = .next (s.answered .ok [s.par.idReset])
    ∧ exec (.msgEncSetcolor r g b) s = .next (s.answered .ok [s.par.idSetcolor, r, g, b])

/-- MSG_DECODE (43_codec.md R197, R198): each of the six messages at its exact length is answered with its kind code and
fields, a message of another length or an empty one is MALFORMED, a SEQUENCE of rhythm 0 INVALID_ARGUMENT, any other
first byte UNKNOWN_MESSAGE, and nothing changes. -/
def Obligations.MsgDecodeRecognisesTheMessages : Prop :=
  ∀ (s : State) (m : List Byte), s.par.ids.Nodup →
    ∃ st payload, exec (.msgDecode m) s = .next (s.answered st payload)
      ∧ (m = [] → (st, payload) = (.malformed, []))
      ∧ (m.head? = some s.par.idSequence →
          (m.length ≠ 386 → (st, payload) = (.malformed, []))
          ∧ (m.length = 386 → m.getD 1 0 = 0 → (st, payload) = (.invalidArgument, []))
          ∧ (m.length = 386 → m.getD 1 0 ≠ 0 → (st, payload) = (.ok, 0 :: m.drop 1)))
      ∧ (m.head? = some s.par.idBeat →
          (st, payload) = if m.length = 2 then (.ok, 1 :: m.drop 1) else (.malformed, []))
      ∧ (m.head? = some s.par.idStart → (st, payload) = if m.length = 1 then (.ok, [2]) else (.malformed, []))
      ∧ (m.head? = some s.par.idStop → (st, payload) = if m.length = 1 then (.ok, [3]) else (.malformed, []))
      ∧ (m.head? = some s.par.idReset → (st, payload) = if m.length = 1 then (.ok, [4]) else (.malformed, []))
      ∧ (m.head? = some s.par.idSetcolor →
          (st, payload) = if m.length = 4 then (.ok, 5 :: m.drop 1) else (.malformed, []))
      ∧ (∀ id, m.head? = some id → id ∉ s.par.ids → (st, payload) = (.unknownMessage, []))

/-- The codec's round trip (43_codec.md R199): decoding what the encoders produce gives the kind and the operands back,
and a message that decodes to a kind and fields is what encoding that kind with those fields produces. -/
def Obligations.CodecRoundTrips : Prop :=
  ∀ p : Params, p.ids.Nodup →
    (∀ (rhythm : Byte) (buffer : List Byte), rhythm ≠ 0 → buffer.length = 384 →
      decodeMessage p (encSequence p rhythm buffer) = (.ok, 0 :: rhythm :: buffer))
    ∧ (∀ pointer, decodeMessage p (encBeat p pointer) = (.ok, [1, pointer]))
    ∧ decodeMessage p (encStart p) = (.ok, [2])
    ∧ decodeMessage p (encStop p) = (.ok, [3])
    ∧ decodeMessage p (encReset p) = (.ok, [4])
    ∧ (∀ c : Color, decodeMessage p (encSetcolor p c) = (.ok, [5, c.r, c.g, c.b]))
    ∧ ∀ (m : List Byte) (kind : Byte) (fields : List Byte), decodeMessage p m = (.ok, kind :: fields) →
        (kind = 0 ∧ ∃ rhythm buffer, fields = rhythm :: buffer ∧ encSequence p rhythm buffer = m)
        ∨ (kind = 1 ∧ ∃ pointer, fields = [pointer] ∧ encBeat p pointer = m)
        ∨ (kind = 2 ∧ fields = [] ∧ encStart p = m)
        ∨ (kind = 3 ∧ fields = [] ∧ encStop p = m)
        ∨ (kind = 4 ∧ fields = [] ∧ encReset p = m)
        ∨ (kind = 5 ∧ ∃ c : Color, fields = [c.r, c.g, c.b] ∧ encSetcolor p c = m)
end

