-- ==== Sys2Proof/Laws/Operands.lean ====
section
/-! SUPPORT. The little-endian number forms are inverse to each other, and what reading a frame's bytes gives. -/

namespace Sys2Proof

/-! ### The named literals -/

@[simp] theorem Config.paletteBytes_eq : Config.paletteBytes = 384 := rfl

@[simp] theorem Config.paletteSquares_eq : Config.paletteSquares = 256 := rfl

@[simp] theorem Config.groupBytes_eq : Config.groupBytes = 3 := rfl

@[simp] theorem Config.interpTickMs_eq : Config.interpTickMs = 20 := rfl

@[simp] theorem Config.rhythmUnitMs_eq : Config.rhythmUnitMs = 10 := rfl

@[simp] theorem Config.rowLength_eq : Config.rowLength = 16 := rfl

@[simp] theorem Config.displayScale_eq : Config.displayScale = 16 := rfl

@[simp] theorem Config.rhythmMin_eq : Config.rhythmMin = 1 := rfl

@[simp] theorem Config.rhythmMax_eq : Config.rhythmMax = 255 := rfl

@[simp] theorem Config.sequenceMessageBytes_eq : Config.sequenceMessageBytes = 386 := rfl

@[simp] theorem Config.beatMessageBytes_eq : Config.beatMessageBytes = 2 := rfl

@[simp] theorem Config.controlMessageBytes_eq : Config.controlMessageBytes = 1 := rfl

@[simp] theorem Config.setcolorMessageBytes_eq : Config.setcolorMessageBytes = 4 := rfl

/-! ### Frames -/

@[simp] theorem byteAt_zero (b : Byte) (F : List Byte) : byteAt (b :: F) 0 = b := rfl

@[simp] theorem byteAt_succ (b : Byte) (F : List Byte) (i : Nat) : byteAt (b :: F) (i + 1) = byteAt F i := rfl

@[simp] theorem le16b_length (v : Word16) : (le16b v).length = 2 := rfl

@[simp] theorem le32b_length (v : Word32) : (le32b v).length = 4 := rfl

/-- Two bytes make one number below 2^16. -/
theorem le16_toNat (F : List Byte) (i : Nat) :
    (le16 F i).toNat = (byteAt F i).toNat + 2 ^ 8 * (byteAt F (i + 1)).toNat := by
  have h0 := (byteAt F i).isLt
  have h1 := (byteAt F (i + 1)).isLt
  simp only [le16, BitVec.toNat_ofNat]
  omega

/-- Four bytes make one number below 2^32. -/
theorem le32_toNat (F : List Byte) (i : Nat) :
    (le32 F i).toNat = (byteAt F i).toNat + 2 ^ 8 * (byteAt F (i + 1)).toNat
      + 2 ^ 16 * (byteAt F (i + 2)).toNat + 2 ^ 24 * (byteAt F (i + 3)).toNat := by
  have h0 := (byteAt F i).isLt
  have h1 := (byteAt F (i + 1)).isLt
  have h2 := (byteAt F (i + 2)).isLt
  have h3 := (byteAt F (i + 3)).isLt
  simp only [le32, BitVec.toNat_ofNat]
  omega

/-- A u16 written by `le16b` is read back by `le16`. -/
theorem le16_le16b (v : Word16) (F : List Byte) : le16 (le16b v ++ F) 0 = v := by
  apply BitVec.eq_of_toNat_eq
  have h := v.isLt
  simp only [le16_toNat, le16b, List.cons_append, List.nil_append, byteAt_zero, byteAt_succ, Nat.zero_add,
    BitVec.toNat_ofNat]
  omega

/-- A u32 written by `le32b` is read back by `le32`. -/
theorem le32_le32b (v : Word32) (F : List Byte) : le32 (le32b v ++ F) 0 = v := by
  apply BitVec.eq_of_toNat_eq
  have h := v.isLt
  have h1 : byteAt (le32b v ++ F) 1 = BitVec.ofNat 8 (v.toNat / 2 ^ 8) := rfl
  have h2 : byteAt (le32b v ++ F) 2 = BitVec.ofNat 8 (v.toNat / 2 ^ 16) := rfl
  have h3 : byteAt (le32b v ++ F) 3 = BitVec.ofNat 8 (v.toNat / 2 ^ 24) := rfl
  have h0 : byteAt (le32b v ++ F) 0 = BitVec.ofNat 8 v.toNat := rfl
  simp only [le32_toNat, Nat.zero_add, h0, h1, h2, h3, BitVec.toNat_ofNat]
  omega

/-- The two bytes of a number read from a frame are the frame's. -/
theorem le16b_le16 (F : List Byte) (i : Nat) : le16b (le16 F i) = [byteAt F i, byteAt F (i + 1)] := by
  have h0 := (byteAt F i).isLt
  have h1 := (byteAt F (i + 1)).isLt
  simp only [le16b, le16_toNat, List.cons.injEq, and_true]
  constructor <;> apply BitVec.eq_of_toNat_eq <;> simp only [BitVec.toNat_ofNat] <;> omega

/-- The four bytes of a number read from a frame are the frame's. -/
theorem le32b_le32 (F : List Byte) (i : Nat) :
    le32b (le32 F i) = [byteAt F i, byteAt F (i + 1), byteAt F (i + 2), byteAt F (i + 3)] := by
  have h0 := (byteAt F i).isLt
  have h1 := (byteAt F (i + 1)).isLt
  have h2 := (byteAt F (i + 2)).isLt
  have h3 := (byteAt F (i + 3)).isLt
  simp only [le32b, le32_toNat, List.cons.injEq, and_true]
  refine ⟨?_, ?_, ?_, ?_⟩ <;> apply BitVec.eq_of_toNat_eq <;> simp only [BitVec.toNat_ofNat] <;> omega

/-- The legal rhythms are the bytes other than 0. -/
theorem isRhythm_iff (b : Byte) : isRhythm b = true ↔ b ≠ 0 := by
  have h := b.isLt
  simp only [isRhythm, Bool.and_eq_true, decide_eq_true_eq, Config.rhythmMin, Config.rhythmMax]
  constructor
  · rintro ⟨h1, _⟩ rfl
    simp at h1
  · intro h0
    have hne : b.toNat ≠ 0 := fun h1 => h0 (BitVec.eq_of_toNat_eq (by simpa using h1))
    omega

theorem isRhythm_of_ne (b : Byte) (h : b ≠ 0) : isRhythm b = true := (isRhythm_iff b).2 h

@[simp] theorem isRhythm_zero : isRhythm 0 = false := rfl

theorem isNibble_iff (b : Byte) : isNibble b = true ↔ b.toNat ≤ 15 := by simp [isNibble]

@[simp] theorem hi_toNat (b : Byte) : (hi b).toNat = b.toNat / 16 := by
  have h := b.isLt
  simp only [hi, BitVec.extractLsb'_toNat, Nat.shiftRight_eq_div_pow]
  omega

@[simp] theorem lo_toNat (b : Byte) : (lo b).toNat = b.toNat % 16 := by
  simp [lo, BitVec.extractLsb'_toNat]

@[simp] theorem nibbleByte_toNat (n : Nibble) : (nibbleByte n).toNat = n.toNat := by
  have h := n.isLt
  simp only [nibbleByte, BitVec.toNat_setWidth]
  omega

theorem nibbleOf_toNat (b : Byte) (h : isNibble b = true) : (nibbleOf b).toNat = b.toNat := by
  have h' := (isNibble_iff b).1 h
  simp only [nibbleOf, BitVec.toNat_setWidth]
  omega

end Sys2Proof
end

