-- ==== Sys2Proof/Laws/Ops.lean ====
section
/-! SUPPORT. What each shared operation can do, once: timers, the palette RAM, the parameters. -/

namespace Sys2Proof.Machine

open Sys2Proof

/-! ### Timers -/

@[simp] theorem armTimer_armed {width : Nat} (p : Params) (n : Nat) :
    (armTimer p n : Timer width).armed = true := rfl

@[simp] theorem disarmed_armed {width : Nat} : (disarmed : Timer width).armed = false := rfl

@[simp] theorem disarmed_count {width : Nat} : (disarmed : Timer width).count = 0 := rfl

theorem timerLoad_pos (p : Params) (n : Nat) (h : 0 < n) : timerLoad p n = n := if_pos h

@[simp] theorem timerLoad_zero (p : Params) : timerLoad p 0 = p.minTimerMs := rfl

theorem timerLoad_eq_waitOf (p : Params) (n : Nat) : timerLoad p n = waitOf p n := by
  unfold timerLoad waitOf
  split <;> split <;> omega

/-- Arming the effect timer with a u32 loads that count exactly, or `MIN_TIMER_MS` for 0. -/
theorem armTimer_count_toNat (p : Params) (hp : ParamsLegal p) (n : Nat) (hn : n < 2 ^ 32) :
    (armTimer p n : Timer 32).count.toNat = timerLoad p n := by
  have hmin := hp.minTimer_fits
  simp only [armTimer, timerLoad, BitVec.toNat_ofNat]
  split <;> omega

/-- An armed effect timer never holds the count 0. -/
theorem armTimer_count_ne_zero (p : Params) (hp : ParamsLegal p) (n : Nat) (hn : n < 2 ^ 32) :
    (armTimer p n : Timer 32).count ≠ 0 := by
  intro h
  have h1 := armTimer_count_toNat p hp n hn
  have h2 := hp.minTimer_pos
  rw [h] at h1
  simp only [timerLoad] at h1
  split at h1 <;> simp at h1 <;> omega

/-- A timer expires exactly when it is armed with the count 1. -/
theorem expires_iff {width : Nat} (t : Timer width) :
    t.expires = true ↔ t.armed = true ∧ t.count = 1 := by
  simp only [Timer.expires, Bool.and_eq_true, beq_iff_eq, and_congr_right_iff]
  intro _
  constructor
  · intro h
    have h' := congrArg (· + 1) h
    simpa using h'
  · intro h
    simp [h]

@[simp] theorem countDown_disarmed {width : Nat} (t : Timer width) (h : t.armed = false) : t.countDown = t := by
  simp [Timer.countDown, h]

/-- An expiring timer is left disarmed with the count 0. -/
theorem countDown_expiring {width : Nat} (t : Timer width) (h : t.expires = true) : t.countDown = disarmed := by
  obtain ⟨ha, hc⟩ := (expires_iff t).1 h
  simp [Timer.countDown, ha, h, hc, disarmed]

/-- An armed timer that does not expire stays armed, one lower. -/
theorem countDown_running {width : Nat} (t : Timer width) (ha : t.armed = true) (h : t.expires = false) :
    t.countDown = ⟨true, t.count - 1⟩ := by
  simp [Timer.countDown, ha, h]

/-! ### The palette RAM -/

@[simp] theorem Memory.read_nil (a : Nat) : Memory.read [] a = 0 := rfl

/-- A canonical form from `k` on is one from any lower offset on. -/
theorem Memory.wfFrom_mono (m : Memory) (j k : Nat) (hjk : j ≤ k) (h : Memory.wfFrom k m = true) :
    Memory.wfFrom j m = true := by
  cases m with
  | nil => rfl
  | cons c rest =>
    obtain ⟨a, b⟩ := c
    simp only [Memory.wfFrom, Bool.and_eq_true, decide_eq_true_eq] at h ⊢
    exact ⟨⟨⟨by omega, h.1.1.2⟩, h.1.2⟩, h.2⟩

/-- The cells laid out from `k` are in canonical form from `k` on. -/
theorem cellsFrom_wf (bytes : List Byte) (k : Nat) (h : k + bytes.length ≤ 384) :
    Memory.wfFrom k (cellsFrom k bytes) = true := by
  induction bytes generalizing k with
  | nil => rfl
  | cons b rest ih =>
    simp only [List.length_cons] at h
    have htail := ih (k + 1) (by omega)
    simp only [cellsFrom]
    split
    · exact Memory.wfFrom_mono _ _ _ (Nat.le_succ k) htail
    · rename_i hb
      have hk : k < 384 := by omega
      simpa [Memory.wfFrom, hk, htail] using hb

/-- The whole-buffer write leaves the palette in its canonical form: every memory operation keeps it, since it is the
only one that writes. -/
theorem Memory.load_wf (buffer : List Byte) : (Memory.load buffer).wf = true := by
  apply cellsFrom_wf
  simp only [Nat.zero_add, List.length_take, Config.paletteBytes]
  omega

/-- Below the offset its form starts at, a palette lists nothing. -/
theorem Memory.read_below (m : Memory) (k a : Nat) (h : Memory.wfFrom k m = true) (ha : a < k) : m.read a = 0 := by
  induction m generalizing k with
  | nil => rfl
  | cons c rest ih =>
    obtain ⟨j, b⟩ := c
    simp only [Memory.wfFrom, Bool.and_eq_true, decide_eq_true_eq] at h
    have hne : j ≠ a := by omega
    simp only [Memory.read, hne, if_false]
    exact ih (j + 1) h.2 (by omega)

/-- Nothing is laid out below the first offset. -/
theorem read_cellsFrom_below (bytes : List Byte) (k a : Nat) (ha : a < k) : (cellsFrom k bytes).read a = 0 := by
  induction bytes generalizing k with
  | nil => rfl
  | cons b rest ih =>
    have htail := ih (k + 1) (by omega)
    have hne : k ≠ a := by omega
    simp only [cellsFrom]
    split
    · exact htail
    · simp only [Memory.read, hne, if_false, htail]

/-- Reading the cells laid out from `k`: byte `a - k` of the byte string, 0x00 past its end. -/
theorem read_cellsFrom (bytes : List Byte) (k a : Nat) (ha : k ≤ a) :
    (cellsFrom k bytes).read a = bytes.getD (a - k) 0 := by
  induction bytes generalizing k with
  | nil => simp [cellsFrom]
  | cons b rest ih =>
    simp only [cellsFrom]
    rcases Nat.eq_or_lt_of_le ha with rfl | hlt
    · split
      · rename_i hb
        simp [read_cellsFrom_below rest (k + 1) k (Nat.lt_succ_self k), hb]
      · simp [Memory.read]
    · have hsub : a - k = (a - (k + 1)) + 1 := by omega
      have hne : k ≠ a := by omega
      have htail := ih (k + 1) hlt
      split
      · rw [htail, hsub, List.getD_cons_succ]
      · simp only [Memory.read, hne, if_false, htail, hsub, List.getD_cons_succ]

/-- Read after the whole-buffer write: the buffer's byte (20_memory.md R55, R59). -/
theorem Memory.read_load (buffer : List Byte) (a : Nat) (ha : a < 384) :
    (Memory.load buffer).read a = buffer.getD a 0 := by
  rw [Memory.load, read_cellsFrom _ _ _ (Nat.zero_le a)]
  simp [List.getD_eq_getElem?_getD, ha]

/-- Every byte of a square's group is a byte of the palette: no index reaches outside it (20_memory.md R56). -/
theorem squareOffset_lt (i : Byte) (k : Nat) (hk : k < 3) : squareOffset i k < 384 := by
  have hi := i.isLt
  simp only [squareOffset, Config.groupBytes]
  omega

/-! ### The parameters -/

/-- The parameters of the reset state are legal, whatever the opaque constants are. -/
theorem config_params_legal : ParamsLegal Config.params where
  minTimer_pos := Nat.le_add_left 1 _
  minTimer_fits := by
    have h := Config.minTimerPred.isLt
    simp only [Config.params]
    omega
  rhythm_pos := by
    intro h0
    have h1 : (BitVec.ofNat 8 Config.defaultRhythm).toNat = 0 := congrArg BitVec.toNat h0
    rw [BitVec.toNat_ofNat] at h1
    simp only [Config.defaultRhythm, Config.rhythmMin, Config.rhythmMax] at h1
    omega
  ids_distinct := by
    have hnodup : ([0, 1, 2, 3, 4, 5] : List Byte).Nodup := by decide
    exact hnodup.map Config.idPerm.injective

/-- Six pairwise distinct ids, as the fifteen inequations the decoder's tests use. -/
theorem ids_ne_of_nodup {p : Params} (hn : p.ids.Nodup) :
    (p.idSequence ≠ p.idBeat ∧ p.idSequence ≠ p.idStart ∧ p.idSequence ≠ p.idStop ∧ p.idSequence ≠ p.idReset
      ∧ p.idSequence ≠ p.idSetcolor)
    ∧ (p.idBeat ≠ p.idStart ∧ p.idBeat ≠ p.idStop ∧ p.idBeat ≠ p.idReset ∧ p.idBeat ≠ p.idSetcolor)
    ∧ (p.idStart ≠ p.idStop ∧ p.idStart ≠ p.idReset ∧ p.idStart ≠ p.idSetcolor)
    ∧ (p.idStop ≠ p.idReset ∧ p.idStop ≠ p.idSetcolor) ∧ p.idReset ≠ p.idSetcolor := by
  simp only [Params.ids, List.nodup_cons, List.mem_cons, List.not_mem_nil, or_false, not_or] at hn
  tauto

end Sys2Proof.Machine
end

