-- ==== Sys2Proof/Laws/Codec.lean ====
section
/-! SUPPORT. What the message decoder can answer, once. -/

namespace Sys2Proof.Machine

open Sys2Proof

theorem decFields_of_length {length : Nat} {m : List Byte} (kind : Byte) (h : m.length = length) :
    decFields length kind m = (.ok, kind :: m.drop 1) := if_pos h

theorem decFields_of_ne {length : Nat} {m : List Byte} (kind : Byte) (h : m.length ≠ length) :
    decFields length kind m = (.malformed, []) := if_neg h

/-- A layout answers OK exactly at its length, with its kind and the bytes after the id. -/
theorem decFields_ok_iff (length : Nat) (kind k : Byte) (m fields : List Byte) :
    decFields length kind m = (.ok, k :: fields) ↔ m.length = length ∧ k = kind ∧ fields = m.drop 1 := by
  unfold decFields bytesFrom
  split <;> simp_all [eq_comm]

/-- A SEQUENCE answers OK exactly at 386 bytes with a rhythm other than 0. -/
theorem decSequence_ok_iff (k : Byte) (m fields : List Byte) :
    decSequence m = (.ok, k :: fields) ↔ m.length = 386 ∧ byteAt m 1 ≠ 0 ∧ k = 0 ∧ fields = m.drop 1 := by
  unfold decSequence
  split
  · rename_i h
    have h0 := mt (isRhythm_iff (byteAt m 1)).2 (by simp [h.2])
    simp_all
  · rename_i h
    rw [decFields_ok_iff]
    by_cases hl : m.length = 386
    · have hr : byteAt m 1 ≠ 0 := by
        rw [← isRhythm_iff]
        simpa [hl] using h
      exact ⟨fun ⟨_, hk, hf⟩ => ⟨hl, hr, hk, hf⟩, fun ⟨_, _, hk, hf⟩ => ⟨hl, hk, hf⟩⟩
    · simp [hl]

end Sys2Proof.Machine
end

