-- ==== Sys2Proof/Laws/State.lean ====
section
/-! SUPPORT. One lemma per field per update of `State`, each true by `rfl`, so that no proof unfolds an update. -/

namespace Sys2Proof.Machine

open Sys2Proof

variable (s : State)

/-! ### `State.emit` -/

@[simp] theorem State.emit_ep (os : List Output) : (s.emit os).ep = s.ep := rfl
@[simp] theorem State.emit_sq (os : List Output) : (s.emit os).sq = s.sq := rfl
@[simp] theorem State.emit_pal (os : List Output) : (s.emit os).pal = s.pal := rfl
@[simp] theorem State.emit_isRoot (os : List Output) : (s.emit os).isRoot = s.isRoot := rfl
@[simp] theorem State.emit_par (os : List Output) : (s.emit os).par = s.par := rfl
@[simp] theorem State.emit_draws (os : List Output) : (s.emit os).draws = s.draws := rfl
@[simp] theorem State.emit_inbox (os : List Output) : (s.emit os).inbox = s.inbox := rfl
@[simp] theorem State.emit_out (os : List Output) : (s.emit os).out = s.out ++ os := rfl
@[simp] theorem State.emit_resp (os : List Output) : (s.emit os).resp = s.resp := rfl

/-! ### `State.respond` -/

@[simp] theorem State.respond_ep (st : Status) (payload : List Byte) : (s.respond st payload).ep = s.ep := rfl
@[simp] theorem State.respond_sq (st : Status) (payload : List Byte) : (s.respond st payload).sq = s.sq := rfl
@[simp] theorem State.respond_pal (st : Status) (payload : List Byte) : (s.respond st payload).pal = s.pal := rfl
@[simp] theorem State.respond_isRoot (st : Status) (payload : List Byte) : (s.respond st payload).isRoot = s.isRoot := rfl
@[simp] theorem State.respond_par (st : Status) (payload : List Byte) : (s.respond st payload).par = s.par := rfl
@[simp] theorem State.respond_draws (st : Status) (payload : List Byte) : (s.respond st payload).draws = s.draws := rfl
@[simp] theorem State.respond_inbox (st : Status) (payload : List Byte) : (s.respond st payload).inbox = s.inbox := rfl
@[simp] theorem State.respond_out (st : Status) (payload : List Byte) : (s.respond st payload).out = s.out := rfl
@[simp] theorem State.respond_resp (st : Status) (payload : List Byte) : (s.respond st payload).resp = some ⟨st, payload⟩ := rfl

/-! ### `State.raise` -/

@[simp] theorem State.raise_ep (st : Status) : (s.raise st).ep = s.ep := rfl
@[simp] theorem State.raise_sq (st : Status) : (s.raise st).sq = s.sq := rfl
@[simp] theorem State.raise_pal (st : Status) : (s.raise st).pal = s.pal := rfl
@[simp] theorem State.raise_isRoot (st : Status) : (s.raise st).isRoot = s.isRoot := rfl
@[simp] theorem State.raise_par (st : Status) : (s.raise st).par = s.par := rfl
@[simp] theorem State.raise_draws (st : Status) : (s.raise st).draws = s.draws := rfl
@[simp] theorem State.raise_inbox (st : Status) : (s.raise st).inbox = s.inbox := rfl
@[simp] theorem State.raise_out (st : Status) : (s.raise st).out = s.out := rfl
@[simp] theorem State.raise_resp (st : Status) : (s.raise st).resp = some ⟨st, []⟩ := rfl

/-! ### `State.drawn` -/

@[simp] theorem State.drawn_ep : s.drawn.ep = s.ep := rfl
@[simp] theorem State.drawn_sq : s.drawn.sq = s.sq := rfl
@[simp] theorem State.drawn_pal : s.drawn.pal = s.pal := rfl
@[simp] theorem State.drawn_isRoot : s.drawn.isRoot = s.isRoot := rfl
@[simp] theorem State.drawn_par : s.drawn.par = s.par := rfl
@[simp] theorem State.drawn_draws : s.drawn.draws = s.draws + s.par.allocMayFail.toNat := rfl
@[simp] theorem State.drawn_inbox : s.drawn.inbox = s.inbox := rfl
@[simp] theorem State.drawn_out : s.drawn.out = s.out := rfl
@[simp] theorem State.drawn_resp : s.drawn.resp = s.resp := rfl

/-! ### `State.resetBlock` -/

@[simp] theorem State.resetBlock_ep (strap : Bool) : (s.resetBlock strap).ep = EffectPlayer.atReset := rfl
@[simp] theorem State.resetBlock_sq (strap : Bool) : (s.resetBlock strap).sq = Sequencer.atReset s.par := rfl
@[simp] theorem State.resetBlock_pal (strap : Bool) : (s.resetBlock strap).pal = [] := rfl
@[simp] theorem State.resetBlock_isRoot (strap : Bool) : (s.resetBlock strap).isRoot = strap := rfl
@[simp] theorem State.resetBlock_par (strap : Bool) : (s.resetBlock strap).par = s.par := rfl
@[simp] theorem State.resetBlock_draws (strap : Bool) : (s.resetBlock strap).draws = s.draws := rfl
@[simp] theorem State.resetBlock_inbox (strap : Bool) : (s.resetBlock strap).inbox = s.inbox := rfl
@[simp] theorem State.resetBlock_out (strap : Bool) : (s.resetBlock strap).out = s.out := rfl
@[simp] theorem State.resetBlock_resp (strap : Bool) : (s.resetBlock strap).resp = s.resp := rfl

/-! ### `State.withEffect` -/

@[simp] theorem State.withEffect_ep (r : EffectPlayer × List Output) : (s.withEffect r).ep = r.1 := rfl
@[simp] theorem State.withEffect_sq (r : EffectPlayer × List Output) : (s.withEffect r).sq = s.sq := rfl
@[simp] theorem State.withEffect_pal (r : EffectPlayer × List Output) : (s.withEffect r).pal = s.pal := rfl
@[simp] theorem State.withEffect_isRoot (r : EffectPlayer × List Output) : (s.withEffect r).isRoot = s.isRoot := rfl
@[simp] theorem State.withEffect_par (r : EffectPlayer × List Output) : (s.withEffect r).par = s.par := rfl
@[simp] theorem State.withEffect_draws (r : EffectPlayer × List Output) : (s.withEffect r).draws = s.draws := rfl
@[simp] theorem State.withEffect_inbox (r : EffectPlayer × List Output) : (s.withEffect r).inbox = s.inbox := rfl
@[simp] theorem State.withEffect_out (r : EffectPlayer × List Output) : (s.withEffect r).out = s.out ++ r.2 := rfl
@[simp] theorem State.withEffect_resp (r : EffectPlayer × List Output) : (s.withEffect r).resp = s.resp := rfl

/-! ### `State.withSequence` -/

@[simp] theorem State.withSequence_ep (r : Sequencer × List Output) : (s.withSequence r).ep = s.ep := rfl
@[simp] theorem State.withSequence_sq (r : Sequencer × List Output) : (s.withSequence r).sq = r.1 := rfl
@[simp] theorem State.withSequence_pal (r : Sequencer × List Output) : (s.withSequence r).pal = s.pal := rfl
@[simp] theorem State.withSequence_isRoot (r : Sequencer × List Output) : (s.withSequence r).isRoot = s.isRoot := rfl
@[simp] theorem State.withSequence_par (r : Sequencer × List Output) : (s.withSequence r).par = s.par := rfl
@[simp] theorem State.withSequence_draws (r : Sequencer × List Output) : (s.withSequence r).draws = s.draws := rfl
@[simp] theorem State.withSequence_inbox (r : Sequencer × List Output) : (s.withSequence r).inbox = s.inbox := rfl
@[simp] theorem State.withSequence_out (r : Sequencer × List Output) : (s.withSequence r).out = s.out ++ r.2 := rfl
@[simp] theorem State.withSequence_resp (r : Sequencer × List Output) : (s.withSequence r).resp = s.resp := rfl

/-! ### `State.countedDown` -/

@[simp] theorem State.countedDown_ep : s.countedDown.ep = { s.ep with timer := s.ep.timer.countDown } := rfl
@[simp] theorem State.countedDown_sq : s.countedDown.sq = { s.sq with timer := s.sq.timer.countDown } := rfl
@[simp] theorem State.countedDown_pal : s.countedDown.pal = s.pal := rfl
@[simp] theorem State.countedDown_isRoot : s.countedDown.isRoot = s.isRoot := rfl
@[simp] theorem State.countedDown_par : s.countedDown.par = s.par := rfl
@[simp] theorem State.countedDown_draws : s.countedDown.draws = s.draws := rfl
@[simp] theorem State.countedDown_inbox : s.countedDown.inbox = s.inbox := rfl
@[simp] theorem State.countedDown_out : s.countedDown.out = s.out := rfl
@[simp] theorem State.countedDown_resp : s.countedDown.resp = s.resp := rfl

/-! ### `State.opened` -/

@[simp] theorem State.opened_ep (rest : List Event) : (s.opened rest).ep = s.ep := rfl
@[simp] theorem State.opened_sq (rest : List Event) : (s.opened rest).sq = s.sq := rfl
@[simp] theorem State.opened_pal (rest : List Event) : (s.opened rest).pal = s.pal := rfl
@[simp] theorem State.opened_isRoot (rest : List Event) : (s.opened rest).isRoot = s.isRoot := rfl
@[simp] theorem State.opened_par (rest : List Event) : (s.opened rest).par = s.par := rfl
@[simp] theorem State.opened_draws (rest : List Event) : (s.opened rest).draws = s.draws := rfl
@[simp] theorem State.opened_inbox (rest : List Event) : (s.opened rest).inbox = rest := rfl
@[simp] theorem State.opened_out (rest : List Event) : (s.opened rest).out = [] := rfl
@[simp] theorem State.opened_resp (rest : List Event) : (s.opened rest).resp = none := rfl

/-! ### `State.present` -/

@[simp] theorem State.present_ep (e : Event) : (s.present e).ep = s.ep := rfl
@[simp] theorem State.present_sq (e : Event) : (s.present e).sq = s.sq := rfl
@[simp] theorem State.present_pal (e : Event) : (s.present e).pal = s.pal := rfl
@[simp] theorem State.present_isRoot (e : Event) : (s.present e).isRoot = s.isRoot := rfl
@[simp] theorem State.present_par (e : Event) : (s.present e).par = s.par := rfl
@[simp] theorem State.present_draws (e : Event) : (s.present e).draws = s.draws := rfl
@[simp] theorem State.present_inbox (e : Event) : (s.present e).inbox = e :: s.inbox := rfl
@[simp] theorem State.present_out (e : Event) : (s.present e).out = s.out := rfl
@[simp] theorem State.present_resp (e : Event) : (s.present e).resp = s.resp := rfl

end Sys2Proof.Machine
end

