-- ==== Sys2Proof/Laws/EffectPlayer.lean ====
section
/-! SUPPORT. What each procedure of the effect player can do, once, and that each keeps the player's invariant. -/

namespace Sys2Proof.Machine

open Sys2Proof

/-! ### The procedures in the words of Safety.lean -/

/-- Arming loads `n`, or `MIN_TIMER_MS` for 0. -/
theorem armTimer_eq {width : Nat} (p : Params) (n : Nat) :
    (armTimer p n : Timer width) = ⟨true, BitVec.ofNat width (waitOf p n)⟩ := by
  rw [← timerLoad_eq_waitOf]; rfl

theorem waitOf_of_pos (p : Params) (n : Nat) (h : 0 < n) : waitOf p n = n := if_neg (by omega)

theorem waitOf_pos (p : Params) (hp : ParamsLegal p) (n : Nat) : 0 < waitOf p n := by
  have := hp.minTimer_pos
  unfold waitOf
  split <;> omega

theorem waitOf_lt (p : Params) (hp : ParamsLegal p) (n : Nat) (h : n < 2 ^ 32) : waitOf p n < 2 ^ 32 := by
  have := hp.minTimer_fits
  unfold waitOf
  split <;> omega

/-- A u32 is 0 exactly when its value is. -/
theorem word_toNat_pos {width : Nat} {v : BitVec width} (h : v ≠ 0) : 0 < v.toNat :=
  Nat.pos_of_ne_zero fun h0 => h (BitVec.eq_of_toNat_eq (by simpa using h0))

/-- A count that goes down to 0 is 1. -/
theorem sub_one_eq_zero_iff {width : Nat} (v : BitVec width) : v - 1 = 0 ↔ v = 1 := by
  constructor
  · intro h
    have h' := congrArg (· + 1) h
    simpa using h'
  · rintro rfl
    simp

/-- `finish` leaves the same player whatever ran: the one of reset. -/
@[simp] theorem finish_eq (e : EffectPlayer) : finish e = EffectPlayer.atReset := rfl

@[simp] theorem sinkThen_fst (c : Color) (r : EffectPlayer × List Output) : (sinkThen c r).1 = r.1 := rfl

@[simp] theorem sinkThen_snd (c : Color) (r : EffectPlayer × List Output) :
    (sinkThen c r).2 = .sink c :: r.2 := rfl

/-- With `repeat = 0` the effect goes on unchanged. -/
theorem repeatThen_forever (e : EffectPlayer) (next : EffectPlayer → EffectPlayer × List Output)
    (h : e.desc.repeatCount = 0) : repeatThen e next = next e := if_pos h

/-- The last cycle of a finite effect finishes it. -/
theorem repeatThen_last (e : EffectPlayer) (next : EffectPlayer → EffectPlayer × List Output)
    (h : e.desc.repeatCount ≠ 0) (h1 : e.remaining = 1) :
    repeatThen e next = (EffectPlayer.atReset, []) := by
  rw [repeatThen, if_neg h, if_pos ((sub_one_eq_zero_iff _).2 h1), finish_eq]

/-- Any earlier cycle of a finite effect counts down and goes on. -/
theorem repeatThen_more (e : EffectPlayer) (next : EffectPlayer → EffectPlayer × List Output)
    (h : e.desc.repeatCount ≠ 0) (h1 : e.remaining ≠ 1) :
    repeatThen e next = next { e with remaining := e.remaining - 1 } := by
  rw [repeatThen, if_neg h, if_neg (mt (sub_one_eq_zero_iff _).1 h1)]

/-- `enter_fade_in()` of a player that holds `d`. -/
theorem enterFadeIn_eq (p : Params) (e : EffectPlayer) (h : e.valid = true) :
    enterFadeIn p e = fadeEntered p e.desc e.remaining := by
  unfold enterFadeIn fadeEntered
  split
  · simp [enterFadeHold, armTimer_eq, EffectPlayer.running, h]
  · simp [armTimer_eq, EffectPlayer.running, h, waitOf]

/-- `cycle_complete()` of a player that holds `d`. -/
theorem cycleComplete_eq (p : Params) (e : EffectPlayer) (h : e.valid = true) :
    cycleComplete p e = cycleEnded p e.desc e.remaining := by
  unfold cycleComplete cycleEnded
  by_cases h0 : e.desc.repeatCount = 0
  · rw [repeatThen_forever _ _ h0, if_pos h0, enterFadeIn_eq p e h]
  · rw [if_neg h0]
    by_cases h1 : e.remaining = 1
    · rw [repeatThen_last _ _ h0 h1, if_pos h1]
    · rw [repeatThen_more _ _ h0 h1, if_neg h1]
      exact enterFadeIn_eq p _ h

/-! ### The invariant -/

/-- The player of reset meets the invariant. -/
theorem atReset_inv : EffectInv EffectPlayer.atReset := by
  constructor <;> decide

/-- What a running effect must meet to be in the invariant: the clauses that do not concern its timer's being armed. -/
theorem running_inv (d : Descriptor) (phase : Phase) (remaining elapsed : Word32) (n : Nat)
    (hphase : phase ≠ .idle) (hpos : 0 < n) (hlt : n < 2 ^ 32)
    (hkind : (phase = .strobeOn ∨ phase = .strobeOff → d.kind = .strobe)
      ∧ (phase = .fadeIn ∨ phase = .fadeHold ∨ phase = .fadeOut → d.kind = .fade)
      ∧ (phase = .delay → d.kind ≠ .none ∧ d.delay ≠ 0))
    (hrem : (d.repeatCount = 0 → remaining = 0)
      ∧ (d.repeatCount ≠ 0 → remaining ≠ 0 ∧ remaining.toNat ≤ d.repeatCount.toNat))
    (helapsed : (phase = .fadeIn → elapsed.toNat < d.t0.toNat ∧ elapsed.toNat % 20 = 0)
      ∧ (phase = .fadeOut → elapsed.toNat < d.t1.toNat ∧ elapsed.toNat % 20 = 0)
      ∧ (phase ≠ .fadeIn → phase ≠ .fadeOut → elapsed = 0)) :
    EffectInv (EffectPlayer.running d phase remaining elapsed n) where
  idle_iff := by simp [EffectPlayer.running, hphase]
  armed_iff := by simp [EffectPlayer.running, hphase]
  idle_cleared := fun h => absurd h hphase
  armed_count := by
    intro _ h
    have h' : (BitVec.ofNat 32 n).toNat = (0 : BitVec 32).toNat := congrArg BitVec.toNat h
    rw [BitVec.toNat_ofNat, Nat.mod_eq_of_lt hlt] at h'
    simp at h'
    omega
  disarmed_count := fun h => Bool.noConfusion h
  strobe_kind := hkind.1
  fade_kind := hkind.2.1
  delay_kind := hkind.2.2
  forever_remaining := hrem.1
  finite_remaining := fun _ => hrem.2
  fadeIn_elapsed := helapsed.1
  fadeOut_elapsed := helapsed.2.1
  other_elapsed := helapsed.2.2

/-- What the invariant says of the counts of a running effect. -/
theorem EffectInv.counts {e : EffectPlayer} (h : EffectInv e) (hphase : e.phase ≠ .idle) :
    (e.desc.repeatCount = 0 → e.remaining = 0)
      ∧ (e.desc.repeatCount ≠ 0 → e.remaining ≠ 0 ∧ e.remaining.toNat ≤ e.desc.repeatCount.toNat) :=
  ⟨h.forever_remaining, h.finite_remaining hphase⟩

/-- Entering FADE_IN, or FADE_HOLD with `fade_in_ms` 0, keeps the invariant. -/
theorem fadeEntered_inv (p : Params) (hp : ParamsLegal p) (d : Descriptor) (remaining : Word32) (hk : d.kind = .fade)
    (hrem : (d.repeatCount = 0 → remaining = 0)
      ∧ (d.repeatCount ≠ 0 → remaining ≠ 0 ∧ remaining.toNat ≤ d.repeatCount.toNat)) :
    EffectInv (fadeEntered p d remaining).1 := by
  unfold fadeEntered
  split
  · exact running_inv d _ _ _ _ (by decide) (waitOf_pos p hp _) (waitOf_lt p hp _ d.hold.isLt)
      ⟨by simp, fun _ => hk, by simp⟩ hrem ⟨by simp, by simp, by simp⟩
  · rename_i h0
    exact running_inv d _ _ _ _ (by decide) (by decide) (by decide)
      ⟨by simp, fun _ => hk, by simp⟩ hrem
      ⟨fun _ => ⟨by simpa using word_toNat_pos h0, rfl⟩, by simp, by simp⟩

/-- One cycle less of a finite effect still leaves 1 to `repeat_count`. -/
theorem remaining_sub_one {total remaining : Word32} (h0 : remaining ≠ 0) (h1 : remaining ≠ 1)
    (hle : remaining.toNat ≤ total.toNat) :
    remaining - 1 ≠ 0 ∧ (remaining - 1).toNat ≤ total.toNat := by
  refine ⟨mt (sub_one_eq_zero_iff remaining).1 h1, ?_⟩
  have hpos := word_toNat_pos h0
  have hlt := remaining.isLt
  rw [BitVec.toNat_sub]
  simp only [BitVec.ofNat_eq_ofNat, BitVec.toNat_ofNat]
  omega

/-- The end of a fade cycle keeps the invariant. -/
theorem cycleEnded_inv (p : Params) (hp : ParamsLegal p) (d : Descriptor) (remaining : Word32) (hk : d.kind = .fade)
    (hrem : (d.repeatCount = 0 → remaining = 0)
      ∧ (d.repeatCount ≠ 0 → remaining ≠ 0 ∧ remaining.toNat ≤ d.repeatCount.toNat)) :
    EffectInv (cycleEnded p d remaining).1 := by
  unfold cycleEnded
  split
  · exact fadeEntered_inv p hp d remaining hk hrem
  · rename_i h0
    split
    · exact atReset_inv
    · rename_i h1
      exact fadeEntered_inv p hp d _ hk
        ⟨fun h => absurd h h0, fun h => remaining_sub_one (hrem.2 h).1 h1 (hrem.2 h).2⟩

/-- The first phase of an effect that meets the invariant's counts keeps the invariant. -/
theorem enterFirstPhase_inv (p : Params) (hp : ParamsLegal p) (e : EffectPlayer) (hv : e.valid = true)
    (hk : e.desc.kind ≠ .none) (he : e.elapsed = 0)
    (hrem : (e.desc.repeatCount = 0 → e.remaining = 0)
      ∧ (e.desc.repeatCount ≠ 0 → e.remaining ≠ 0 ∧ e.remaining.toNat ≤ e.desc.repeatCount.toNat)) :
    EffectInv (enterFirstPhase p e).1 := by
  unfold enterFirstPhase
  split
  · rename_i hs
    have h := running_inv e.desc .strobeOn e.remaining 0 (waitOf p e.desc.t0.toNat) (by decide) (waitOf_pos p hp _)
      (waitOf_lt p hp _ e.desc.t0.isLt) ⟨fun _ => hs, by simp, by simp⟩ hrem ⟨by simp, by simp, by simp⟩
    simpa [enterStrobeOn, EffectPlayer.running, armTimer_eq, hv, he] using h
  · rename_i hs
    have hf : e.desc.kind = .fade := by
      cases hd : e.desc.kind <;> simp_all
    rw [sinkThen_fst, enterFadeIn_eq p e hv]
    exact fadeEntered_inv p hp e.desc e.remaining hf hrem

/-- Waiting out the off period keeps the invariant. -/
theorem waitStrobeOff_inv (p : Params) (hp : ParamsLegal p) (e : EffectPlayer) (hv : e.valid = true)
    (hk : e.desc.kind = .strobe) (he : e.elapsed = 0)
    (hrem : (e.desc.repeatCount = 0 → e.remaining = 0)
      ∧ (e.desc.repeatCount ≠ 0 → e.remaining ≠ 0 ∧ e.remaining.toNat ≤ e.desc.repeatCount.toNat)) :
    EffectInv (waitStrobeOff p e).1 := by
  have h := running_inv e.desc .strobeOff e.remaining 0 (waitOf p e.desc.t1.toNat) (by decide) (waitOf_pos p hp _)
    (waitOf_lt p hp _ e.desc.t1.isLt) ⟨fun _ => hk, by simp, by simp⟩ hrem ⟨by simp, by simp, by simp⟩
  simpa [waitStrobeOff, EffectPlayer.running, armTimer_eq, hv, he] using h

/-- The toggle to `off` keeps the invariant, whether the effect goes on or finishes. -/
theorem enterStrobeOff_inv (p : Params) (hp : ParamsLegal p) (e : EffectPlayer) (hv : e.valid = true)
    (hk : e.desc.kind = .strobe) (he : e.elapsed = 0)
    (hrem : (e.desc.repeatCount = 0 → e.remaining = 0)
      ∧ (e.desc.repeatCount ≠ 0 → e.remaining ≠ 0 ∧ e.remaining.toNat ≤ e.desc.repeatCount.toNat)) :
    EffectInv (enterStrobeOff p e).1 := by
  rw [enterStrobeOff, sinkThen_fst]
  by_cases h0 : e.desc.repeatCount = 0
  · rw [repeatThen_forever _ _ h0]
    exact waitStrobeOff_inv p hp e hv hk he hrem
  · by_cases h1 : e.remaining = 1
    · rw [repeatThen_last _ _ h0 h1]
      exact atReset_inv
    · rw [repeatThen_more _ _ h0 h1]
      exact waitStrobeOff_inv p hp _ hv hk he
        ⟨fun h => absurd h h0, fun h => remaining_sub_one (hrem.2 h).1 h1 (hrem.2 h).2⟩

/-- One interpolation tick keeps what the invariant says of the elapsed count. -/
theorem elapsed_add_toNat {elapsed total : Word32} (h : ¬ total.toNat ≤ elapsed.toNat + 20)
    (hm : elapsed.toNat % 20 = 0) :
    (BitVec.ofNat 32 (elapsed.toNat + 20)).toNat < total.toNat
      ∧ (BitVec.ofNat 32 (elapsed.toNat + 20)).toNat % 20 = 0 := by
  have hlt := total.isLt
  rw [BitVec.toNat_ofNat, Nat.mod_eq_of_lt (by omega)]
  omega

/-- Every expiry keeps the invariant: from the player a `TICK` has just disarmed to the player after its rule. -/
theorem effectExpiry_inv (p : Params) (hp : ParamsLegal p) (e : EffectPlayer) (t : Timer 32) (h : EffectInv e)
    (r : EffectPlayer × List Output) (hr : effectExpiry p { e with timer := t } = some r) : EffectInv r.1 := by
  have hv : e.phase ≠ .idle → e.valid = true := fun hne => by
    cases hval : e.valid
    · exact absurd (h.idle_iff.2 hval) hne
    · rfl
  cases hph : e.phase <;> simp only [effectExpiry, hph, Option.some.injEq, reduceCtorEq] at hr
  · subst hr
    exact enterStrobeOff_inv p hp _ (hv (by simp [hph])) (h.strobe_kind (.inl hph))
      (h.other_elapsed (by simp [hph]) (by simp [hph])) (h.counts (by simp [hph]))
  · subst hr
    have h' := running_inv e.desc .strobeOn e.remaining 0 (waitOf p e.desc.t0.toNat) (by decide) (waitOf_pos p hp _)
      (waitOf_lt p hp _ e.desc.t0.isLt) ⟨fun _ => h.strobe_kind (.inr hph), by simp, by simp⟩
      (h.counts (by simp [hph])) ⟨by simp, by simp, by simp⟩
    have he := h.other_elapsed (by simp [hph]) (by simp [hph])
    simpa [enterStrobeOn, EffectPlayer.running, armTimer_eq, hv (by simp [hph]), he] using h'
  · subst hr
    have hk := h.fade_kind (.inl hph)
    obtain ⟨_, hm⟩ := h.fadeIn_elapsed hph
    unfold fadeInStep
    dsimp only
    split
    · have h' := running_inv e.desc .fadeHold e.remaining 0 (waitOf p e.desc.hold.toNat) (by decide)
        (waitOf_pos p hp _) (waitOf_lt p hp _ e.desc.hold.isLt) ⟨by simp, fun _ => hk, by simp⟩
        (h.counts (by simp [hph])) ⟨by simp, by simp, by simp⟩
      simpa [enterFadeHold, EffectPlayer.running, armTimer_eq, hv (by simp [hph])] using h'
    · rename_i hlt
      have h' := running_inv e.desc .fadeIn e.remaining (BitVec.ofNat 32 (e.elapsed.toNat + 20)) 20 (by decide)
        (by decide) (by decide) ⟨by simp, fun _ => hk, by simp⟩ (h.counts (by simp [hph]))
        ⟨fun _ => elapsed_add_toNat hlt hm, by simp, by simp⟩
      simpa [interpStep, EffectPlayer.running, armTimer_eq, hv (by simp [hph]), hph, waitOf] using h'
  · subst hr
    have hk := h.fade_kind (.inr (.inl hph))
    unfold enterFadeOut
    split
    · have hc := cycleComplete_eq p { e with phase := .fadeHold, elapsed := 0, timer := t } (hv (by simp [hph]))
      rw [sinkThen_fst, hc]
      exact cycleEnded_inv p hp e.desc e.remaining hk (h.counts (by simp [hph]))
    · rename_i h1
      have h' := running_inv e.desc .fadeOut e.remaining 0 20 (by decide)
        (by decide) (by decide) ⟨by simp, fun _ => hk, by simp⟩ (h.counts (by simp [hph]))
        ⟨by simp, fun _ => ⟨by simpa using word_toNat_pos h1, rfl⟩, by simp⟩
      simpa [EffectPlayer.running, armTimer_eq, hv (by simp [hph]), waitOf] using h'
  · subst hr
    have hk := h.fade_kind (.inr (.inr hph))
    obtain ⟨_, hm⟩ := h.fadeOut_elapsed hph
    unfold fadeOutStep
    dsimp only
    split
    · have hc := cycleComplete_eq p { e with phase := .fadeOut, elapsed := 0, timer := t } (hv (by simp [hph]))
      rw [sinkThen_fst, hc]
      exact cycleEnded_inv p hp e.desc e.remaining hk (h.counts (by simp [hph]))
    · rename_i hlt
      have h' := running_inv e.desc .fadeOut e.remaining (BitVec.ofNat 32 (e.elapsed.toNat + 20)) 20 (by decide)
        (by decide) (by decide) ⟨by simp, fun _ => hk, by simp⟩ (h.counts (by simp [hph]))
        ⟨by simp, fun _ => elapsed_add_toNat hlt hm, by simp⟩
      simpa [interpStep, EffectPlayer.running, armTimer_eq, hv (by simp [hph]), hph, waitOf] using h'
  · subst hr
    obtain ⟨hk, _⟩ := h.delay_kind hph
    exact enterFirstPhase_inv p hp _ (hv (by simp [hph])) hk (h.other_elapsed (by simp [hph]) (by simp [hph]))
      (h.counts (by simp [hph]))

/-- A counted-down timer that did not expire keeps the invariant. -/
theorem countDown_effect_inv (e : EffectPlayer) (h : EffectInv e) (hx : e.timer.expires = false) :
    EffectInv { e with timer := e.timer.countDown } := by
  cases ha : e.timer.armed
  · rw [countDown_disarmed _ ha]
    exact h
  · rw [countDown_running _ ha hx]
    have hcount : e.timer.count - 1 ≠ 0 := by
      intro h0
      have : e.timer.expires = true := (expires_iff _).2 ⟨ha, (sub_one_eq_zero_iff _).1 h0⟩
      simp [this] at hx
    exact ⟨h.idle_iff, by simpa [ha] using h.armed_iff, h.idle_cleared, fun _ => hcount, fun hf => Bool.noConfusion hf,
      h.strobe_kind, h.fade_kind, h.delay_kind, h.forever_remaining, h.finite_remaining, h.fadeIn_elapsed,
      h.fadeOut_elapsed, h.other_elapsed⟩

/-- A new effect meets the invariant, whatever the parameters and its operands. -/
theorem startEffect_inv (p : Params) (hp : ParamsLegal p) (d : Descriptor) (hk : d.kind ≠ .none) :
    EffectInv (startEffect p EffectPlayer.atReset d).1 := by
  have hrem : (d.repeatCount = 0 → d.repeatCount = 0)
      ∧ (d.repeatCount ≠ 0 → d.repeatCount ≠ 0 ∧ d.repeatCount.toNat ≤ d.repeatCount.toNat) :=
    ⟨id, fun h => ⟨h, Nat.le_refl _⟩⟩
  unfold startEffect
  dsimp only
  split
  · exact enterFirstPhase_inv p hp _ rfl hk rfl hrem
  · rename_i hd
    have h := running_inv d .delay d.repeatCount 0 (waitOf p d.delay.toNat) (by decide) (waitOf_pos p hp _)
      (waitOf_lt p hp _ d.delay.isLt) ⟨by simp, by simp, fun _ => ⟨hk, hd⟩⟩ hrem ⟨by simp, by simp, by simp⟩
    simpa [EffectPlayer.running, armTimer_eq, EffectPlayer.atReset] using h

end Sys2Proof.Machine
end

