-- ==== Sys2Proof/Laws/PerInstr.lean ====
section
/-! SUPPORT. The statements made of every command, as syntax: one lemma for each constructor of `Instr`. -/

namespace Sys2Proof.Laws

/-- The frame of a well-formed command begins with its opcode and has the length its opcode calls for
(30_encoding.md R70, R71, R73). -/
def FrameShape.Statement (i : Instr) : Prop :=
  i.wellFormed = true →
    (encode i).head? = some (opcodeOf i).code ∧ frameLength (opcodeOf i) (encode i) = some (encode i).length

theorem FrameShape.epPlay (kind : Byte) (onColor offColor : Color) (t0 t1 hold repeatCount delay : Word32) :
    FrameShape.Statement (.epPlay kind onColor offColor t0 t1 hold repeatCount delay) := fun _ => ⟨rfl, rfl⟩

theorem FrameShape.epStop : FrameShape.Statement .epStop := fun _ => ⟨rfl, rfl⟩

theorem FrameShape.epQuery : FrameShape.Statement .epQuery := fun _ => ⟨rfl, rfl⟩

theorem FrameShape.palSet (buffer : List Byte) : FrameShape.Statement (.palSet buffer) := by
  intro h
  have hl : buffer.length = 384 := eq_of_beq h
  exact ⟨rfl, by simp [frameLength, encode, opcodeOf, operandBytes, hl]⟩

theorem FrameShape.palGet (index : Word16) : FrameShape.Statement (.palGet index) := fun _ => ⟨rfl, rfl⟩

theorem FrameShape.palPackPair (er eg eb or' og ob : Byte) :
    FrameShape.Statement (.palPackPair er eg eb or' og ob) := fun _ => ⟨rfl, rfl⟩

theorem FrameShape.palUnpackPair (b0 b1 b2 : Byte) :
    FrameShape.Statement (.palUnpackPair b0 b1 b2) := fun _ => ⟨rfl, rfl⟩

theorem FrameShape.palToDisplay (r g b : Byte) : FrameShape.Statement (.palToDisplay r g b) := fun _ => ⟨rfl, rfl⟩

theorem FrameShape.palQuantize (r g b : Byte) : FrameShape.Statement (.palQuantize r g b) := fun _ => ⟨rfl, rfl⟩

theorem FrameShape.sqStore (rhythm : Byte) (buffer : List Byte) :
    FrameShape.Statement (.sqStore rhythm buffer) := by
  intro h
  have hl : buffer.length = 384 := eq_of_beq h
  exact ⟨rfl, by simp [frameLength, encode, opcodeOf, operandBytes, hl]⟩

theorem FrameShape.sqStart : FrameShape.Statement .sqStart := fun _ => ⟨rfl, rfl⟩

theorem FrameShape.sqStop : FrameShape.Statement .sqStop := fun _ => ⟨rfl, rfl⟩

theorem FrameShape.sqReset : FrameShape.Statement .sqReset := fun _ => ⟨rfl, rfl⟩

theorem FrameShape.sqQuery : FrameShape.Statement .sqQuery := fun _ => ⟨rfl, rfl⟩

theorem FrameShape.msgEncSequence (rhythm : Byte) (buffer : List Byte) :
    FrameShape.Statement (.msgEncSequence rhythm buffer) := by
  intro h
  have hl : buffer.length = 384 := eq_of_beq h
  exact ⟨rfl, by simp [frameLength, encode, opcodeOf, operandBytes, hl]⟩

theorem FrameShape.msgEncBeat (pointer : Byte) : FrameShape.Statement (.msgEncBeat pointer) := fun _ => ⟨rfl, rfl⟩

theorem FrameShape.msgEncStart : FrameShape.Statement .msgEncStart := fun _ => ⟨rfl, rfl⟩

theorem FrameShape.msgEncStop : FrameShape.Statement .msgEncStop := fun _ => ⟨rfl, rfl⟩

theorem FrameShape.msgEncReset : FrameShape.Statement .msgEncReset := fun _ => ⟨rfl, rfl⟩

theorem FrameShape.msgEncSetcolor (r g b : Byte) : FrameShape.Statement (.msgEncSetcolor r g b) := fun _ => ⟨rfl, rfl⟩

theorem FrameShape.msgDecode (message : List Byte) : FrameShape.Statement (.msgDecode message) := by
  intro h
  have hl : message.length < 65536 := of_decide_eq_true h
  refine ⟨rfl, ?_⟩
  have hn : le16 (encode (.msgDecode message)) 1 = BitVec.ofNat 16 message.length :=
    le16_le16b (BitVec.ofNat 16 message.length) message
  simp only [opcodeOf, frameLength, hn, BitVec.toNat_ofNat, Nat.mod_eq_of_lt hl]
  simp [encode, operandBytes, le16b]
  omega

end Sys2Proof.Laws
end

