-- ==== Sys2Proof/Laws/Sequencer.lean ====
section
/-! SUPPORT. What each procedure of the sequence stepper can do, once, and that each keeps the stepper's invariant. -/

namespace Sys2Proof.Machine

open Sys2Proof

/-- The period is 10 to 2550 `TICK`s. -/
theorem period_bounds (q : Sequencer) (h : q.rhythm ≠ 0) : 10 ≤ q.period ∧ q.period ≤ 2550 := by
  have hpos := word_toNat_pos h
  have hlt := q.rhythm.isLt
  simp only [Sequencer.period, Config.rhythmUnitMs]
  omega

/-- Arming the sequence timer arms a full period. -/
theorem rearmed_eq (p : Params) (q : Sequencer) (h : q.rhythm ≠ 0) :
    Sequencer.rearmed p q = { q with timer := ⟨true, BitVec.ofNat 16 (q.rhythm.toNat * 10)⟩ } := by
  have hb := period_bounds q h
  rw [Sequencer.rearmed, armTimer_eq, waitOf_of_pos p q.period (by omega)]
  rfl

/-- A restarted stepper: pointer 0, active, a full period armed. -/
theorem restarted_eq (p : Params) (q : Sequencer) (h : q.rhythm ≠ 0) :
    Sequencer.restarted p q = ⟨q.rhythm, 0, true, ⟨true, BitVec.ofNat 16 (q.rhythm.toNat * 10)⟩⟩ :=
  rearmed_eq p { q with timer := disarmed, pointer := 0, active := true } h

/-- The pointer goes up by one and wraps at its width. -/
theorem advance_eq (pointer : Byte) : advance pointer = pointer + 1 := by
  apply BitVec.eq_of_toNat_eq
  simp [advance, BitVec.toNat_add]

/-- A sequence step: the pointer one up, a full period armed, the square written, a BEAT at a row boundary. -/
theorem seqStep_eq (p : Params) (pal : Memory) (q : Sequencer) (h : q.rhythm ≠ 0) :
    seqStep p pal q
      = ({ q with pointer := q.pointer + 1, timer := ⟨true, BitVec.ofNat 16 (q.rhythm.toNat * 10)⟩ },
         .sink (toDisplay (square pal q.pointer)) :: beatAt p (q.pointer + 1)) := by
  rw [seqStep, advance_eq, rearmed_eq p { q with pointer := q.pointer + 1 } h]

/-- A full period armed meets the invariant. -/
theorem sequence_inv_of_period (q : Sequencer) (h : q.rhythm ≠ 0) (hactive : q.active = true)
    (ht : q.timer = ⟨true, BitVec.ofNat 16 (q.rhythm.toNat * 10)⟩) : SequenceInv q where
  rhythm_pos := h
  armed_eq := by rw [ht, hactive]
  armed_count := fun _ => by
    have hpos := word_toNat_pos h
    have hlt := q.rhythm.isLt
    rw [ht]
    simp only [BitVec.toNat_ofNat]
    omega
  disarmed_count := fun hf => by rw [ht] at hf; exact Bool.noConfusion hf

theorem restarted_inv (p : Params) (q : Sequencer) (h : q.rhythm ≠ 0) : SequenceInv (Sequencer.restarted p q) := by
  rw [restarted_eq p q h]
  exact sequence_inv_of_period _ h rfl rfl

/-- A stopped stepper with its timer disarmed meets the invariant. -/
theorem stopped_inv (q : Sequencer) (h : q.rhythm ≠ 0) (hactive : q.active = false) (ht : q.timer = ⟨false, 0⟩) :
    SequenceInv q where
  rhythm_pos := h
  armed_eq := by rw [ht, hactive]
  armed_count := fun hf => by rw [ht] at hf; exact Bool.noConfusion hf
  disarmed_count := fun _ => by rw [ht]

/-- SQ_RESET keeps the invariant, active or stopped. -/
theorem pointerReset_inv (p : Params) (q : Sequencer) (h : SequenceInv q) :
    SequenceInv (Sequencer.pointerReset p q) := by
  unfold Sequencer.pointerReset
  split
  · rename_i ha
    rw [rearmed_eq p { q with pointer := 0, timer := disarmed } h.rhythm_pos]
    exact sequence_inv_of_period _ h.rhythm_pos ha rfl
  · exact ⟨h.rhythm_pos, h.armed_eq, h.armed_count, h.disarmed_count⟩

/-- A step of an active stepper keeps the invariant, whatever is left of its timer. -/
theorem seqStep_inv (p : Params) (pal : Memory) (q : Sequencer) (h : q.rhythm ≠ 0) (hactive : q.active = true) :
    SequenceInv (seqStep p pal q).1 := by
  rw [seqStep_eq p pal q h]
  exact sequence_inv_of_period _ h hactive rfl

/-- A counted-down timer that did not expire keeps the invariant. -/
theorem countDown_sequence_inv (q : Sequencer) (h : SequenceInv q) (hx : q.timer.expires = false) :
    SequenceInv { q with timer := q.timer.countDown } := by
  cases ha : q.timer.armed
  · rw [countDown_disarmed _ ha]
    exact h
  · rw [countDown_running _ ha hx]
    obtain ⟨hlow, hhigh⟩ := h.armed_count ha
    have hne : q.timer.count.toNat ≠ 1 := by
      intro h1
      have : q.timer.expires = true := (expires_iff _).2 ⟨ha, BitVec.eq_of_toNat_eq h1⟩
      simp [this] at hx
    have hlt := q.timer.count.isLt
    refine ⟨h.rhythm_pos, by simpa [ha] using h.armed_eq, fun _ => ?_, fun hf => Bool.noConfusion hf⟩
    simp only [BitVec.toNat_sub, BitVec.ofNat_eq_ofNat, BitVec.toNat_ofNat]
    omega

/-- An expiring sequence timer means an active stepper. -/
theorem active_of_expires (q : Sequencer) (h : SequenceInv q) (hx : q.timer.expires = true) : q.active = true := by
  rw [← h.armed_eq]
  exact ((expires_iff _).1 hx).1

/-- An expiring effect timer means an effect that runs. -/
theorem not_idle_of_expires (e : EffectPlayer) (h : EffectInv e) (hx : e.timer.expires = true) : e.phase ≠ .idle :=
  h.armed_iff.1 ((expires_iff _).1 hx).1

end Sys2Proof.Machine
end

