-- ==== Sys2Proof/Laws/Step.lean ====
section
/-! SUPPORT. What a step can do, once: the step at each event, the `TICK` by which timers expire, and that every
command answers a next state. -/

namespace Sys2Proof.Machine

open Sys2Proof

/-! ### The step at each event -/

/-- With no event to take, the block waits. -/
theorem step_waiting (s : State) (h : s.inbox = []) : step s = .next (s.opened []) := by
  simp [step, takeEvent, h]

/-- A step takes the first event of the schedule. -/
theorem step_event (s : State) (e : Event) (rest : List Event) (h : s.inbox = e :: rest) :
    step s = runEvent e (s.opened rest) := by
  simp [step, takeEvent, h]

theorem step_tick (s : State) (rest : List Event) (h : s.inbox = .tick :: rest) :
    step s = tick (s.opened rest) := step_event s _ rest h

theorem step_frame (s : State) (F : List Byte) (rest : List Event) (h : s.inbox = .cmd F :: rest) :
    step s = runFrame F (s.opened rest) := step_event s _ rest h

theorem step_reset (s : State) (strap : Bool) (rest : List Event) (h : s.inbox = .reset strap :: rest) :
    step s = .next ((s.opened rest).resetBlock strap) := step_event s _ rest h

theorem runFrame_command (F : List Byte) (i : Instr) (s : State) (h : decode F = .command i) :
    runFrame F s = exec i s := by
  simp [runFrame, h]

theorem runFrame_illegal (F : List Byte) (s : State) (h : decode F = .illegalCommand) :
    runFrame F s = .next (s.raise .illegalCommand) := by
  simp [runFrame, h]

theorem runFrame_malformed (F : List Byte) (s : State) (h : decode F = .malformed) :
    runFrame F s = .next (s.raise .malformed) := by
  simp [runFrame, h]

/-! ### The `TICK` -/

theorem tick_quiet (s : State) (he : s.ep.timer.expires = false) (hq : s.sq.timer.expires = false) :
    tick s = .next s.countedDown := by
  simp [tick, he, hq]

theorem tick_effect (s : State) (he : s.ep.timer.expires = true) (hq : s.sq.timer.expires = false) :
    tick s = runEffectExpiry s.countedDown := by
  simp [tick, he, hq]

theorem tick_sequence (s : State) (he : s.ep.timer.expires = false) (hq : s.sq.timer.expires = true) :
    tick s = .next (runSequenceExpiry s.countedDown) := by
  simp [tick, he, hq]

theorem tick_both (s : State) (he : s.ep.timer.expires = true) (hq : s.sq.timer.expires = true) :
    tick s = runBothExpiries s.countedDown := by
  simp [tick, he, hq]

/-- The effect expiry answers exactly where R140 gives an action. -/
theorem runEffectExpiry_eq (s : State) (r : EffectPlayer × List Output) (h : effectExpiry s.par s.ep = some r) :
    runEffectExpiry s = .next (s.withEffect r) := by
  simp [runEffectExpiry, h]

/-- What an effect expiry can answer. -/
theorem runEffectExpiry_next (s t : State) (h : runEffectExpiry s = .next t) :
    ∃ r, effectExpiry s.par s.ep = some r ∧ t = s.withEffect r := by
  unfold runEffectExpiry at h
  cases hr : effectExpiry s.par s.ep <;> simp only [hr, Host.Outcome.next.injEq, reduceCtorEq] at h
  exact ⟨_, rfl, h.symm⟩

/-- A `TICK` in which only the effect timer expires: the player and the outputs are those of its rule. -/
theorem step_effect_tick (s : State) (rest : List Event) (e : EffectPlayer) (os : List Output)
    (hin : s.inbox = .tick :: rest) (he : s.ep.timer = ⟨true, 1⟩) (hq : s.sq.timer.expires = false)
    (hr : effectExpiry s.par { s.ep with timer := ⟨false, 0⟩ } = some (e, os)) :
    step s = .next (s.afterEffectTick rest e os) := by
  have hx : s.ep.timer.expires = true := by simp [he, expires_iff]
  rw [step_tick s rest hin, tick_effect (s.opened rest) hx hq, runEffectExpiry_eq _ (e, os)]
  · rfl
  · simp only [State.countedDown_par, State.opened_par, State.countedDown_ep, State.opened_ep, countDown_expiring _ hx]
    exact hr

/-- The two expiries of one `TICK`, in the order of the free choice: each engine as if alone, the outputs one after the
other. -/
theorem runBothExpiries_eq (s : State) (r : EffectPlayer × List Output) (h : effectExpiry s.par s.ep = some r) :
    runBothExpiries s = .next { s with
      ep := r.1
      sq := (seqStep s.par s.pal s.sq).1
      draws := s.draws + 1
      out := if Config.sequenceFirst s.draws then (s.out ++ (seqStep s.par s.pal s.sq).2) ++ r.2
        else (s.out ++ r.2) ++ (seqStep s.par s.pal s.sq).2 } := by
  unfold runBothExpiries
  dsimp only
  split
  · rw [runEffectExpiry_eq _ r (by simpa [runSequenceExpiry] using h)]
    rfl
  · have he := runEffectExpiry_eq { s with draws := s.draws + 1 } r h
    rw [he]
    rfl

/-- Everything a `TICK` that answers can do. -/
theorem tick_cases (s t : State) (h : tick s = .next t) :
    (s.ep.timer.expires = false ∧ s.sq.timer.expires = false ∧ t = s.countedDown)
    ∨ (s.ep.timer.expires = true ∧ s.sq.timer.expires = false
        ∧ ∃ r, effectExpiry s.par s.countedDown.ep = some r ∧ t = s.countedDown.withEffect r)
    ∨ (s.ep.timer.expires = false ∧ s.sq.timer.expires = true ∧ t = runSequenceExpiry s.countedDown)
    ∨ (s.ep.timer.expires = true ∧ s.sq.timer.expires = true
        ∧ ∃ r, effectExpiry s.par s.countedDown.ep = some r
          ∧ t = { s.countedDown with
              ep := r.1
              sq := (seqStep s.par s.pal s.countedDown.sq).1
              draws := s.draws + 1
              out := if Config.sequenceFirst s.draws then
                  (s.out ++ (seqStep s.par s.pal s.countedDown.sq).2) ++ r.2
                else (s.out ++ r.2) ++ (seqStep s.par s.pal s.countedDown.sq).2 }) := by
  cases he : s.ep.timer.expires <;> cases hq : s.sq.timer.expires
  · rw [tick_quiet s he hq, Host.Outcome.next.injEq] at h
    exact .inl ⟨rfl, rfl, h.symm⟩
  · rw [tick_sequence s he hq, Host.Outcome.next.injEq] at h
    exact .inr (.inr (.inl ⟨rfl, rfl, h.symm⟩))
  · rw [tick_effect s he hq] at h
    obtain ⟨r, hr, ht⟩ := runEffectExpiry_next _ _ h
    exact .inr (.inl ⟨rfl, rfl, r, hr, ht⟩)
  · rw [tick_both s he hq] at h
    cases hr : effectExpiry s.countedDown.par s.countedDown.ep with
    | none =>
      exfalso
      unfold runBothExpiries at h
      dsimp only at h
      split at h
      · obtain ⟨r, hr', _⟩ := runEffectExpiry_next _ _ h
        simp only [runSequenceExpiry, State.withSequence_par, State.withSequence_ep] at hr'
        rw [hr] at hr'
        cases hr'
      · unfold runEffectExpiry at h
        dsimp only at h
        rw [hr] at h
        cases h
    | some r =>
      rw [runBothExpiries_eq _ r hr, Host.Outcome.next.injEq] at h
      exact .inr (.inr (.inr ⟨rfl, rfl, r, hr, h.symm⟩))

/-! ### Commands -/

/-- EP_PLAY of a present descriptor where no allocation can fail. -/
theorem play_eq (s : State) (d : Descriptor) (h : s.par.allocMayFail = false) :
    s.play d = (s.withEffect (startEffect s.par EffectPlayer.atReset d)).respond .ok [] := by
  have h1 : s.allocFails = false := by simp [State.allocFails, h]
  have h2 : s.drawn = s := by simp [State.drawn, h]
  simp [State.play, h1, h2]

/-- Every command answers a next state: the block has no fault for a command (60_exceptions.md R211). -/
theorem exec_next (i : Instr) (s : State) : ∃ t, exec i s = .next t := by
  cases i <;> exact ⟨_, rfl⟩

/-- Everything a step that answers can do, by its event. -/
theorem step_cases (s t : State) (h : step s = .next t) :
    (s.inbox = [] ∧ t = s.opened [])
    ∨ (∃ F rest i, s.inbox = .cmd F :: rest ∧ decode F = .command i ∧ exec i (s.opened rest) = .next t)
    ∨ (∃ F rest, s.inbox = .cmd F :: rest ∧ decode F = .illegalCommand
        ∧ t = (s.opened rest).raise .illegalCommand)
    ∨ (∃ F rest, s.inbox = .cmd F :: rest ∧ decode F = .malformed ∧ t = (s.opened rest).raise .malformed)
    ∨ (∃ rest, s.inbox = .tick :: rest ∧ tick (s.opened rest) = .next t)
    ∨ (∃ strap rest, s.inbox = .reset strap :: rest ∧ t = (s.opened rest).resetBlock strap) := by
  cases hin : s.inbox with
  | nil =>
    rw [step_waiting s hin, Host.Outcome.next.injEq] at h
    exact .inl ⟨rfl, h.symm⟩
  | cons e rest =>
    cases e with
    | cmd F =>
      rw [step_frame s F rest hin] at h
      cases hd : decode F with
      | command i =>
        rw [runFrame_command F i _ hd] at h
        exact .inr (.inl ⟨F, rest, i, rfl, hd, h⟩)
      | illegalCommand =>
        rw [runFrame_illegal F _ hd, Host.Outcome.next.injEq] at h
        exact .inr (.inr (.inl ⟨F, rest, rfl, hd, h.symm⟩))
      | malformed =>
        rw [runFrame_malformed F _ hd, Host.Outcome.next.injEq] at h
        exact .inr (.inr (.inr (.inl ⟨F, rest, rfl, hd, h.symm⟩)))
    | tick =>
      rw [step_tick s rest hin] at h
      exact .inr (.inr (.inr (.inr (.inl ⟨rest, rfl, h⟩))))
    | reset strap =>
      rw [step_reset s strap rest hin, Host.Outcome.next.injEq] at h
      exact .inr (.inr (.inr (.inr (.inr ⟨strap, rest, rfl, h.symm⟩))))

end Sys2Proof.Machine
end

