-- ==== Sys2Proof/Tests/Slice0.lean ====
section
/-! SUPPORT. Tests on fixed values. Expected values come from the spec: its encoding table (30_encoding.md R73) and its
vectors (95_test_vectors.md, named in the docstrings). After them, for every obligation that has hypotheses, a state and
operands that meet them all. -/

namespace Sys2Proof.Tests

open Sys2Proof Sys2Proof.Machine

/-! ### Helpers -/

/-- Parameters with `MIN_TIMER_MS = 1`, as the spec's vectors take it, and six distinct ids. -/
def params (mayFail : Bool) : Params := ⟨1, 7, 0x40, 0x41, 0x42, 0x43, 0x44, 0x45, mayFail⟩

/-- A block after reset with these parameters, this role and this schedule. -/
def node (isRoot mayFail : Bool) (inbox : List Event) : State where
  ep := EffectPlayer.atReset
  sq := Sequencer.atReset (params mayFail)
  pal := []
  isRoot := isRoot
  par := params mayFail
  draws := 0
  inbox := inbox
  out := []
  resp := none

/-- The response to a frame. -/
def answer (s : State) (F : List Byte) : Option Response :=
  match runFrame F s with
  | .next t => t.resp
  | .fault _ => none
  | .refused _ => none

/-- One field of the state a step answers. -/
def after {α : Type} (s : State) (field : State → α) : Option α :=
  match step s with
  | .next t => some (field t)
  | .fault _ => none
  | .refused _ => none

/-- A step of which a field can be read answered a next state. -/
theorem next_of_after (s : State) (h : (after s fun _ => ()).isSome = true) : ∃ t, step s = .next t := by
  unfold after at h
  split at h
  · exact ⟨_, ‹_›⟩
  · cases h
  · cases h

/-- An OK response. -/
def ok (payload : List Byte) : Option Response := some ⟨.ok, payload⟩

def white : Color := ⟨255, 255, 255⟩
def black : Color := ⟨0, 0, 0⟩
def red : Color := ⟨255, 0, 0⟩
def blue : Color := ⟨0, 0, 255⟩

/-- The group `F0 0F 00` over the whole palette, `fill(F0 0F 00)` in 30_encoding.md R86. -/
def redFill : List Byte := (List.replicate 128 [(0xF0 : Byte), 0x0F, 0x00]).flatten

def zeros : List Byte := List.replicate 384 0

/-- The descriptor of vector E1. -/
def strobeE1 : Descriptor := ⟨.strobe, white, black, 5, 3, 0, 2, 0⟩

/-- The descriptor of vector E10. -/
def fadeE10 : Descriptor := ⟨.fade, red, blue, 100, 60, 30, 1, 0⟩

/-- A child whose player is `e`, with one `TICK` to come. -/
def ticking (e : EffectPlayer) : State := { node false false [.tick] with ep := e }

/-- A root whose stepper runs at rhythm 1 and expires in the `TICK` to come. -/
def stepping (pointer : Byte) : State :=
  { node true false [.tick] with sq := ⟨1, pointer, true, ⟨true, 1⟩⟩, pal := Memory.load redFill }

/-! ### Well-formedness refuses ill-formed commands -/

theorem test_palSet_short_refused : (Instr.palSet (List.replicate 383 0)).wellFormed = false := by decide +kernel

theorem test_palSet_whole_accepted : (Instr.palSet (List.replicate 384 0)).wellFormed = true := by decide +kernel

theorem test_sqStore_long_refused : (Instr.sqStore 1 (List.replicate 385 0)).wellFormed = false := by decide +kernel

theorem test_msgEncSequence_empty_refused : (Instr.msgEncSequence 1 []).wellFormed = false := by decide

theorem test_msgDecode_overlong_refused : (Instr.msgDecode (List.replicate 65536 0)).wellFormed = false := by
  rw [Instr.wellFormed, List.length_replicate]
  decide

/-! ### Decoding: the frame of every command, byte by byte from 30_encoding.md R73 -/

/-- 30_encoding.md R89. -/
theorem test_decode_epPlay :
    decode [0x01, 0x01, 0xFF, 0xFF, 0xFF, 0x00, 0x00, 0x00, 0x05, 0x00, 0x00, 0x00, 0x03, 0x00, 0x00, 0x00,
      0x00, 0x00, 0x00, 0x00, 0x02, 0x00, 0x00, 0x00, 0x00, 0x00, 0x00, 0x00]
      = .command (.epPlay 1 white black 5 3 0 2 0) := by decide

/-- Every field of EP_PLAY at its own value, little-endian. -/
theorem test_decode_epPlay_fields :
    decode [0x01, 0x02, 0x11, 0x12, 0x13, 0x21, 0x22, 0x23, 0x31, 0x32, 0x33, 0x34, 0x41, 0x42, 0x43, 0x44,
      0x51, 0x52, 0x53, 0x54, 0x61, 0x62, 0x63, 0x64, 0x71, 0x72, 0x73, 0x74]
      = .command (.epPlay 2 ⟨0x11, 0x12, 0x13⟩ ⟨0x21, 0x22, 0x23⟩ 0x34333231 0x44434241 0x54535251 0x64636261
          0x74737271) := by decide

theorem test_decode_epStop : decode [0x02] = .command .epStop := by decide

theorem test_decode_epQuery : decode [0x03] = .command .epQuery := by decide

theorem test_decode_palSet : decode (0x10 :: redFill) = .command (.palSet redFill) := by decide +kernel

theorem test_decode_palGet : decode [0x11, 0x2C, 0x01] = .command (.palGet 300) := by decide

theorem test_decode_palPackPair :
    decode [0x12, 0x01, 0x02, 0x03, 0x04, 0x05, 0x06] = .command (.palPackPair 1 2 3 4 5 6) := by decide

theorem test_decode_palUnpackPair :
    decode [0x13, 0xAB, 0xCD, 0xEF] = .command (.palUnpackPair 0xAB 0xCD 0xEF) := by decide

theorem test_decode_palToDisplay : decode [0x14, 0x0F, 0x08, 0x01] = .command (.palToDisplay 15 8 1) := by decide

theorem test_decode_palQuantize : decode [0x15, 0xFF, 0x80, 0x0F] = .command (.palQuantize 255 128 15) := by decide

theorem test_decode_sqStore : decode (0x20 :: 0x19 :: redFill) = .command (.sqStore 25 redFill) := by decide +kernel

theorem test_decode_sqStart : decode [0x21] = .command .sqStart := by decide

theorem test_decode_sqStop : decode [0x22] = .command .sqStop := by decide

theorem test_decode_sqReset : decode [0x23] = .command .sqReset := by decide

theorem test_decode_sqQuery : decode [0x24] = .command .sqQuery := by decide

theorem test_decode_msgEncSequence : decode (0x30 :: 0x19 :: redFill) = .command (.msgEncSequence 25 redFill) := by decide +kernel

theorem test_decode_msgEncBeat : decode [0x31, 0x10] = .command (.msgEncBeat 16) := by decide

theorem test_decode_msgEncStart : decode [0x32] = .command .msgEncStart := by decide

theorem test_decode_msgEncStop : decode [0x33] = .command .msgEncStop := by decide

theorem test_decode_msgEncReset : decode [0x34] = .command .msgEncReset := by decide

theorem test_decode_msgEncSetcolor : decode [0x35, 0x12, 0x34, 0x56] = .command (.msgEncSetcolor 18 52 86) := by decide

theorem test_decode_msgDecode : decode [0x36, 0x02, 0x00, 0x41, 0x10] = .command (.msgDecode [0x41, 0x10]) := by decide

/-- Vectors F1, F3, F4, E18 in kind, M15. -/
theorem test_decode_rejects :
    decode [0x00] = .illegalCommand ∧ decode [0xFF, 0x01, 0x02] = .illegalCommand ∧ decode [] = .malformed
      ∧ decode [0x02, 0x00] = .malformed ∧ decode (0x01 :: List.replicate 26 1) = .malformed
      ∧ decode [0x36, 0x05, 0x00, 0xAA] = .malformed ∧ decode [0x36, 0x00] = .malformed := by decide

/-- A row's opcode byte alone, every bit above it zero, is a whole frame of zeros to the decoder. -/
theorem test_table_word_sqStore : decodeTableWord 8 0x20 = some (.sqStore 0 zeros) := by decide +kernel

theorem test_table_word_msgDecode : decodeTableWord 24 0x000236 = some (.msgDecode [0, 0]) := by decide

theorem test_table_word_unlisted : decodeTableWord 8 0x04 = none := by decide

/-! ### Commands, one step each -/

/-- Vector E1. -/
theorem test_epPlay_strobe :
    after (node false false [.cmd (encode (.epPlay 1 white black 5 3 0 2 0))]) (fun t => (t.ep, t.out, t.resp))
      = some (EffectPlayer.running strobeE1 .strobeOn 2 0 5, [.sink white], ok []) := by decide

/-- Vector E9, its first step. -/
theorem test_epPlay_fade_in_zero :
    after (node false false [.cmd (encode (.epPlay 2 red blue 0 0 10 1 0))])
        (fun t => (t.out, t.ep.phase, t.ep.timer.count))
      = some ([.sink red, .sink blue], .fadeHold, 10) := by decide

/-- Vector E6. -/
theorem test_epStop_idles :
    after { node false false [.cmd [0x02]] with ep := EffectPlayer.running strobeE1 .strobeOff 1 0 2 }
        (fun t => (t.ep, t.out, t.resp))
      = some (EffectPlayer.atReset, [], ok []) := by decide

/-- Vector E16. -/
theorem test_epQuery_after_strobe :
    answer { node false false [] with ep := EffectPlayer.running strobeE1 .strobeOn 2 0 5 } [0x03]
      = ok [0x01, 0x01, 0x02, 0, 0, 0, 0, 0, 0, 0, 0x01, 0x05, 0, 0, 0] := by decide

/-- Vector E17. -/
theorem test_epQuery_in_fade :
    answer { node false false [] with ep := EffectPlayer.running fadeE10 .fadeIn 1 40 20 } [0x03]
      = ok [0x03, 0x02, 0x01, 0, 0, 0, 0x28, 0, 0, 0, 0x01, 0x14, 0, 0, 0] := by decide

/-- Vector P-W1: the last square of the palette. -/
theorem test_palSet_then_read :
    square (Memory.load redFill) 255 = ⟨15, 0, 0⟩ ∧ (Memory.load redFill).wf = true := by decide +kernel

/-- Vectors P-S1 and P-S2. -/
theorem test_palGet_both_halves :
    answer { node false false [] with pal := [(0, 0xAB), (1, 0xCD), (2, 0xEF)] } [0x11, 0x00, 0x00]
        = ok [0x0A, 0x0B, 0x0C, 0xA0, 0xB0, 0xC0]
      ∧ answer { node false false [] with pal := [(0, 0xAB), (1, 0xCD), (2, 0xEF)] } [0x11, 0x01, 0x00]
        = ok [0x0D, 0x0E, 0x0F, 0xD0, 0xE0, 0xF0] := by decide

/-- Vectors P-S4 and P-S5. -/
theorem test_palGet_bounds :
    answer { node false false [] with pal := [(381, 0x12), (382, 0x34), (383, 0x56)] } [0x11, 0xFF, 0x00]
        = ok [0x04, 0x05, 0x06, 0x40, 0x50, 0x60]
      ∧ answer (node false false []) [0x11, 0x00, 0x01] = some ⟨.invalidArgument, []⟩ := by decide

/-- Vectors P-P2 and P-P5. -/
theorem test_palPackPair :
    answer (node false false []) [0x12, 1, 2, 3, 4, 5, 6] = ok [0x12, 0x34, 0x56]
      ∧ answer (node false false []) [0x12, 16, 0, 0, 0, 0, 0] = some ⟨.invalidArgument, []⟩ := by decide

/-- Vector P-U1. -/
theorem test_palUnpackPair :
    answer (node false false []) [0x13, 0xAB, 0xCD, 0xEF] = ok [0x0A, 0x0B, 0x0C, 0x0D, 0x0E, 0x0F] := by decide

/-- Vectors P-D3 and P-D4. -/
theorem test_palToDisplay :
    answer (node false false []) [0x14, 15, 8, 1] = ok [0xF0, 0x80, 0x10]
      ∧ answer (node false false []) [0x14, 0, 0, 16] = some ⟨.invalidArgument, []⟩ := by decide

/-- Vector P-Q2. -/
theorem test_palQuantize : answer (node false false []) [0x15, 16, 240, 239] = ok [0x01, 0x0F, 0x0E] := by decide

/-- The example of 42_sequence.md R163, and vector Q1's answer on a child. -/
theorem test_sqStore :
    after (node true false [.cmd (0x20 :: 0x19 :: redFill)]) (fun t => (t.sq, t.out, t.resp))
        = some (⟨25, 0, true, ⟨true, 250⟩⟩, [.msg (0x40 :: 25 :: redFill)], ok [])
      ∧ answer (node false false []) (0x20 :: 0x19 :: redFill) = some ⟨.wrongRole, []⟩ := by decide +kernel

/-- 42_sequence.md R163 at both ends of the rhythm range: 255 is stored, 0 is refused. -/
theorem test_rhythm_bounds : isRhythm 255 = true ∧ isRhythm 1 = true ∧ isRhythm 0 = false := by decide

/-- Vector Q11. -/
theorem test_sqStart :
    after { node true false [.cmd [0x21]] with sq := ⟨25, 40, false, ⟨false, 0⟩⟩ } (fun t => (t.sq, t.out, t.resp))
      = some (⟨25, 0, true, ⟨true, 250⟩⟩, [.msg [0x42]], ok []) := by decide

/-- Vector Q10. -/
theorem test_sqStop :
    after { node true false [.cmd [0x22]] with sq := ⟨25, 40, true, ⟨true, 9⟩⟩ } (fun t => (t.sq, t.out, t.resp))
      = some (⟨25, 40, false, ⟨false, 0⟩⟩, [.msg [0x43]], ok []) := by decide

/-- Vector Q8. -/
theorem test_sqReset_stopped :
    after { node true false [.cmd [0x23]] with sq := ⟨25, 9, false, ⟨false, 0⟩⟩ } (fun t => (t.sq, t.out, t.resp))
      = some (⟨25, 0, false, ⟨false, 0⟩⟩, [.msg [0x44]], ok []) := by decide

/-- Vector Q9. -/
theorem test_sqReset_active :
    after { node true false [.cmd [0x23]] with sq := ⟨25, 5, true, ⟨true, 220⟩⟩ } (fun t => (t.sq, t.out, t.resp))
      = some (⟨25, 0, true, ⟨true, 250⟩⟩, [.msg [0x44]], ok []) := by decide

/-- Vectors Q14 and Q15. -/
theorem test_sqQuery :
    answer { node true false [] with sq := ⟨25, 0, true, ⟨true, 250⟩⟩ } [0x24] = ok [0x19, 0, 1, 0xFA, 0, 1]
      ∧ answer (node false false []) [0x24] = ok [7, 0, 0, 0, 0, 0] := by decide

/-- Vectors M1, M3 and M4. -/
theorem test_encoders :
    answer (node false false []) [0x31, 0x10] = ok [0x41, 0x10]
      ∧ answer (node false false []) [0x32] = ok [0x42] ∧ answer (node false false []) [0x33] = ok [0x43]
      ∧ answer (node false false []) [0x34] = ok [0x44]
      ∧ answer (node false false []) [0x35, 255, 0, 128] = ok [0x45, 0xFF, 0x00, 0x80] := by decide

/-- Vectors M5 and M6. -/
theorem test_msgEncSequence :
    answer (node false false []) (0x30 :: 25 :: redFill) = ok (0x40 :: 0x19 :: redFill)
      ∧ answer (node false false []) (0x30 :: 0 :: redFill) = some ⟨.invalidArgument, []⟩ := by decide +kernel

/-- Vectors M7 to M10, M13 and M14. -/
theorem test_msgDecode_short :
    answer (node false false []) [0x36, 2, 0, 0x41, 0x10] = ok [1, 0x10]
      ∧ answer (node false false []) [0x36, 3, 0, 0x41, 0x10, 0] = some ⟨.malformed, []⟩
      ∧ answer (node false false []) [0x36, 0, 0] = some ⟨.malformed, []⟩
      ∧ answer (node false false []) [0x36, 1, 0, 0x99] = some ⟨.unknownMessage, []⟩
      ∧ answer (node false false []) [0x36, 4, 0, 0x45, 1, 2, 3] = ok [5, 1, 2, 3]
      ∧ answer (node false false []) [0x36, 1, 0, 0x43] = ok [3] := by decide

/-- Vectors M11 and M12. -/
theorem test_msgDecode_sequence :
    decodeMessage (params false) (0x40 :: 0 :: redFill) = (.invalidArgument, [])
      ∧ decodeMessage (params false) (0x40 :: 25 :: redFill) = (.ok, 0 :: 25 :: redFill) := by decide +kernel

/-! ### Interpolation and `TICK`s -/

/-- Vectors I1, I4, I7, I8, I10 and I11. -/
theorem test_interp :
    interp 255 0 20 100 = 204 ∧ interp 10 20 20 30 = 16 ∧ interp 7 200 0 50 = 7 ∧ interp 7 200 50 50 = 200
      ∧ interp 255 255 20 4294967295 = 255 ∧ interp 0 255 20 4294967295 = 0 := by decide

/-- Vector E2, its last `TICK`. -/
theorem test_tick_strobe_off :
    after (ticking (EffectPlayer.running strobeE1 .strobeOn 2 0 1)) (fun t => (t.ep, t.out, t.resp))
      = some (EffectPlayer.running strobeE1 .strobeOff 1 0 3, [.sink black], none) := by decide

/-- Vector E3, its last `TICK`. -/
theorem test_tick_strobe_finishes :
    after (ticking (EffectPlayer.running strobeE1 .strobeOn 1 0 1)) (fun t => (t.ep, t.out))
      = some (EffectPlayer.atReset, [.sink black]) := by decide

/-- Vector E10, at 20. -/
theorem test_tick_fade_in :
    after (ticking (EffectPlayer.running fadeE10 .fadeIn 1 0 1)) (fun t => (t.ep, t.out))
      = some (EffectPlayer.running fadeE10 .fadeIn 1 20 20, [.sink ⟨204, 0, 51⟩]) := by decide

/-- Vector E10, at 190. -/
theorem test_tick_fade_ends :
    after (ticking (EffectPlayer.running fadeE10 .fadeOut 1 40 1)) (fun t => (t.ep, t.out))
      = some (EffectPlayer.atReset, [.sink red]) := by decide

/-- Vector Q4, its 160th `TICK`. -/
theorem test_tick_sequence_beat :
    after (stepping 15) (fun t => (t.sq, t.out))
      = some (⟨1, 16, true, ⟨true, 10⟩⟩, [.sink ⟨240, 0, 0⟩, .msg [0x41, 0x10]]) := by decide +kernel

/-- 42_sequence.md R162: the pointer wraps from 255 to 0, and its BEAT carries 0. -/
theorem test_tick_sequence_wraps :
    after (stepping 255) (fun t => (t.sq.pointer, t.out))
      = some (0, [.sink ⟨240, 0, 0⟩, .msg [0x41, 0x00]]) := by decide +kernel

/-! ### Witnesses: for each obligation with hypotheses, what meets them, each clause at a boundary -/

theorem params_legal (mayFail : Bool) : ParamsLegal (params mayFail) := by
  cases mayFail <;> constructor <;> decide

/-- The reset-like states of these tests meet the invariant. -/
theorem node_inv (isRoot mayFail : Bool) (inbox : List Event) : (node isRoot mayFail inbox).Inv where
  params := params_legal mayFail
  effect := atReset_inv
  sequence := by constructor <;> simp [node, Sequencer.atReset, params]
  palette := rfl
  child_stopped := fun _ => rfl

/-- A strobe's off period, a strobe with two toggles to go. -/
theorem strobe_inv (phase : Phase) (remaining : Word32) (hp : phase = .strobeOn ∨ phase = .strobeOff)
    (hr : remaining = 1 ∨ remaining = 2) : EffectInv (EffectPlayer.running strobeE1 phase remaining 0 1) := by
  rcases hp with rfl | rfl <;> rcases hr with rfl | rfl <;> constructor <;> decide

/-- A root whose stepper runs from pointer 0 with a full period of rhythm 1 armed, the player IDLE. -/
def playing (inbox : List Event) : State :=
  { node true false inbox with sq := ⟨1, 0, true, ⟨true, 10⟩⟩, pal := [(0, 0xF0), (383, 0x0F)] }

theorem playing_inv (inbox : List Event) : (playing inbox).Inv where
  params := params_legal false
  effect := atReset_inv
  sequence := by
    show SequenceInv ⟨1, 0, true, ⟨true, 10⟩⟩
    constructor <;> decide
  palette := by
    show Memory.wf [(0, 0xF0), (383, 0x0F)] = true
    decide
  child_stopped := fun h => Bool.noConfusion h

theorem witness_DecodeOfEncodeIsTheCommand :
    (Instr.sqStore 0 zeros).wellFormed = true ∧ (Instr.msgDecode (List.replicate 65535 0)).wellFormed = true
      ∧ (Instr.msgDecode []).wellFormed = true := by
  refine ⟨by decide +kernel, ?_, rfl⟩
  rw [Instr.wellFormed, List.length_replicate]
  decide

theorem witness_AcceptedFramesAreEncodings :
    decode [0x11, 0xFF, 0xFF] = .command (.palGet 0xFFFF) ∧ decode [0x36, 0, 0] = .command (.msgDecode []) := by decide

theorem witness_UnlistedOpcodesRaiseIllegalCommand :
    (node true false [.cmd [0x00]]).inbox = .cmd (0x00 :: []) :: []
      ∧ ∀ op ∈ ([0x00, 0x04, 0x0F, 0x16, 0x1F, 0x25, 0x2F, 0x37, 0xFF] : List Byte),
          op.toNat = 0 ∨ (0x04 ≤ op.toNat ∧ op.toNat ≤ 0x0F) ∨ (0x16 ≤ op.toNat ∧ op.toNat ≤ 0x1F)
            ∨ (0x25 ≤ op.toNat ∧ op.toNat ≤ 0x2F) ∨ 0x37 ≤ op.toNat := by decide

/-- An empty frame, a frame one byte short and one too long, and the three ways a MSG_DECODE frame is wrong. -/
theorem witness_WrongLengthsRaiseMalformed :
    (∀ F ∈ ([[], [0x11, 0x00], [0x02, 0x00], [0x36, 0x00], [0x36, 0x01, 0x00]] : List (List Byte)),
      (node true false [.cmd F]).inbox = .cmd F :: [])
    ∧ (([0x11, 0x00] : List Byte).head? = some 0x11 ∧ ([0x11, 0x00] : List Byte).length ≠ 3)
    ∧ (([0x02, 0x00] : List Byte).head? = some 0x02 ∧ ([0x02, 0x00] : List Byte).length ≠ 1)
    ∧ (([0x36, 0x00] : List Byte).head? = some 0x36 ∧ ([0x36, 0x00] : List Byte).length < 3)
    ∧ (([0x36, 0x01, 0x00] : List Byte).head? = some 0x36 ∧ ([0x36, 0x01, 0x00] : List Byte).length ≠ 3 + (1 + 256 * 0)) := by
  decide

theorem witness_StepRunsTheDecodedCommand :
    (node true false [.cmd [0x02], .tick]).inbox = .cmd [0x02] :: [.tick] ∧ decode [0x02] = .command .epStop
      ∧ decodeTableWord 8 0x02 = some .epStop := by decide

/-- A finite strobe in its last `on` period, and what a `TICK` leaves of it, then and for ever after. -/
def lastToggle : Nat → State
  | 0 => { node false false [] with ep := EffectPlayer.running strobeE1 .strobeOn 1 0 1 }
  | 1 => { node false false [] with out := [.sink black] }
  | _ + 2 => node false false []

/-- A fair infinite run of a finite effect: a `TICK` at every step, and no EP_PLAY. -/
theorem witness_FairEnvironmentsMakeProgress_effect :
    InfiniteRun (fun _ => .tick) lastToggle ∧ (lastToggle 0).Inv ∧ FairEnvironment (fun _ => .tick)
      ∧ NeverSends (fun _ => .tick) [0x01] ∧ (lastToggle 0).ep.desc.repeatCount ≠ 0 := by
  refine ⟨fun n => ?_, ?_, fun n => ⟨n, Nat.le_refl n, rfl⟩, fun _ _ _ h => (by cases h), by decide⟩
  · match n with
    | 0 => rfl
    | 1 => rfl
    | _ + 2 => rfl
  · exact ⟨params_legal false, strobe_inv _ _ (.inl rfl) (.inl rfl), (node_inv false false []).sequence, rfl,
      fun _ => rfl⟩

/-- A stepper at each `TICK` after its start. -/
def played : Nat → State
  | 0 => playing []
  | n + 1 =>
    let u := (played n).opened []
    if u.sq.timer.expires then runSequenceExpiry u.countedDown else u.countedDown

theorem played_kept (n : Nat) : (played n).ep = EffectPlayer.atReset ∧ (played n).inbox = [] := by
  induction n with
  | zero => exact ⟨rfl, rfl⟩
  | succ n ih =>
    simp only [played]
    split <;> simp [runSequenceExpiry, ih.1] <;> rfl

/-- A fair infinite run of a stepper: a `TICK` at every step, no stepper command and no reset. -/
theorem witness_FairEnvironmentsMakeProgress_stepper :
    InfiniteRun (fun _ => .tick) played ∧ (played 0).Inv ∧ FairEnvironment (fun _ => .tick)
      ∧ NeverResets (fun _ => .tick) ∧ NeverSends (fun _ => .tick) [0x20, 0x21, 0x22, 0x23]
      ∧ (played 0).sq.active = true := by
  refine ⟨fun n => ?_, playing_inv _, fun n => ⟨n, Nat.le_refl n, rfl⟩, fun _ _ h => (by cases h),
    fun _ _ _ h => (by cases h), rfl⟩
  obtain ⟨he, hin⟩ := played_kept n
  have hx : ((played n).opened []).ep.timer.expires = false := by rw [State.opened_ep, he]; rfl
  rw [step_tick _ (played n).inbox rfl, hin]
  cases hq : ((played n).opened []).sq.timer.expires
  · exact (tick_quiet ((played n).opened []) hx hq).trans (by simp only [played, hq]; rfl)
  · exact (tick_sequence ((played n).opened []) hx hq).trans (by simp only [played, hq]; rfl)

/-- A root on which a strobe and the stepper run. -/
def strobing : State := { playing [] with ep := EffectPlayer.running strobeE1 .strobeOn 2 0 1 }

/-- An infinite run with no `TICK`: the host asks EP_QUERY for ever. -/
def asked : Nat → State
  | 0 => strobing
  | _ + 1 => strobing.respond .ok strobing.ep.report

theorem witness_FairEnvironmentsMakeProgress_still :
    InfiniteRun (fun _ => .cmd [0x03]) asked ∧ (asked 0).Inv ∧ (∀ n : Nat, (fun _ => Event.cmd [0x03]) n ≠ .tick)
      ∧ NeverResets (fun _ => .cmd [0x03]) ∧ NeverSends (fun _ => .cmd [0x03]) [0x01, 0x02]
      ∧ NeverSends (fun _ => .cmd [0x03]) [0x20, 0x21, 0x22, 0x23] := by
  refine ⟨fun n => ?_, ?_, fun _ h => (by cases h), fun _ _ h => (by cases h), ?_, ?_⟩
  · cases n <;> rfl
  · exact ⟨params_legal false, strobe_inv _ _ (.inl rfl) (.inr rfl), (playing_inv []).sequence, (playing_inv []).palette,
      (playing_inv []).child_stopped⟩
  · rintro _ _ op ⟨⟩ ⟨⟩
    decide
  · rintro _ _ op ⟨⟩ ⟨⟩
    decide

theorem witness_ResetEventResetsTheBlock :
    (node false false [.reset true, .tick]).inbox = .reset true :: [.tick] := by decide

theorem witness_EveryStepKeepsTheInvariant :
    (playing [.tick]).Inv ∧ ∃ t, step (playing [.tick]) = .next t := ⟨playing_inv _, _, rfl⟩

theorem witness_NoRunEverStops : (node true true [.tick, .cmd [0x21], .reset false]).Inv := node_inv _ _ _

theorem witness_ChildNeverEmitsAMessage :
    (node false false [.reset true]).Inv ∧ (node false false [.reset true]).isRoot = false
      ∧ ∃ t, step (node false false [.reset true]) = .next t ∧ t.isRoot = true := ⟨node_inv _ _ _, rfl, _, rfl, rfl⟩

theorem witness_RoleChangesOnlyAtReset :
    (∃ t, step (node false false [.tick]) = .next t)
      ∧ ∀ strap rest, (node false false [.tick]).inbox ≠ .reset strap :: rest :=
  ⟨⟨_, rfl⟩, fun _ _ h => by cases h⟩

/-- Two machines whose players differ and whose steppers agree, and two of the other kind. -/
theorem witness_EnginesAreIndependent :
    let running : State := { playing [.tick] with ep := EffectPlayer.running strobeE1 .strobeOn 2 0 5 }
    let idle : State := playing [.tick]
    let stopped : State := node true false [.tick]
    (running.par = idle.par ∧ idle.par.allocMayFail = false ∧ running.inbox = idle.inbox
        ∧ (∃ t, step running = .next t) ∧ (∃ t, step idle = .next t)
        ∧ running.sq = idle.sq ∧ running.pal = idle.pal ∧ running.isRoot = idle.isRoot)
      ∧ stopped.par = idle.par ∧ stopped.inbox = idle.inbox ∧ (∃ t, step stopped = .next t) ∧ stopped.ep = idle.ep :=
  ⟨⟨rfl, rfl, rfl, ⟨_, rfl⟩, ⟨_, rfl⟩, rfl, rfl, rfl⟩, rfl, rfl, ⟨_, rfl⟩, rfl⟩

theorem witness_EnginesAreIndependent_with_draws :
    let running : State := { node true true [.cmd [0x21]] with ep := EffectPlayer.running strobeE1 .strobeOn 2 0 5 }
    let idle : State := node true true [.cmd [0x21]]
    running.par = idle.par ∧ running.draws = idle.draws ∧ running.inbox = idle.inbox
      ∧ (∃ t, step running = .next t) ∧ ∃ t, step idle = .next t :=
  ⟨rfl, rfl, rfl, ⟨_, rfl⟩, ⟨_, rfl⟩⟩

/-- A refusal by the command, and one by the decoder. -/
theorem witness_RefusedCommandsChangeNothing :
    (∃ t, runFrame [0x11, 0x00, 0x01] (node true false []) = .next t ∧ t.resp = some ⟨.invalidArgument, []⟩
        ∧ Status.invalidArgument ≠ .ok
        ∧ ¬ (([0x11, 0x00, 0x01] : List Byte).head? = some 0x01 ∧ Status.invalidArgument = .resourceExhausted))
      ∧ ∃ t, runFrame [0x01] (node true false []) = .next t ∧ t.resp = some ⟨.malformed, []⟩
        ∧ Status.malformed ≠ .ok
        ∧ ¬ (([0x01] : List Byte).head? = some 0x01 ∧ Status.malformed = .resourceExhausted) :=
  ⟨⟨_, rfl, by decide, by decide, by decide⟩, ⟨_, rfl, by decide, by decide, by decide⟩⟩

theorem witness_EveryCommandAnswersOneResponse : (Instr.palSet zeros).wellFormed = true := by decide +kernel

theorem witness_CommandsWriteOnlyTheirOwnState :
    ∀ i ∈ [Instr.epPlay 1 white black 5 3 0 2 0, .epStop, .epQuery, .palSet zeros, .sqStore 25 redFill, .sqStop, .sqQuery],
      ∃ t, exec i (node true false []) = .next t := by
  intro i _
  cases i <;> exact ⟨_, rfl⟩

theorem witness_PaletteIsReplacedOnlyAsAWhole :
    (∃ t, step (node true false [.cmd (0x10 :: redFill)]) = .next t)
      ∧ (∃ t, step (node true false [.cmd (0x20 :: 0x19 :: redFill)]) = .next t)
      ∧ (∃ t, step (node true false [.reset true]) = .next t) ∧ ∃ t, step (node true false [.tick]) = .next t :=
  ⟨next_of_after _ (by decide +kernel), next_of_after _ (by decide +kernel), ⟨_, rfl⟩, ⟨_, rfl⟩⟩

theorem witness_EpPlayStartsAStrobe : (node false false []).par.allocMayFail = false := rfl

/-- Both of `t0 = 0` and `t0 = 1` are operands of a fade. -/
theorem witness_EpPlayStartsAFade :
    (node true false []).par.allocMayFail = false ∧ (0 : Word32) = 0 ∧ (1 : Word32) ≠ 0 := by decide

theorem witness_EpPlayWaitsItsStartDelay :
    (node true false []).par.allocMayFail = false
      ∧ ((1 : Byte) = 1 ∧ EffectKind.strobe = .strobe ∨ (1 : Byte) = 2 ∧ EffectKind.strobe = .fade)
      ∧ ((2 : Byte) = 1 ∧ EffectKind.fade = .strobe ∨ (2 : Byte) = 2 ∧ EffectKind.fade = .fade)
      ∧ (1 : Word32) ≠ 0 ∧ (0xFFFFFFFF : Word32) ≠ 0 := by decide

theorem witness_EpPlayRefusesOtherKinds :
    ∀ kind ∈ ([0, 3, 255] : List Byte), kind = 0 ∨ 3 ≤ kind.toNat := by decide

/-- Whatever the first draw is, one of the two clauses is met by it. -/
theorem witness_EpPlayFailsToAllocate :
    (node false true []).par.allocMayFail = true ∧ ((1 : Byte) = 1 ∨ (1 : Byte) = 2) ∧ ((2 : Byte) = 1 ∨ (2 : Byte) = 2)
      ∧ (Config.allocFails (node false true []).draws = true ∨ Config.allocFails (node false true []).draws = false) := by
  refine ⟨rfl, by decide, by decide, ?_⟩
  cases Config.allocFails (node false true []).draws <;> simp

theorem witness_EpQueryReportsThePlayer :
    EffectInv (node false false []).ep ∧ (node false false []).ep.phase = .idle := ⟨atReset_inv, rfl⟩

theorem witness_InterpolationIsExactAndBetweenItsEnds :
    0 < 1 ∧ 1 ≤ 1 ∧ 0 < 1 ∧ (0 < 4294967295 ∧ 4294967294 < 4294967295) := by decide

/-- The sequence timer of a state that `ticking` builds does not expire, and its `TICK` is next. -/
theorem ticking_ready (e : EffectPlayer) :
    (ticking e).inbox = .tick :: [] ∧ (ticking e).sq.timer.expires = false ∧ (ticking e).ep = e := ⟨rfl, rfl, rfl⟩

theorem witness_StrobeExpiryToggles :
    let forever : Descriptor := { strobeE1 with repeatCount := 0 }
    let last := ticking (EffectPlayer.running strobeE1 .strobeOn 1 0 1)
    (last.inbox = .tick :: [] ∧ last.sq.timer.expires = false
        ∧ last.ep = EffectPlayer.running strobeE1 .strobeOn 1 0 1 ∧ strobeE1.repeatCount ≠ 0)
      ∧ ((ticking (EffectPlayer.running forever .strobeOn 0 0 1)).ep = EffectPlayer.running forever .strobeOn 0 0 1
          ∧ forever.repeatCount = 0)
      ∧ ((ticking (EffectPlayer.running strobeE1 .strobeOn 2 0 1)).ep = EffectPlayer.running strobeE1 .strobeOn 2 0 1
          ∧ (2 : Word32) ≠ 1)
      ∧ (ticking (EffectPlayer.running strobeE1 .strobeOff 1 0 1)).ep = EffectPlayer.running strobeE1 .strobeOff 1 0 1 := by
  decide

theorem witness_DelayExpiryEntersTheFirstPhase :
    (ticking (EffectPlayer.running strobeE1 .delay 2 0 1)).inbox = .tick :: []
      ∧ (ticking (EffectPlayer.running strobeE1 .delay 2 0 1)).sq.timer.expires = false
      ∧ (ticking (EffectPlayer.running strobeE1 .delay 2 0 1)).ep = EffectPlayer.running strobeE1 .delay 2 0 1
      ∧ strobeE1.kind = .strobe
      ∧ (ticking (EffectPlayer.running fadeE10 .delay 1 0 1)).ep = EffectPlayer.running fadeE10 .delay 1 0 1
      ∧ fadeE10.kind = .fade := by decide

/-- The last interpolated color of a 21 ms fade, the end of a 20 ms fade, and the last tick of the longest fade. -/
theorem witness_FadeInTickInterpolatesOrHolds :
    let fade (t0 : Word32) : Descriptor := { fadeE10 with t0 := t0 }
    let state (t0 elapsed : Word32) := ticking (EffectPlayer.running (fade t0) .fadeIn 1 elapsed 1)
    ((state 21 0).inbox = .tick :: [] ∧ (state 21 0).sq.timer.expires = false
        ∧ (state 21 0).ep = EffectPlayer.running (fade 21) .fadeIn 1 0 1 ∧ (0 : Word32).toNat + 20 < (fade 21).t0.toNat)
      ∧ ((state 20 0).ep = EffectPlayer.running (fade 20) .fadeIn 1 0 1 ∧ (fade 20).t0.toNat ≤ (0 : Word32).toNat + 20)
      ∧ (fade 4294967295).t0.toNat ≤ (4294967280 : Word32).toNat + 20 := by decide

theorem witness_FadeHoldExpiryEntersFadeOut :
    let cut : Descriptor := { fadeE10 with t1 := 0 }
    ((ticking (EffectPlayer.running fadeE10 .fadeHold 1 0 1)).inbox = .tick :: []
        ∧ (ticking (EffectPlayer.running fadeE10 .fadeHold 1 0 1)).sq.timer.expires = false
        ∧ (ticking (EffectPlayer.running fadeE10 .fadeHold 1 0 1)).ep = EffectPlayer.running fadeE10 .fadeHold 1 0 1
        ∧ fadeE10.t1 ≠ 0)
      ∧ (ticking (EffectPlayer.running cut .fadeHold 1 0 1)).ep = EffectPlayer.running cut .fadeHold 1 0 1
      ∧ cut.t1 = 0 := by decide

theorem witness_FadeOutTickInterpolatesOrCompletes :
    let fade (t1 : Word32) : Descriptor := { fadeE10 with t1 := t1 }
    let state (t1 elapsed : Word32) := ticking (EffectPlayer.running (fade t1) .fadeOut 1 elapsed 1)
    ((state 21 0).inbox = .tick :: [] ∧ (state 21 0).sq.timer.expires = false
        ∧ (state 21 0).ep = EffectPlayer.running (fade 21) .fadeOut 1 0 1 ∧ (0 : Word32).toNat + 20 < (fade 21).t1.toNat)
      ∧ ((state 20 0).ep = EffectPlayer.running (fade 20) .fadeOut 1 0 1 ∧ (fade 20).t1.toNat ≤ (0 : Word32).toNat + 20) := by
  decide

/-- One toggle of a strobe with `duration_on_ms` 0, which waits `MIN_TIMER_MS`. -/
theorem witness_FiniteStrobeRunsItsToggles :
    let ticks := 1 * waitOf (params false) 0 + (1 - 1) * waitOf (params false) 3
    let s := node false false (commandThenTicks (.epPlay 1 white black 0 3 0 1 0) ticks)
    s.Inv ∧ s.sq.active = false ∧ s.par.allocMayFail = false ∧ (1 : Word32) ≠ 0
      ∧ s.inbox = commandThenTicks (.epPlay 1 white black 0 3 0 1 0)
          ((1 : Word32).toNat * waitOf s.par (0 : Word32).toNat + ((1 : Word32).toNat - 1) * waitOf s.par (3 : Word32).toNat) :=
  ⟨node_inv _ _ _, rfl, rfl, by decide, rfl⟩

theorem witness_FiniteFadeRunsItsCycles :
    let ticks := 1 * (fadeTicks 21 + waitOf (params false) 0 + fadeTicks 0)
    let s := node false false (commandThenTicks (.epPlay 2 red blue 21 0 0 1 0) ticks)
    s.Inv ∧ s.sq.active = false ∧ s.par.allocMayFail = false ∧ (1 : Word32) ≠ 0
      ∧ s.inbox = commandThenTicks (.epPlay 2 red blue 21 0 0 1 0)
          ((1 : Word32).toNat
            * (fadeTicks (21 : Word32).toNat + waitOf s.par (0 : Word32).toNat + fadeTicks (0 : Word32).toNat)) :=
  ⟨node_inv _ _ _, rfl, rfl, by decide, rfl⟩

theorem witness_StartDelayPostponesTheEffect :
    let s := node false false (commandThenTicks (.epPlay 1 white black 5 3 0 2 1) 1)
    s.Inv ∧ s.sq.active = false ∧ s.par.allocMayFail = false ∧ ((1 : Byte) = 1 ∨ (1 : Byte) = 2) ∧ (1 : Word32) ≠ 0
      ∧ s.out = [] ∧ s.inbox = commandThenTicks (.epPlay 1 white black 5 3 0 2 1) (1 : Word32).toNat :=
  ⟨node_inv _ _ _, rfl, rfl, by decide, by decide, rfl, rfl⟩

/-- An EP_STOP while a strobe runs, three `TICK`s after it. -/
theorem witness_NothingIsWrittenAfterEpStop :
    let s : State :=
      { node false false (commandThenTicks .epStop 3) with ep := EffectPlayer.running strobeE1 .strobeOn 2 0 1 }
    s.Inv ∧ s.sq.active = false ∧ s.inbox = commandThenTicks .epStop 3 :=
  ⟨⟨params_legal false, strobe_inv _ _ (.inl rfl) (.inr rfl), (node_inv false false []).sequence, rfl, fun _ => rfl⟩,
    rfl, rfl⟩

theorem witness_PalSetReplacesThePalette : redFill.length = 384 := by decide +kernel

theorem witness_PalGetReadsTheSquare :
    (255 : Word16).toNat ≤ 255 ∧ (0 : Word16).toNat ≤ 255 ∧ 255 < (256 : Word16).toNat := by decide

theorem witness_PalPackPairPacksNibbles :
    (∀ x ∈ ([15, 0, 15, 0, 15, 0] : List Byte), x.toNat ≤ 15)
      ∧ ∃ x ∈ ([15, 0, 15, 0, 15, 16] : List Byte), 15 < x.toNat := by decide

theorem witness_PalToDisplayScalesNibbles :
    (∀ x ∈ ([15, 0, 15] : List Byte), x.toNat ≤ 15) ∧ ∃ x ∈ ([16, 0, 0] : List Byte), 15 < x.toNat := by decide

/-- The last group of the palette. -/
theorem witness_PackingAndReadingSquaresRoundTrip :
    let buffer : List Byte := List.replicate 381 0 ++ [0x12, 0x34, 0x56]
    127 < 128 ∧ buffer.length = 384 ∧ (buffer.drop (3 * 127)).take 3 = packPair ⟨1, 2, 3⟩ ⟨4, 5, 6⟩ := by
  decide +kernel

/-- Vector T1: a state in which both timers expire in the next `TICK`. -/
def both : State := { stepping 15 with ep := EffectPlayer.running strobeE1 .strobeOn 2 0 1 }

/-- A step at the last square. -/
theorem witness_StepperColorsAreMultiplesOfSixteen :
    (stepping 255).ep.timer.expires = false ∧ (stepping 255).inbox = .tick :: []
      ∧ Output.sink ⟨240, 0, 0⟩ ∈ (seqStep (params false) (Memory.load redFill) (stepping 255).sq).2
      ∧ after (stepping 255) (fun t => decide (Output.sink ⟨240, 0, 0⟩ ∈ t.out)) = some true := by decide +kernel

/-- The stepper's color in a `TICK` in which the effect expires too, in either order. -/
theorem witness_StepperColorsAreMultiplesOfSixteen_both :
    both.ep.timer.expires = true ∧ both.inbox = .tick :: []
      ∧ (∃ t, step both = .next t ∧ Output.sink ⟨240, 0, 0⟩ ∈ t.out)
      ∧ ∃ r, effectExpiry both.par { both.ep with timer := ⟨false, 0⟩ } = some r ∧ Output.sink ⟨240, 0, 0⟩ ∉ r.2 := by
  refine ⟨by decide, rfl, ⟨_, (step_tick both [] rfl).trans ((tick_both (both.opened []) (by decide) (by decide)).trans
    (runBothExpiries_eq (both.opened []).countedDown _ rfl)), ?_⟩, _, rfl, by decide⟩
  have hsq : Output.sink ⟨240, 0, 0⟩ ∈ (seqStep (params false) (Memory.load redFill) ⟨1, 15, true, ⟨false, 0⟩⟩).2 := by
    decide +kernel
  dsimp only
  split
  · exact List.mem_append_left _ (List.mem_append_right _ hsq)
  · exact List.mem_append_right _ hsq

theorem witness_SqStoreLoadsAndRestarts :
    (node true false []).isRoot = true ∧ (node true false []).par.allocMayFail = false ∧ (255 : Byte) ≠ 0
      ∧ redFill.length = 384 := by decide +kernel

theorem witness_SqStartRestarts :
    (node true false []).isRoot = true ∧ (node true false []).par.allocMayFail = false
      ∧ (node true false []).sq.rhythm ≠ 0 := by decide

theorem witness_SqStopStops : (node true true []).isRoot = true ∧ (node false false []).isRoot = false := ⟨rfl, rfl⟩

/-- A stopped stepper where allocation may fail, and a running one where it cannot. -/
theorem witness_SqResetReturnsToSquareZero :
    ((node true true []).isRoot = true
        ∧ ((node true true []).par.allocMayFail = false ∨ (node true true []).sq.active = false)
        ∧ (node true true []).sq.rhythm ≠ 0)
      ∧ (playing []).isRoot = true ∧ ((playing []).par.allocMayFail = false ∨ (playing []).sq.active = false)
      ∧ (playing []).sq.rhythm ≠ 0 ∧ (playing []).sq.active = true := by decide

theorem witness_ChildrenAreRefusedTheStepper : (node false true []).isRoot = false := rfl

theorem witness_StepperRefusalsKeepItsState :
    let s : State := { playing [] with par := params true }
    s.isRoot = true ∧ s.par.allocMayFail = true ∧ (1 : Byte) ≠ 0 ∧ s.sq.active = true
      ∧ (Config.allocFails s.draws = true ∨ Config.allocFails s.draws = false) := by
  refine ⟨rfl, rfl, by decide, rfl, ?_⟩
  cases Config.allocFails _ <;> simp

/-- Before a row boundary, on it, and at the wrap. -/
theorem witness_SequenceExpiryStepsThePalette :
    ∀ pointer ∈ ([14, 15, 255] : List Byte),
      (stepping pointer).inbox = .tick :: [] ∧ (stepping pointer).sq.timer = ⟨true, 1⟩
        ∧ (stepping pointer).ep.timer.expires = false ∧ (stepping pointer).sq.rhythm ≠ 0 := by decide

theorem witness_SequenceRunsThroughThePalette :
    ∀ k ∈ [0, 1],
      let s := playing (List.replicate (k * (1 * 10)) .tick ++ [.cmd [0x24]])
      s.Inv ∧ s.ep.phase = .idle ∧ s.sq.active = true ∧ s.sq.pointer = 0
        ∧ s.sq.timer.count.toNat = s.sq.rhythm.toNat * 10
        ∧ s.inbox = List.replicate (k * (s.sq.rhythm.toNat * 10)) .tick ++ [.cmd [0x24]] :=
  fun _ _ => ⟨playing_inv _, rfl, rfl, rfl, rfl, rfl⟩

theorem witness_TimerExpiresInItsCountsTick :
    (0 < 2550 ∧ 2550 < 2 ^ 16 ∧ 2549 < 2550) ∧ (0 < 1 ∧ 1 < 2 ^ 32 ∧ 0 < 1) ∧ (0 < 4294967295 ∧ 4294967295 < 2 ^ 32) := by
  decide

theorem witness_TickWithoutExpiryOnlyCounts :
    (playing [.tick]).inbox = .tick :: []
      ∧ ¬ ((playing [.tick]).ep.timer.armed = true ∧ (playing [.tick]).ep.timer.count = 1)
      ∧ ¬ ((playing [.tick]).sq.timer.armed = true ∧ (playing [.tick]).sq.timer.count = 1) := by decide

/-- Vector T1: both timers expire in one `TICK`, whichever order the draw chooses. -/
theorem witness_SimultaneousExpiriesRunBothRules :
    both.inbox = .tick :: [] ∧ both.ep.timer = ⟨true, 1⟩ ∧ both.sq.timer = ⟨true, 1⟩ ∧ both.ep.phase ≠ .idle
      ∧ (Config.sequenceFirst both.draws = true ∨ Config.sequenceFirst both.draws = false) := by
  refine ⟨rfl, rfl, rfl, by decide, ?_⟩
  cases Config.sequenceFirst _ <;> simp

theorem witness_EncodersAnswerTheirMessages : (1 : Byte) ≠ 0 ∧ (255 : Byte) ≠ 0 := by decide

/-- For each clause of the decoder, a message that meets it. -/
theorem witness_MsgDecodeRecognisesTheMessages :
    let p := (node false false []).par
    p.ids.Nodup
      ∧ ((0x40 :: 1 :: zeros).head? = some p.idSequence ∧ (0x40 :: 1 :: zeros).length = 386
          ∧ (0x40 :: 1 :: zeros).getD 1 0 ≠ 0)
      ∧ ((0x40 :: 0 :: zeros).length = 386 ∧ (0x40 :: 0 :: zeros).getD 1 0 = 0)
      ∧ (([0x40] : List Byte).head? = some p.idSequence ∧ ([0x40] : List Byte).length ≠ 386)
      ∧ ([0x41, 0] : List Byte).head? = some p.idBeat ∧ ([0x42] : List Byte).head? = some p.idStart
      ∧ ([0x43] : List Byte).head? = some p.idStop ∧ ([0x44] : List Byte).head? = some p.idReset
      ∧ ([0x45, 1, 2, 3] : List Byte).head? = some p.idSetcolor
      ∧ ([0x46] : List Byte).head? = some 0x46 ∧ 0x46 ∉ p.ids := by
  decide +kernel

theorem witness_CodecRoundTrips :
    (params false).ids.Nodup ∧ (1 : Byte) ≠ 0 ∧ zeros.length = 384
      ∧ decodeMessage (params false) [0x45, 1, 2, 3] = (.ok, 5 :: [1, 2, 3]) := by decide +kernel

end Sys2Proof.Tests
end

namespace Sys2Proof.Machine

open Sys2Proof

/-- A frame that decodes, at the head of the schedule, is run as its command in the state `State.opened` leaves. -/
theorem step_command (s : State) (F : List Byte) (i : Instr) (rest : List Event)
    (hin : s.inbox = .cmd F :: rest) (hdec : decode F = .command i) : step s = exec i (s.opened rest) :=
  (step_frame s F rest hin).trans (runFrame_command F i _ hdec)

/-- `decodeTableWord` reads the frame that `State.withFetchWord` presents, and answers where `decode` accepts it. -/
theorem decodeTableWord_eq_some_iff (nbits w : Nat) (i : Instr) :
    decodeTableWord nbits w = some i ↔ decode (frameOfWord nbits w) = .command i := by
  unfold decodeTableWord
  cases decode (frameOfWord nbits w) <;> simp

@[simp] theorem State.withFetchWord_inbox (s : State) (nbits w : Nat) :
    (s.withFetchWord nbits w).inbox = .cmd (frameOfWord nbits w) :: s.inbox := rfl

/-- Presenting a frame changes the schedule only, so taking it again leaves `s` with its own schedule. -/
theorem State.opened_withFetchWord (s : State) (nbits w : Nat) :
    (s.withFetchWord nbits w).opened s.inbox = { s with out := [], resp := none } := rfl

/-- Settles O6: a frame that decodes is run by `step_command`; the frame of a table word is one such frame, and taking
it gives back the rest of the schedule. -/
theorem stepRunsTheDecodedCommand : Obligations.StepRunsTheDecodedCommand := by
  refine ⟨step_command, fun s nbits w i hword => ?_⟩
  have hdec : decode (frameOfWord nbits w) = .command i := (decodeTableWord_eq_some_iff nbits w i).1 hword
  calc step (s.withFetchWord nbits w)
      = exec i ((s.withFetchWord nbits w).opened s.inbox) :=
        step_command _ _ i s.inbox (s.withFetchWord_inbox nbits w) hdec
    _ = exec i { s with out := [], resp := none } := by rw [State.opened_withFetchWord]

end Sys2Proof.Machine

namespace Sys2Proof.Machine

open Sys2Proof

/-! ### What a command can leave (10_state.md R41) -/

/-- What is left of `s` after a command of each opcode, by the part of the state that is written: `n` is the draw
counter after the command and `r` its response. -/
inductive CommandEffect (s : State) : Opcode → State → Prop
  /-- Any command may only answer: the queries, the codec, and every refusal that restores the state
  (60_exceptions.md R212). -/
  | answers (o : Opcode) (n : Nat) (r : Option Response) : CommandEffect s o { s with draws := n, resp := r }
  /-- EP_PLAY of a present descriptor (41_effect_player.md R131). -/
  | starts (d : Descriptor) (n : Nat) (r : Option Response) (present : d.kind ≠ .none) :
      CommandEffect s .epPlay
        { s with
          ep := (startEffect s.par EffectPlayer.atReset d).1, draws := n
          out := s.out ++ (startEffect s.par EffectPlayer.atReset d).2, resp := r }
  /-- EP_PLAY whose draw fails: whatever ran is cancelled (90_conflicts.md C1). -/
  | startFails (n : Nat) (r : Option Response) :
      CommandEffect s .epPlay { s with ep := EffectPlayer.atReset, draws := n, resp := r }
  /-- EP_STOP (41_effect_player.md R132). -/
  | finishes (r : Option Response) : CommandEffect s .epStop { s with ep := EffectPlayer.atReset, resp := r }
  /-- PAL_SET (40_palette.md R104). -/
  | palLoads (buffer : List Byte) (r : Option Response) :
      CommandEffect s .palSet { s with pal := Memory.load buffer, resp := r }
  /-- SQ_STORE on a root (42_sequence.md R163). -/
  | stores (rhythm : Byte) (buffer m : List Byte) (n : Nat) (r : Option Response) (root : s.isRoot = true)
      (legal : rhythm ≠ 0) :
      CommandEffect s .sqStore
        { s with
          sq := Sequencer.restarted s.par { s.sq with rhythm := rhythm }, pal := Memory.load buffer
          draws := n, out := s.out ++ [.msg m], resp := r }
  /-- SQ_START on a root (42_sequence.md R164). -/
  | restarts (m : List Byte) (n : Nat) (r : Option Response) (root : s.isRoot = true) :
      CommandEffect s .sqStart
        { s with sq := Sequencer.restarted s.par s.sq, draws := n, out := s.out ++ [.msg m], resp := r }
  /-- SQ_STOP on a root (42_sequence.md R165). -/
  | stops (m : List Byte) (r : Option Response) (root : s.isRoot = true) :
      CommandEffect s .sqStop
        { s with sq := { s.sq with timer := disarmed, active := false }, out := s.out ++ [.msg m], resp := r }
  /-- SQ_RESET on a root (42_sequence.md R166). -/
  | rewinds (m : List Byte) (n : Nat) (r : Option Response) (root : s.isRoot = true) :
      CommandEffect s .sqReset
        { s with sq := Sequencer.pointerReset s.par s.sq, draws := n, out := s.out ++ [.msg m], resp := r }

/-- A refusal only answers, whatever the draw counter says. -/
theorem CommandEffect.raise (s : State) (o : Opcode) (st : Status) : CommandEffect s o (s.raise st) :=
  .answers o s.draws _

theorem CommandEffect.respond (s : State) (o : Opcode) (st : Status) (payload : List Byte) :
    CommandEffect s o (s.respond st payload) :=
  .answers o s.draws _

theorem CommandEffect.drawn_raise (s : State) (o : Opcode) (st : Status) : CommandEffect s o (s.drawn.raise st) :=
  .answers o s.drawn.draws _

/-- A role-checked command has to be looked at on a root only: on a child it is refused (60_exceptions.md R223). -/
theorem CommandEffect.onRoot {s k : State} {o : Opcode} (h : s.isRoot = true → CommandEffect s o k) :
    CommandEffect s o (s.onRoot k) := by
  unfold State.onRoot
  split
  · exact h ‹_›
  · exact .raise s o _

/-- EP_PLAY's kind byte names no absent effect (41_effect_player.md R131). -/
theorem effectKindOfByte_ne_none {b : Byte} {k : EffectKind} (h : effectKindOfByte b = some k) : k ≠ .none := by
  rintro rfl
  unfold effectKindOfByte at h
  split at h
  · cases h
  · split at h <;> cases h

/-- EP_PLAY of a present descriptor starts it, or leaves the player cancelled where the draw fails. -/
theorem State.play_effect (s : State) (d : Descriptor) (present : d.kind ≠ .none) :
    CommandEffect s .epPlay (s.play d) := by
  unfold State.play
  split
  · exact .startFails s.drawn.draws _
  · exact .starts d s.drawn.draws _ present

theorem execEpPlay_effect (kind : Byte) (onColor offColor : Color) (t0 t1 hold repeatCount delay : Word32)
    (s t : State) (h : execEpPlay kind onColor offColor t0 t1 hold repeatCount delay s = .next t) :
    CommandEffect s .epPlay t := by
  injection h with h
  subst h
  split
  · exact .raise s _ _
  · exact s.play_effect _ (effectKindOfByte_ne_none ‹_›)

theorem execSqStore_effect (rhythm : Byte) (buffer : List Byte) (s t : State)
    (h : execSqStore rhythm buffer s = .next t) : CommandEffect s .sqStore t := by
  injection h with h
  subst h
  refine .onRoot fun root => ?_
  split
  · exact .raise s _ _
  · split
    · exact .drawn_raise s _ _
    · have legal : rhythm ≠ 0 := (isRhythm_iff rhythm).1 (by simp_all)
      exact .stores rhythm buffer _ s.drawn.draws _ root legal

theorem execSqStart_effect (s t : State) (h : execSqStart s = .next t) : CommandEffect s .sqStart t := by
  injection h with h
  subst h
  refine .onRoot fun root => ?_
  split
  · exact .drawn_raise s _ _
  · exact .restarts _ s.drawn.draws _ root

theorem execSqReset_effect (s t : State) (h : execSqReset s = .next t) : CommandEffect s .sqReset t := by
  injection h with h
  subst h
  refine .onRoot fun root => ?_
  split
  · exact .drawn_raise s _ _
  · cases hactive : s.sq.active
    · exact .rewinds _ s.draws _ root
    · exact .rewinds _ s.drawn.draws _ root

/-- Everything a command can do, by its opcode. -/
theorem exec_effect (i : Instr) (s t : State) (h : exec i s = .next t) : CommandEffect s (opcodeOf i) t := by
  cases i with
  | epPlay kind onColor offColor t0 t1 hold repeatCount delay =>
    exact execEpPlay_effect kind onColor offColor t0 t1 hold repeatCount delay s t h
  | sqStore rhythm buffer => exact execSqStore_effect rhythm buffer s t h
  | sqStart => exact execSqStart_effect s t h
  | sqReset => exact execSqReset_effect s t h
  | epStop => injection h with h; subst h; exact .finishes _
  | palSet buffer => injection h with h; subst h; exact .palLoads buffer _
  | sqStop => injection h with h; subst h; exact .onRoot fun root => .stops _ _ root
  | palGet | palPackPair | palToDisplay | msgEncSequence =>
    injection h with h
    subst h
    split
    · exact .answers _ s.draws _
    · exact .answers _ s.draws _
  | epQuery | palUnpackPair | palQuantize | sqQuery | msgEncBeat | msgEncStart | msgEncStop | msgEncReset
  | msgEncSetcolor | msgDecode =>
    injection h with h
    subst h
    exact .respond s _ _ _

/-! ### What a command leaves unchanged -/

/-- No command writes the role, the parameters or the schedule (10_state.md R36, R39, R41). -/
theorem CommandEffect.frame {s t : State} {o : Opcode} (h : CommandEffect s o t) :
    t.isRoot = s.isRoot ∧ t.par = s.par ∧ t.inbox = s.inbox := by
  cases h <;> exact ⟨rfl, rfl, rfl⟩

/-- The player is EP_PLAY's and EP_STOP's alone. -/
theorem CommandEffect.ep_eq {s t : State} {o : Opcode} (h : CommandEffect s o t) (hplay : o ≠ .epPlay)
    (hstop : o ≠ .epStop) : t.ep = s.ep := by
  cases h with
  | starts | startFails => exact absurd rfl hplay
  | finishes => exact absurd rfl hstop
  | answers | palLoads | stores | restarts | stops | rewinds => rfl

/-- The stepper is the four stepper commands' alone. -/
theorem CommandEffect.sq_eq {s t : State} {o : Opcode} (h : CommandEffect s o t) (hstore : o ≠ .sqStore)
    (hstart : o ≠ .sqStart) (hstop : o ≠ .sqStop) (hreset : o ≠ .sqReset) : t.sq = s.sq := by
  cases h with
  | stores => exact absurd rfl hstore
  | restarts => exact absurd rfl hstart
  | stops => exact absurd rfl hstop
  | rewinds => exact absurd rfl hreset
  | answers | starts | startFails | finishes | palLoads => rfl

@[simp] theorem pointerReset_rhythm (p : Params) (q : Sequencer) : (Sequencer.pointerReset p q).rhythm = q.rhythm := by
  unfold Sequencer.pointerReset
  split <;> rfl

/-- Of the stepper, the rhythm is SQ_STORE's alone. -/
theorem CommandEffect.rhythm_eq {s t : State} {o : Opcode} (h : CommandEffect s o t) (hstore : o ≠ .sqStore) :
    t.sq.rhythm = s.sq.rhythm := by
  cases h with
  | stores => exact absurd rfl hstore
  | rewinds => exact pointerReset_rhythm s.par s.sq
  | answers | starts | startFails | finishes | palLoads | restarts | stops => rfl

/-- SQ_STOP keeps the pointer (42_sequence.md R165). -/
theorem CommandEffect.pointer_eq_of_sqStop {s t : State} (h : CommandEffect s .sqStop t) :
    t.sq.pointer = s.sq.pointer := by
  cases h <;> rfl

/-- The palette is PAL_SET's and SQ_STORE's alone. -/
theorem CommandEffect.pal_eq {s t : State} {o : Opcode} (h : CommandEffect s o t) (hset : o ≠ .palSet)
    (hstore : o ≠ .sqStore) : t.pal = s.pal := by
  cases h with
  | palLoads => exact absurd rfl hset
  | stores => exact absurd rfl hstore
  | answers | starts | startFails | finishes | restarts | stops | rewinds => rfl

/-! ### What a command emits -/

theorem msg_notMem_enterFadeIn (p : Params) (e : EffectPlayer) (m : List Byte) : .msg m ∉ (enterFadeIn p e).2 := by
  unfold enterFadeIn
  split <;> simp [enterFadeHold]

theorem msg_notMem_enterFirstPhase (p : Params) (e : EffectPlayer) (m : List Byte) :
    .msg m ∉ (enterFirstPhase p e).2 := by
  unfold enterFirstPhase
  split
  · simp [enterStrobeOn]
  · simp [msg_notMem_enterFadeIn]

/-- Starting an effect writes the sink only (42_sequence.md R171). -/
theorem msg_notMem_startEffect (p : Params) (e : EffectPlayer) (d : Descriptor) (m : List Byte) :
    .msg m ∉ (startEffect p e d).2 := by
  unfold startEffect
  dsimp only
  split
  · exact msg_notMem_enterFirstPhase p _ m
  · simp

/-- What a command appends to the step's output: EP_PLAY `Sink` writes, the stepper commands messages, every other
command nothing. -/
theorem CommandEffect.emits {s t : State} {o : Opcode} (h : CommandEffect s o t) :
    ∃ os, t.out = s.out ++ os
      ∧ (o ≠ .epPlay → ∀ c, Output.sink c ∉ os)
      ∧ (o ≠ .sqStore → o ≠ .sqStart → o ≠ .sqStop → o ≠ .sqReset → ∀ m, Output.msg m ∉ os)
      ∧ (o ≠ .epPlay → o ≠ .sqStore → o ≠ .sqStart → o ≠ .sqStop → o ≠ .sqReset → os = []) := by
  cases h with
  | answers | startFails | finishes | palLoads => exact ⟨[], by simp⟩
  | starts d => exact ⟨_, rfl, by simp, fun _ _ _ _ => msg_notMem_startEffect s.par _ d, by simp⟩
  | stores _ _ m | restarts m | stops m | rewinds m => exact ⟨[.msg m], rfl, by simp⟩

/-- Settles O18: `exec_effect` lists what a command can leave, and each clause is one reading of that list. -/
theorem commandsWriteOnlyTheirOwnState : Obligations.CommandsWriteOnlyTheirOwnState := by
  intro i s t hexec
  have h := exec_effect i s t hexec
  obtain ⟨hroot, hpar, hinbox⟩ := h.frame
  refine ⟨hroot, hpar, hinbox, h.ep_eq, h.sq_eq, h.rhythm_eq, fun hstop => ?_, fun hset hstore => ?_, h.emits⟩
  · rw [hstop] at h
    exact h.pointer_eq_of_sqStop
  · have hpal := h.pal_eq hset hstore
    exact ⟨hpal, fun a => by rw [hpal]⟩

/-! ### Reset -/

/-- The stepper of reset meets the invariant: stopped, at a legal rhythm (10_state.md R31, R34, R40). -/
theorem sequencer_atReset_inv (p : Params) (hp : ParamsLegal p) : SequenceInv (Sequencer.atReset p) :=
  stopped_inv _ hp.rhythm_pos rfl rfl

/-- Settles O8: each element is the one written in `State.reset`; the open rhythm is at least 1 as the parameters are
legal. -/
theorem resetStateHasTheResetValues : Obligations.ResetStateHasTheResetValues :=
  ⟨rfl, rfl, fun a _ => Memory.read_nil a, rfl, word_toNat_pos config_params_legal.rhythm_pos⟩

/-- Settles O10, part by part. -/
theorem resetStateMeetsTheInvariant : Obligations.ResetStateMeetsTheInvariant where
  params := config_params_legal
  effect := atReset_inv
  sequence := sequencer_atReset_inv _ config_params_legal
  palette := rfl
  child_stopped := fun _ => rfl

/-! ### What a `TICK` leaves, engine by engine -/

/-- A `TICK` writes the two engines, the outputs and the draw counter only. -/
theorem tick_frame (s t : State) (h : tick s = .next t) :
    t.isRoot = s.isRoot ∧ t.par = s.par ∧ t.pal = s.pal ∧ t.inbox = s.inbox := by
  obtain ⟨-, -, rfl⟩ | ⟨-, -, r, -, rfl⟩ | ⟨-, -, rfl⟩ | ⟨-, -, r, -, rfl⟩ := tick_cases s t h <;>
    exact ⟨rfl, rfl, rfl, rfl⟩

/-- The player in a `TICK`: its timer counts down, or expires and its rule is run. -/
theorem tick_ep (s t : State) (h : tick s = .next t) :
    (s.ep.timer.expires = false ∧ t.ep = { s.ep with timer := s.ep.timer.countDown })
    ∨ (s.ep.timer.expires = true
        ∧ ∃ r, effectExpiry s.par { s.ep with timer := s.ep.timer.countDown } = some r ∧ t.ep = r.1) := by
  obtain ⟨hx, -, rfl⟩ | ⟨hx, -, r, hr, rfl⟩ | ⟨hx, -, rfl⟩ | ⟨hx, -, r, hr, rfl⟩ := tick_cases s t h
  · exact .inl ⟨hx, rfl⟩
  · exact .inr ⟨hx, r, hr, rfl⟩
  · exact .inl ⟨hx, rfl⟩
  · exact .inr ⟨hx, r, hr, rfl⟩

/-- The stepper in a `TICK`: its timer counts down, or expires and it steps. -/
theorem tick_sq (s t : State) (h : tick s = .next t) :
    (s.sq.timer.expires = false ∧ t.sq = { s.sq with timer := s.sq.timer.countDown })
    ∨ (s.sq.timer.expires = true
        ∧ t.sq = (seqStep s.par s.pal { s.sq with timer := s.sq.timer.countDown }).1) := by
  obtain ⟨-, hx, rfl⟩ | ⟨-, hx, r, -, rfl⟩ | ⟨-, hx, rfl⟩ | ⟨-, hx, r, -, rfl⟩ := tick_cases s t h
  · exact .inl ⟨hx, rfl⟩
  · exact .inl ⟨hx, rfl⟩
  · exact .inr ⟨hx, rfl⟩
  · exact .inr ⟨hx, rfl⟩

/-- A `TICK` neither starts nor stops the stepper (42_sequence.md R162, R168). -/
theorem tick_active (s t : State) (h : tick s = .next t) : t.sq.active = s.sq.active := by
  obtain ⟨-, hsq⟩ | ⟨-, hsq⟩ := tick_sq s t h
  · rw [hsq]
  · rw [hsq]
    rfl

/-! ### The role and the parameters -/

/-- Settles O14: of the events, only a reset writes the role, and none writes the parameters. -/
theorem roleChangesOnlyAtReset : Obligations.RoleChangesOnlyAtReset := by
  intro s t h
  obtain ⟨-, rfl⟩ | ⟨F, rest, i, -, -, hexec⟩ | ⟨F, rest, -, -, rfl⟩ | ⟨F, rest, -, -, rfl⟩ | ⟨rest, -, htick⟩
    | ⟨strap, rest, hreset, rfl⟩ := step_cases s t h
  · exact ⟨rfl, fun _ => rfl⟩
  · obtain ⟨hroot, hpar, -⟩ := (exec_effect i _ t hexec).frame
    exact ⟨hpar, fun _ => hroot⟩
  · exact ⟨rfl, fun _ => rfl⟩
  · exact ⟨rfl, fun _ => rfl⟩
  · obtain ⟨hroot, hpar, -, -⟩ := tick_frame _ t htick
    exact ⟨hpar, fun _ => hroot⟩
  · exact ⟨rfl, fun hnone => absurd hreset (hnone strap rest)⟩

/-! ### The invariant, event by event -/

/-- Taking an event off the schedule and clearing the last step's outputs touches nothing the invariant speaks of. -/
theorem State.Inv.opened {s : State} (h : s.Inv) (rest : List Event) : (s.opened rest).Inv :=
  ⟨h.params, h.effect, h.sequence, h.palette, h.child_stopped⟩

/-- A refused frame keeps the invariant (60_exceptions.md R212). -/
theorem State.Inv.raise {s : State} (h : s.Inv) (st : Status) : (s.raise st).Inv :=
  ⟨h.params, h.effect, h.sequence, h.palette, h.child_stopped⟩

/-- A reset keeps the invariant, whatever the strap. -/
theorem State.Inv.resetBlock {s : State} (h : s.Inv) (strap : Bool) : (s.resetBlock strap).Inv where
  params := h.params
  effect := atReset_inv
  sequence := sequencer_atReset_inv s.par h.params
  palette := rfl
  child_stopped := fun _ => rfl

/-- Every command keeps the invariant: the role check is what keeps a child's stepper stopped. -/
theorem CommandEffect.inv {s t : State} {o : Opcode} (h : CommandEffect s o t) (hs : s.Inv) : t.Inv := by
  obtain ⟨hpar, hep, hsq, hpal, hchild⟩ := hs
  have root_not_child (root : s.isRoot = true) (q : Sequencer) : s.isRoot = false → q.active = false :=
    fun hfalse => by simp [root] at hfalse
  cases h with
  | answers => exact ⟨hpar, hep, hsq, hpal, hchild⟩
  | starts d _ _ present => exact ⟨hpar, startEffect_inv s.par hpar d present, hsq, hpal, hchild⟩
  | startFails | finishes => exact ⟨hpar, atReset_inv, hsq, hpal, hchild⟩
  | palLoads buffer => exact ⟨hpar, hep, hsq, Memory.load_wf buffer, hchild⟩
  | stores rhythm buffer _ _ _ root legal =>
    exact ⟨hpar, hep, restarted_inv s.par _ legal, Memory.load_wf buffer, root_not_child root _⟩
  | restarts _ _ _ root => exact ⟨hpar, hep, restarted_inv s.par _ hsq.rhythm_pos, hpal, root_not_child root _⟩
  | stops _ _ root => exact ⟨hpar, hep, stopped_inv _ hsq.rhythm_pos rfl rfl, hpal, root_not_child root _⟩
  | rewinds _ _ _ root => exact ⟨hpar, hep, pointerReset_inv s.par _ hsq, hpal, root_not_child root _⟩

/-- A `TICK` keeps the player's invariant, expiring or not. -/
theorem tick_effect_inv (s t : State) (hs : s.Inv) (h : tick s = .next t) : EffectInv t.ep := by
  obtain ⟨hx, hep⟩ | ⟨-, r, hr, hep⟩ := tick_ep s t h <;> rw [hep]
  · exact countDown_effect_inv s.ep hs.effect hx
  · exact effectExpiry_inv s.par hs.params s.ep _ hs.effect r hr

/-- A `TICK` keeps the stepper's invariant: only an active stepper's timer expires, and its step arms a full period. -/
theorem tick_sequence_inv (s t : State) (hs : s.Inv) (h : tick s = .next t) : SequenceInv t.sq := by
  obtain ⟨hx, hsq⟩ | ⟨hx, hsq⟩ := tick_sq s t h <;> rw [hsq]
  · exact countDown_sequence_inv s.sq hs.sequence hx
  · exact seqStep_inv s.par s.pal _ hs.sequence.rhythm_pos (active_of_expires s.sq hs.sequence hx)

theorem tick_inv (s t : State) (hs : s.Inv) (h : tick s = .next t) : t.Inv := by
  obtain ⟨hroot, hpar, hpal, -⟩ := tick_frame s t h
  exact
    { params := hpar ▸ hs.params
      effect := tick_effect_inv s t hs h
      sequence := tick_sequence_inv s t hs h
      palette := hpal ▸ hs.palette
      child_stopped := fun hchild => (tick_active s t h).trans (hs.child_stopped (hroot ▸ hchild)) }

/-- Settles O11: `step_cases` lists the events, and each keeps the invariant of the state it finds. -/
theorem everyStepKeepsTheInvariant : Obligations.EveryStepKeepsTheInvariant := by
  intro s t hs h
  obtain ⟨-, rfl⟩ | ⟨F, rest, i, -, -, hexec⟩ | ⟨F, rest, -, -, rfl⟩ | ⟨F, rest, -, -, rfl⟩ | ⟨rest, -, htick⟩
    | ⟨strap, rest, -, rfl⟩ := step_cases s t h
  · exact hs.opened []
  · exact (exec_effect i _ t hexec).inv (hs.opened rest)
  · exact (hs.opened rest).raise _
  · exact (hs.opened rest).raise _
  · exact tick_inv _ t (hs.opened rest) htick
  · exact (hs.opened rest).resetBlock strap

end Sys2Proof.Machine

namespace Sys2Proof

/-! ### What an accepted frame holds (30_encoding.md R71 to R73) -/

/-- The opcode a first byte selects is the one with that code. -/
theorem code_of_opcodeOfByte {b : Byte} {o : Opcode} (h : opcodeOfByte b = some o) : o.code = b := by
  simpa using List.find?_some h

@[simp] theorem opcodeOf_commandOf (o : Opcode) (F : List Byte) : opcodeOf (commandOf o F) = o := by
  cases o <;> rfl

/-- A frame decodes to a command only as the fields of the opcode its first byte names, at that opcode's length. -/
theorem decode_command {F : List Byte} {i : Instr} (h : decode F = .command i) :
    F.head? = some (opcodeOf i).code ∧ frameLength (opcodeOf i) F = some F.length ∧ i = commandOf (opcodeOf i) F := by
  cases F with
  | nil => cases h
  | cons b rest =>
    cases ho : opcodeOfByte b with
    | none => simp [decode, ho] at h
    | some o =>
      simp only [decode, ho] at h
      split at h
      · next hlength =>
        cases h
        rw [opcodeOf_commandOf]
        exact ⟨congrArg some (code_of_opcodeOfByte ho).symm, hlength, rfl⟩
      · cases h

/-- The byte at `a` of a field that starts at `k` is the frame's byte at `k + a`. -/
theorem getD_bytesFrom (F : List Byte) (k a : Nat) : (bytesFrom F k).getD a 0 = F.getD (k + a) 0 := by
  simp [bytesFrom, List.getD_eq_getElem?_getD]

/-- A PAL_SET frame is its opcode and the 384 bytes of its buffer. -/
theorem decode_palSet {F buffer : List Byte} (h : decode F = .command (.palSet buffer)) :
    F.length = 385 ∧ F.head? = some 0x10 ∧ buffer = bytesFrom F 1 := by
  obtain ⟨hhead, hlength, hfields⟩ := decode_command h
  exact ⟨(Option.some.inj hlength).symm, hhead, Instr.palSet.inj hfields⟩

/-- An SQ_STORE frame is its opcode, the rhythm and the 384 bytes of its buffer. -/
theorem decode_sqStore {F buffer : List Byte} {rhythm : Byte} (h : decode F = .command (.sqStore rhythm buffer)) :
    F.length = 386 ∧ F.head? = some 0x20 ∧ buffer = bytesFrom F 2 := by
  obtain ⟨hhead, hlength, hfields⟩ := decode_command h
  exact ⟨(Option.some.inj hlength).symm, hhead, (Instr.sqStore.inj hfields).2⟩

end Sys2Proof

namespace Sys2Proof.Machine

open Sys2Proof

/-! ### What is written to the palette (20_memory.md R55) -/

/-- SQ_STORE loads its own buffer, or refuses and keeps the palette. -/
theorem execSqStore_pal (rhythm : Byte) (buffer : List Byte) (s t : State)
    (h : execSqStore rhythm buffer s = .next t) : t.pal = s.pal ∨ t.pal = Memory.load buffer := by
  injection h with h
  subst h
  unfold State.onRoot
  split
  · split
    · exact .inl rfl
    · split
      · exact .inl rfl
      · exact .inr rfl
  · exact .inl rfl

/-- A command keeps the palette, or is the PAL_SET or SQ_STORE that loads its whole buffer. -/
theorem exec_pal (i : Instr) (s t : State) (h : exec i s = .next t) :
    t.pal = s.pal
    ∨ (∃ buffer, i = .palSet buffer ∧ t.pal = Memory.load buffer)
    ∨ (∃ rhythm buffer, i = .sqStore rhythm buffer ∧ t.pal = Memory.load buffer) := by
  cases i with
  | palSet buffer =>
    injection h with h
    exact .inr (.inl ⟨buffer, rfl, h ▸ rfl⟩)
  | sqStore rhythm buffer =>
    obtain hkept | hloaded := execSqStore_pal rhythm buffer s t h
    · exact .inl hkept
    · exact .inr (.inr ⟨rhythm, buffer, rfl, hloaded⟩)
  | _ => exact .inl ((exec_effect _ s t h).pal_eq nofun nofun)

/-- After a load of the field at `k` of a frame, each of the 384 bytes is the frame's (20_memory.md R59). -/
theorem read_load_bytesFrom (F : List Byte) (k a : Nat) (ha : a < 384) :
    (Memory.load (bytesFrom F k)).read a = F.getD (k + a) 0 := by
  rw [Memory.read_load _ a ha, getD_bytesFrom]

/-- Settles O19: of the events `step_cases` lists, a command loads its frame's buffer or keeps the palette
(`exec_pal`), a reset clears it, and every other event keeps it. -/
theorem paletteIsReplacedOnlyAsAWhole : Obligations.PaletteIsReplacedOnlyAsAWhole := by
  intro s t h
  obtain ⟨-, rfl⟩ | ⟨F, rest, i, hin, hdec, hexec⟩ | ⟨F, rest, -, -, rfl⟩ | ⟨F, rest, -, -, rfl⟩ | ⟨rest, -, htick⟩
    | ⟨strap, rest, hin, rfl⟩ := step_cases s t h
  · exact .inl rfl
  · obtain hkept | ⟨buffer, rfl, hloaded⟩ | ⟨rhythm, buffer, rfl, hloaded⟩ := exec_pal i _ t hexec
    · exact .inl hkept
    · obtain ⟨hlength, hhead, rfl⟩ := decode_palSet hdec
      exact .inr (.inl ⟨F, rest, hin, hlength, hhead, hloaded ▸ read_load_bytesFrom F 1⟩)
    · obtain ⟨hlength, hhead, rfl⟩ := decode_sqStore hdec
      exact .inr (.inr (.inl ⟨F, rest, hin, hlength, hhead, hloaded ▸ read_load_bytesFrom F 2⟩))
  · exact .inl rfl
  · exact .inl rfl
  · obtain ⟨-, -, hpal, -⟩ := tick_frame _ t htick
    exact .inl hpal
  · exact .inr (.inr (.inr ⟨strap, rest, hin, fun a _ => Memory.read_nil a⟩))

end Sys2Proof.Machine

namespace Sys2Proof

/-! ### The decoder, branch by branch (30_encoding.md R70, R76, R77) -/

/-- No two operations share an opcode byte (30_encoding.md R73). -/
@[simp] theorem opcodeOfByte_code (o : Opcode) : opcodeOfByte o.code = some o := by
  cases o <;> rfl

theorem decode_nil : decode [] = .malformed := rfl

theorem decode_of_unlisted {b : Byte} (h : opcodeOfByte b = none) (args : List Byte) :
    decode (b :: args) = .illegalCommand := by
  simp [decode, h]

/-- A frame that begins with a listed opcode is judged by its length alone. -/
theorem decode_of_head {F : List Byte} {o : Opcode} (h : F.head? = some o.code) :
    decode F = if frameLength o F = some F.length then .command (commandOf o F) else .malformed := by
  cases F with
  | nil => cases h
  | cons b rest =>
    obtain rfl : b = o.code := Option.some.inj h
    simp [decode]

/-! ### Reading the fields of an encoded command -/

@[simp] theorem le32_cons_succ (b : Byte) (F : List Byte) (i : Nat) : le32 (b :: F) (i + 1) = le32 F i := rfl

@[simp] theorem le32_le32b_append_zero (v : Word32) (F : List Byte) : le32 (le32b v ++ F) 0 = v := le32_le32b v F

@[simp] theorem le32_le32b_zero (v : Word32) : le32 (le32b v) 0 = v := le32_le32b v []

@[simp] theorem le32_le32b_append_add_four (v : Word32) (F : List Byte) (i : Nat) :
    le32 (le32b v ++ F) (i + 4) = le32 F i := rfl

/-- The fields read from a command's frame are the command's, of whatever lengths they are. -/
theorem commandOf_encode (i : Instr) : commandOf (opcodeOf i) (encode i) = i := by
  cases i with
  | epPlay kind onColor offColor t0 t1 hold repeatCount delay =>
    simp [commandOf, opcodeOf, encode, operandBytes, Color.bytes, colorAt]
  | palGet index => exact congrArg Instr.palGet (le16_le16b index [])
  | _ => rfl

/-- The frame of a well-formed command has the length its opcode calls for (30_encoding.md R71). -/
theorem frameLength_encode (i : Instr) (h : i.wellFormed = true) :
    frameLength (opcodeOf i) (encode i) = some (encode i).length := by
  cases i with
  | palSet buffer => exact (Laws.FrameShape.palSet buffer h).2
  | sqStore rhythm buffer => exact (Laws.FrameShape.sqStore rhythm buffer h).2
  | msgEncSequence rhythm buffer => exact (Laws.FrameShape.msgEncSequence rhythm buffer h).2
  | msgDecode message => exact (Laws.FrameShape.msgDecode message h).2
  | _ => rfl

/-- Settles O1: the frame begins with the command's opcode, has that opcode's length, and holds the command's
fields. -/
theorem decodeOfEncodeIsTheCommand : Obligations.DecodeOfEncodeIsTheCommand := by
  intro i h
  have hhead : (encode i).head? = some (opcodeOf i).code := rfl
  rw [decode_of_head hhead, if_pos (frameLength_encode i h), commandOf_encode]

/-- Settles O5: each frame is the encoding of its command, byte for byte, so O1 decodes it. -/
theorem specFramesDecode : Obligations.SpecFramesDecode :=
  ⟨decodeOfEncodeIsTheCommand (.epPlay 1 ⟨255, 255, 255⟩ ⟨0, 0, 0⟩ 5 3 0 2 0) rfl,
   decodeOfEncodeIsTheCommand (.palGet 1) rfl,
   decodeOfEncodeIsTheCommand (.palPackPair 15 0 0 15 0 0) rfl,
   decodeOfEncodeIsTheCommand (.palUnpackPair 0xAB 0xCD 0xEF) rfl,
   decodeOfEncodeIsTheCommand (.msgEncBeat 16) rfl,
   decodeOfEncodeIsTheCommand (.msgEncSetcolor 18 52 86) rfl⟩

/-! ### A frame is the bytes of the fields read from it -/

theorem drop_eq_byteAt_cons (F : List Byte) (i : Nat) (h : i < F.length) :
    F.drop i = byteAt F i :: F.drop (i + 1) := by
  rw [List.drop_eq_getElem_cons h, byteAt, List.getD_eq_getElem _ _ h]

theorem drop_eq_colorAt_append (F : List Byte) (i : Nat) (h : i + 2 < F.length) :
    F.drop i = (colorAt F i).bytes ++ F.drop (i + 3) := by
  rw [drop_eq_byteAt_cons F i (by omega), drop_eq_byteAt_cons F (i + 1) (by omega), drop_eq_byteAt_cons F (i + 2) h]
  rfl

theorem drop_eq_le16b_append (F : List Byte) (i : Nat) (h : i + 1 < F.length) :
    F.drop i = le16b (le16 F i) ++ F.drop (i + 2) := by
  rw [drop_eq_byteAt_cons F i (by omega), drop_eq_byteAt_cons F (i + 1) h, le16b_le16]
  rfl

theorem drop_eq_le32b_append (F : List Byte) (i : Nat) (h : i + 3 < F.length) :
    F.drop i = le32b (le32 F i) ++ F.drop (i + 4) := by
  rw [drop_eq_byteAt_cons F i (by omega), drop_eq_byteAt_cons F (i + 1) (by omega),
    drop_eq_byteAt_cons F (i + 2) (by omega), drop_eq_byteAt_cons F (i + 3) h, le32b_le32]
  rfl

/-- A MSG_DECODE frame has its opcode's length exactly when its message has the length that its bytes 1 and 2 tell;
a frame too short to hold them never has. -/
theorem frameLength_msgDecode_iff (F : List Byte) :
    frameLength .msgDecode F = some F.length ↔ F.length = 3 + (le16 F 1).toNat := by
  change (if F.length < 3 then none else some (3 + (le16 F 1).toNat)) = some F.length ↔ _
  split
  · simp only [reduceCtorEq, false_iff]
    omega
  · rw [Option.some.injEq, eq_comm]

/-- The fields of a frame of its opcode's length have the lengths of 30_encoding.md R71 to R73. -/
theorem commandOf_wellFormed (o : Opcode) (F : List Byte) (h : frameLength o F = some F.length) :
    (commandOf o F).wellFormed = true := by
  cases o with
  | palSet | sqStore | msgEncSequence =>
    have hlength := Option.some.inj h
    simp [commandOf, Instr.wellFormed, bytesFrom, ← hlength]
  | msgDecode =>
    have hlength := (frameLength_msgDecode_iff F).1 h
    have hlt := (le16 F 1).isLt
    simp only [commandOf, Instr.wellFormed, bytesFrom, List.length_drop, decide_eq_true_eq]
    omega
  | _ => rfl

/-- No byte after the opcode is ignored: the operand bytes of the fields read from a frame are the frame's. -/
theorem operandBytes_commandOf (o : Opcode) (F : List Byte) (h : frameLength o F = some F.length) :
    operandBytes (commandOf o F) = F.drop 1 := by
  cases o with
  | palSet => rfl
  | sqStore | msgEncSequence =>
    have hlength := Option.some.inj h
    exact (drop_eq_byteAt_cons F 1 (by simp [← hlength])).symm
  | epStop | epQuery | sqStart | sqStop | sqReset | sqQuery | msgEncStart | msgEncStop | msgEncReset =>
    have hlength := Option.some.inj h
    exact (List.drop_of_length_le hlength.ge).symm
  | epPlay =>
    have hlength : 28 = F.length := Option.some.inj h
    have hend : F.drop 28 = [] := List.drop_of_length_le hlength.ge
    rw [drop_eq_byteAt_cons F 1 (by omega), drop_eq_colorAt_append F 2 (by omega),
      drop_eq_colorAt_append F 5 (by omega), drop_eq_le32b_append F 8 (by omega),
      drop_eq_le32b_append F 12 (by omega), drop_eq_le32b_append F 16 (by omega),
      drop_eq_le32b_append F 20 (by omega), drop_eq_le32b_append F 24 (by omega), hend]
    simp [commandOf, operandBytes]
  | palGet =>
    have hlength : 3 = F.length := Option.some.inj h
    rw [drop_eq_le16b_append F 1 (by omega), List.drop_of_length_le hlength.ge]
    rfl
  | palPackPair =>
    have hlength : 7 = F.length := Option.some.inj h
    rw [drop_eq_colorAt_append F 1 (by omega), drop_eq_colorAt_append F 4 (by omega),
      List.drop_of_length_le hlength.ge]
    rfl
  | palUnpackPair | palToDisplay | palQuantize | msgEncSetcolor =>
    have hlength : 4 = F.length := Option.some.inj h
    rw [drop_eq_colorAt_append F 1 (by omega), List.drop_of_length_le hlength.ge]
    rfl
  | msgEncBeat =>
    have hlength : 2 = F.length := Option.some.inj h
    rw [drop_eq_byteAt_cons F 1 (by omega), List.drop_of_length_le hlength.ge]
    rfl
  | msgDecode =>
    have hlength := (frameLength_msgDecode_iff F).1 h
    have hcount : BitVec.ofNat 16 (bytesFrom F 3).length = le16 F 1 := by simp [bytesFrom, hlength]
    rw [drop_eq_le16b_append F 1 (by omega), ← hcount]
    rfl

/-- Settles O2: an accepted frame is its opcode and the operand bytes of the fields read from it. -/
theorem acceptedFramesAreEncodings : Obligations.AcceptedFramesAreEncodings := by
  intro F i hdec
  obtain ⟨hhead, hlength, hfields⟩ := decode_command hdec
  obtain ⟨rest, rfl⟩ := List.head?_eq_some_iff.1 hhead
  constructor
  · rw [hfields]
    exact commandOf_wellFormed _ _ hlength
  · have hoperands := operandBytes_commandOf _ _ hlength
    rw [← hfields] at hoperands
    exact congrArg _ hoperands

/-! ### Unlisted opcodes and wrong lengths (30_encoding.md R76, R77) -/

/-- The opcode bytes of 30_encoding.md R76, which R73 leaves out of the map. -/
def UnlistedByte (b : Byte) : Prop :=
  b.toNat = 0 ∨ (0x04 ≤ b.toNat ∧ b.toNat ≤ 0x0F) ∨ (0x16 ≤ b.toNat ∧ b.toNat ≤ 0x1F)
    ∨ (0x25 ≤ b.toNat ∧ b.toNat ≤ 0x2F) ∨ 0x37 ≤ b.toNat

theorem Opcode.code_listed (o : Opcode) : ¬ UnlistedByte o.code := by
  unfold UnlistedByte
  cases o <;> decide

theorem opcodeOfByte_of_unlisted {b : Byte} (h : UnlistedByte b) : opcodeOfByte b = none := by
  cases ho : opcodeOfByte b with
  | none => rfl
  | some o => exact absurd h (code_of_opcodeOfByte ho ▸ o.code_listed)

/-- The opcode byte and the length of an operation whose frames all have one length (30_encoding.md R73). -/
def fixedRow (o : Opcode) : Byte × Nat := (o.code, (frameLength o []).getD 0)

/-- Every opcode but MSG_DECODE, the last of the map, fixes its frame's length. -/
theorem frameLength_of_fixed {o : Opcode} (h : o ∈ opcodes.dropLast) (F : List Byte) :
    frameLength o F = some (fixedRow o).2 := by
  cases o with
  | msgDecode => exact absurd h (by decide)
  | _ => rfl

theorem decode_of_wrong_length {F : List Byte} {o : Opcode} (hhead : F.head? = some o.code)
    (hlength : frameLength o F ≠ some F.length) : decode F = .malformed := by
  rw [decode_of_head hhead, if_neg hlength]

end Sys2Proof

namespace Sys2Proof.Machine

open Sys2Proof

/-- Settles O3: no operation has the byte for its opcode, so the decoder rejects the frame by that name. -/
theorem unlistedOpcodesRaiseIllegalCommand : Obligations.UnlistedOpcodesRaiseIllegalCommand := by
  intro s op args rest hin (hop : UnlistedByte op)
  refine ⟨?_, rfl⟩
  rw [step_frame s _ rest hin, runFrame_illegal _ _ (decode_of_unlisted (opcodeOfByte_of_unlisted hop) args)]
  rfl

/-- A frame that decodes to MALFORMED, at the head of the schedule, is answered with that status alone. -/
theorem step_malformed (s : State) (F : List Byte) (rest : List Event) (hin : s.inbox = .cmd F :: rest)
    (hdec : decode F = .malformed) :
    step s = .next { s with inbox := rest, out := [], resp := some ⟨.malformed, []⟩ } := by
  rw [step_frame s F rest hin, runFrame_malformed F _ hdec]
  rfl

/-- Settles O4: the rows are those of the opcodes with a fixed length, and MSG_DECODE's frame tells its own; either
way the length is not the opcode's. -/
theorem wrongLengthsRaiseMalformed : Obligations.WrongLengthsRaiseMalformed := by
  intro s F rest hin hcase
  refine ⟨step_malformed s F rest hin ?_, rfl⟩
  obtain rfl | ⟨row, hrow, hhead, hne⟩ | ⟨hhead, hne⟩ := hcase
  · exact decode_nil
  · change row ∈ opcodes.dropLast.map fixedRow at hrow
    obtain ⟨o, ho, rfl⟩ := List.mem_map.1 hrow
    refine decode_of_wrong_length hhead ?_
    rw [frameLength_of_fixed ho, ne_eq, Option.some.injEq]
    exact Ne.symm hne
  · refine decode_of_wrong_length (o := .msgDecode) hhead ?_
    rw [ne_eq, frameLength_msgDecode_iff, le16_toNat]
    change F.length < 3 ∨ F.length ≠ 3 + ((byteAt F 1).toNat + 256 * (byteAt F (1 + 1)).toNat) at hne
    omega

/-! ### What a command answers (30_encoding.md R74, R75) -/

/-- The payload lengths an OK answer of each command can have (30_encoding.md R75): one, but for MSG_DECODE, whose
payload is as long as the message it reads. -/
def payloadLengths : Opcode → List Nat
  | .epPlay | .epStop | .palSet | .sqStore | .sqStart | .sqStop | .sqReset => [0]
  | .epQuery => [15]
  | .sqQuery | .palGet | .palUnpackPair => [6]
  | .palPackPair | .palToDisplay | .palQuantize => [3]
  | .msgEncSequence => [386]
  | .msgEncBeat => [2]
  | .msgEncStart | .msgEncStop | .msgEncReset => [1]
  | .msgEncSetcolor => [4]
  | .msgDecode => [386, 2, 1, 4]

/-- The statuses a command refuses with: those of 60_exceptions.md R210 but OK, the two never returned (R214, R215)
and ILLEGAL_COMMAND, which answers no command's frame. -/
def refusals : List Status := [.wrongRole, .invalidArgument, .resourceExhausted, .malformed, .unknownMessage]

/-- The status and the payload of an answer to a command of opcode `o`. -/
inductive Answer (o : Opcode) : Status → List Byte → Prop
  | ok {payload : List Byte} (fits : payload.length ∈ payloadLengths o) : Answer o .ok payload
  | refused {st : Status} (refusal : st ∈ refusals) : Answer o st []

/-- The response of `t` is an answer to a command of opcode `o`. -/
def Answered (o : Opcode) (t : State) : Prop := ∃ st payload, t.resp = some ⟨st, payload⟩ ∧ Answer o st payload

theorem Answered.respond {o : Opcode} {st : Status} {payload : List Byte} (s : State) (h : Answer o st payload) :
    Answered o (s.respond st payload) :=
  ⟨st, payload, rfl, h⟩

theorem Answered.ok {o : Opcode} {payload : List Byte} (s : State) (h : payload.length ∈ payloadLengths o) :
    Answered o (s.respond .ok payload) :=
  .respond s (.ok h)

theorem Answered.raise {o : Opcode} {st : Status} (s : State) (h : st ∈ refusals) : Answered o (s.raise st) :=
  .respond s (.refused h)

theorem Answered.onRoot {o : Opcode} {s k : State} (h : Answered o k) : Answered o (s.onRoot k) := by
  unfold State.onRoot
  split
  · exact h
  · exact .raise s (by decide)

/-- A message of a layout is answered with as many bytes as it has: the kind code stands for its id. -/
theorem decFields_answer {length : Nat} (hl : length ∈ payloadLengths .msgDecode) (kind : Byte) (m : List Byte) :
    Answer .msgDecode (decFields length kind m).1 (decFields length kind m).2 := by
  by_cases hm : m.length = length
  · have hne : length ≠ 0 := by
      rintro rfl
      exact absurd hl (by decide)
    have hpayload : (kind :: m.drop 1).length = length := by
      rw [List.length_cons, List.length_drop]
      omega
    rw [decFields_of_length kind hm]
    exact .ok (hpayload.symm ▸ hl)
  · rw [decFields_of_ne kind hm]
    exact .refused (by decide)

theorem decSequence_answer (m : List Byte) : Answer .msgDecode (decSequence m).1 (decSequence m).2 := by
  unfold decSequence
  split
  · exact .refused (by decide)
  · exact decFields_answer (by decide) 0 m

/-- MSG_DECODE answers by the layout of the message's id, and refuses an empty message and an unknown id. -/
theorem decodeMessage_answer (p : Params) (m : List Byte) :
    Answer .msgDecode (decodeMessage p m).1 (decodeMessage p m).2 := by
  cases m with
  | nil => exact .refused (st := .malformed) (by decide)
  | cons id rest =>
    simp only [decodeMessage]
    split_ifs
    · exact decSequence_answer _
    · exact decFields_answer (by decide) 1 _
    · exact decFields_answer (by decide) 2 _
    · exact decFields_answer (by decide) 3 _
    · exact decFields_answer (by decide) 4 _
    · exact decFields_answer (by decide) 5 _
    · exact .refused (by decide)

theorem State.play_answered (s : State) (d : Descriptor) : Answered .epPlay (s.play d) := by
  unfold State.play
  split
  · exact .respond _ (.refused (by decide))
  · exact .ok _ (by decide)

/-- Every command answers, and the response is an answer of its opcode. -/
theorem exec_answered (i : Instr) (s : State) (hwf : i.wellFormed = true) :
    ∃ t, exec i s = .next t ∧ Answered (opcodeOf i) t := by
  cases i with
  | epPlay kind onColor offColor t0 t1 hold repeatCount delay =>
    refine ⟨_, rfl, ?_⟩
    split
    · exact .raise s (by decide)
    · exact s.play_answered _
  | sqStore rhythm buffer =>
    refine ⟨_, rfl, .onRoot ?_⟩
    split
    · exact .raise s (by decide)
    · split
      · exact .raise _ (by decide)
      · exact .ok _ (List.mem_singleton.2 rfl)
  | sqStart | sqReset =>
    refine ⟨_, rfl, .onRoot ?_⟩
    split
    · exact .raise _ (by decide)
    · exact .ok _ (by decide)
  | sqStop => exact ⟨_, rfl, .onRoot (.ok _ (by decide))⟩
  | palGet index =>
    refine ⟨_, rfl, ?_⟩
    split
    · exact .raise s (by decide)
    · exact .ok s (List.mem_singleton.2 rfl)
  | palPackPair | palToDisplay =>
    refine ⟨_, rfl, ?_⟩
    split
    · exact .ok s (List.mem_singleton.2 rfl)
    · exact .raise s (by decide)
  | msgEncSequence rhythm buffer =>
    have hlength : buffer.length = 384 := eq_of_beq hwf
    refine ⟨_, rfl, ?_⟩
    split
    · exact .ok s (by simp [encSequence, hlength, opcodeOf, payloadLengths])
    · exact .raise s (by decide)
  | msgDecode message => exact ⟨_, rfl, .respond s (decodeMessage_answer s.par message)⟩
  | epStop | epQuery | palSet | palUnpackPair | palQuantize | sqQuery | msgEncBeat | msgEncStart | msgEncStop
  | msgEncReset | msgEncSetcolor => exact ⟨_, rfl, .ok _ (List.mem_singleton.2 rfl)⟩

theorem Answer.status_returned {o : Opcode} {st : Status} {payload : List Byte} (h : Answer o st payload) :
    st ≠ .transportFailure ∧ st ≠ .notActive := by
  cases h with
  | ok => decide
  | refused refusal => constructor <;> (rintro rfl; revert refusal; decide)

theorem Answer.payload_of_ne_ok {o : Opcode} {st : Status} {payload : List Byte} (h : Answer o st payload)
    (hst : st ≠ .ok) : payload = [] := by
  cases h with
  | ok => exact absurd rfl hst
  | refused => rfl

theorem Answer.length_of_ok {o : Opcode} {payload : List Byte} (h : Answer o .ok payload) :
    payload.length ∈ payloadLengths o := by
  cases h with
  | ok fits => exact fits
  | refused refusal => exact absurd refusal (by decide)

/-- Settles O17: the answer `exec_answered` finds has a status that is returned, and a payload that is empty or of a
length of its opcode. -/
theorem everyCommandAnswersOneResponse : Obligations.EveryCommandAnswersOneResponse := by
  intro i s hwf
  obtain ⟨t, hexec, st, payload, hresp, answer⟩ := exec_answered i s hwf
  obtain ⟨htransport, hactive⟩ := answer.status_returned
  refine ⟨t, st, payload, hexec, hresp, htransport, hactive, answer.payload_of_ne_ok, ?_⟩
  rintro rfl
  have hlength := answer.length_of_ok
  generalize opcodeOf i = o at hlength ⊢
  cases o with
  | msgDecode => exact hlength
  | _ => exact List.mem_singleton.1 hlength

end Sys2Proof.Machine

namespace Sys2Proof

/-! ### Nibbles of a byte (00_scope.md R10, 30_encoding.md R72) -/

/-- A packed channel in a response is its value as a byte. -/
theorem nibbleByte_eq_ofNat (n : Nibble) : nibbleByte n = BitVec.ofNat 8 n.toNat :=
  (BitVec.ofNat_toNat 8 n).symm

theorem all_isNibble_iff (xs : List Byte) : xs.all isNibble = true ↔ ∀ x ∈ xs, x.toNat ≤ 15 := by
  simp only [List.all_eq_true, isNibble_iff]

/-- One operand above 15 fails the check of all (30_encoding.md R72). -/
theorem all_isNibble_of_above {xs : List Byte} (h : ∃ x ∈ xs, 15 < x.toNat) : ¬ xs.all isNibble = true := by
  obtain ⟨x, hx, habove⟩ := h
  intro hall
  exact absurd ((all_isNibble_iff xs).1 hall x hx) (Nat.not_le.2 habove)

end Sys2Proof

namespace Sys2Proof.Machine

open Sys2Proof

/-! ### The channel functions (40_palette.md section 1) -/

@[simp] theorem displayChannel_toNat (n : Nibble) : (displayChannel n).toNat = 16 * n.toNat := by
  have h := n.isLt
  simp only [displayChannel, Config.displayScale_eq, BitVec.toNat_ofNat]
  omega

@[simp] theorem packByte_toNat (high low : Nibble) : (packByte high low).toNat = 16 * high.toNat + low.toNat := by
  have hh := high.isLt
  have hl := low.isLt
  simp only [packByte, BitVec.toNat_ofNat]
  omega

@[simp] theorem quantizeChannel_toNat (b : Byte) : (quantizeChannel b).toNat = b.toNat / 16 := by
  have h := b.isLt
  simp only [quantizeChannel, Config.displayScale_eq, BitVec.toNat_ofNat]
  omega

@[simp] theorem hi_packByte (high low : Nibble) : hi (packByte high low) = high := by
  apply BitVec.eq_of_toNat_eq
  have hl := low.isLt
  rw [hi_toNat, packByte_toNat]
  omega

@[simp] theorem lo_packByte (high low : Nibble) : lo (packByte high low) = low := by
  apply BitVec.eq_of_toNat_eq
  have hl := low.isLt
  rw [lo_toNat, packByte_toNat]
  omega

@[simp] theorem packByte_hi_lo (b : Byte) : packByte (hi b) (lo b) = b := by
  apply BitVec.eq_of_toNat_eq
  rw [packByte_toNat, hi_toNat, lo_toNat, Nat.div_add_mod]

/-- On nibble operands, packing is the shift and sum of the bytes (20_memory.md R53). -/
theorem packByte_nibbleOf {high low : Byte} (hh : high.toNat ≤ 15) (hl : low.toNat ≤ 15) :
    packByte (nibbleOf high) (nibbleOf low) = high * 16 + low := by
  apply BitVec.eq_of_toNat_eq
  rw [packByte_toNat, nibbleOf_toNat high ((isNibble_iff high).2 hh), nibbleOf_toNat low ((isNibble_iff low).2 hl)]
  simp only [BitVec.toNat_add, BitVec.toNat_mul, BitVec.ofNat_eq_ofNat, BitVec.toNat_ofNat]
  omega

theorem displayChannel_nibbleOf {b : Byte} (h : b.toNat ≤ 15) : displayChannel (nibbleOf b) = 16 * b := by
  apply BitVec.eq_of_toNat_eq
  rw [displayChannel_toNat, nibbleOf_toNat b ((isNibble_iff b).2 h)]
  simp only [BitVec.toNat_mul, BitVec.ofNat_eq_ofNat, BitVec.toNat_ofNat]
  omega

theorem nibbleByte_quantizeChannel (b : Byte) : nibbleByte (quantizeChannel b) = b / 16 := by
  apply BitVec.eq_of_toNat_eq
  rw [nibbleByte_toNat, quantizeChannel_toNat]
  rfl

@[simp] theorem quantizeChannel_displayChannel (n : Nibble) : quantizeChannel (displayChannel n) = n := by
  apply BitVec.eq_of_toNat_eq
  rw [quantizeChannel_toNat, displayChannel_toNat]
  omega

/-- Quantizing and displaying a channel clears its bits 3:0 (40_palette.md R112). -/
theorem displayChannel_quantizeChannel (b : Byte) : displayChannel (quantizeChannel b) = b - b % 16 := by
  apply BitVec.eq_of_toNat_eq
  have h := b.isLt
  have hlow : (b % 16).toNat = b.toNat % 16 := rfl
  rw [displayChannel_toNat, quantizeChannel_toNat, BitVec.toNat_sub, hlow]
  omega

/-- Every color of the palette path has channels that are multiples of 16 (40_palette.md R111). -/
theorem toDisplay_channels (p : PackedColor) :
    (toDisplay p).r.toNat % 16 = 0 ∧ (toDisplay p).g.toNat % 16 = 0 ∧ (toDisplay p).b.toNat % 16 = 0 := by
  simp [toDisplay]

/-! ### The squares of a group (20_memory.md R51) -/

theorem square_of_even (m : Memory) {i : Byte} (h : i.toNat % 2 = 0) :
    square m i
      = ⟨hi (m.read (3 * (i.toNat / 2))), lo (m.read (3 * (i.toNat / 2))), hi (m.read (3 * (i.toNat / 2) + 1))⟩ :=
  if_pos h

theorem square_of_odd (m : Memory) {i : Byte} (h : ¬ i.toNat % 2 = 0) :
    square m i
      = ⟨lo (m.read (3 * (i.toNat / 2) + 1)), hi (m.read (3 * (i.toNat / 2) + 2)),
          lo (m.read (3 * (i.toNat / 2) + 2))⟩ :=
  if_neg h

/-- The first square of the group `k`. -/
theorem square_group_first (m : Memory) {k : Nat} (hk : k < 128) :
    square m (BitVec.ofNat 8 (2 * k)) = ⟨hi (m.read (3 * k)), lo (m.read (3 * k)), hi (m.read (3 * k + 1))⟩ := by
  have hindex : (BitVec.ofNat 8 (2 * k)).toNat = 2 * k := by rw [BitVec.toNat_ofNat]; omega
  have hhalf : 2 * k / 2 = k := by omega
  rw [square_of_even m (by omega), hindex, hhalf]

/-- The second square of the group `k`. -/
theorem square_group_second (m : Memory) {k : Nat} (hk : k < 128) :
    square m (BitVec.ofNat 8 (2 * k + 1))
      = ⟨lo (m.read (3 * k + 1)), hi (m.read (3 * k + 2)), lo (m.read (3 * k + 2))⟩ := by
  have hindex : (BitVec.ofNat 8 (2 * k + 1)).toNat = 2 * k + 1 := by rw [BitVec.toNat_ofNat]; omega
  have hhalf : (2 * k + 1) / 2 = k := by omega
  rw [square_of_odd m (by omega), hindex, hhalf]

/-- A palette write that places three bytes at the group `k` has them read back there (20_memory.md R59). -/
theorem read_load_group {buffer : List Byte} {k : Nat} {b0 b1 b2 : Byte} (hk : k < 128)
    (h : (buffer.drop (3 * k)).take 3 = [b0, b1, b2]) :
    (Memory.load buffer).read (3 * k) = b0 ∧ (Memory.load buffer).read (3 * k + 1) = b1
      ∧ (Memory.load buffer).read (3 * k + 2) = b2 := by
  have hbyte (j : Nat) (hj : j < 3) : (Memory.load buffer).read (3 * k + j) = [b0, b1, b2].getD j 0 := by
    rw [Memory.read_load _ _ (by omega), ← h]
    simp [List.getD_eq_getElem?_getD, hj]
  exact ⟨hbyte 0 (by decide), hbyte 1 (by decide), hbyte 2 (by decide)⟩

/-! ### The palette commands (40_palette.md section 2) -/

/-- The answer to PAL_GET: a square's channels, then their display channels (40_palette.md R105). -/
theorem responseBytes_append_display (p : PackedColor) :
    PackedColor.responseBytes p ++ (toDisplay p).bytes = squareAnswer p.r.toNat p.g.toNat p.b.toNat := by
  simp only [PackedColor.responseBytes, nibbleByte_eq_ofNat]
  rfl

theorem exec_palGet_in_range (s : State) {index : Word16} (h : index.toNat ≤ 255) :
    exec (.palGet index) s
      = .next (s.answered .ok
          (squareAnswer (square s.pal (index.setWidth 8)).r.toNat (square s.pal (index.setWidth 8)).g.toNat
            (square s.pal (index.setWidth 8)).b.toNat)) := by
  rw [← responseBytes_append_display]
  exact congrArg Host.Outcome.next (if_neg (Nat.not_le.2 (Nat.lt_succ_of_le h)))

theorem exec_palGet_above (s : State) {index : Word16} (h : 255 < index.toNat) :
    exec (.palGet index) s = .next (s.answered .invalidArgument []) :=
  congrArg Host.Outcome.next (if_pos h)

/-- Settles O43: a group's squares are the nibbles of its three bytes, and packing two nibbles into a byte and taking
it apart are inverse to each other. -/
theorem packingAndReadingSquaresRoundTrip : Obligations.PackingAndReadingSquaresRoundTrip := by
  refine ⟨fun buffer k e o hk _ hplaced => ?_, fun m k hk => ?_⟩
  · obtain ⟨h0, h1, h2⟩ := read_load_group hk hplaced
    rw [square_group_first _ hk, square_group_second _ hk, h0, h1, h2]
    simp only [hi_packByte, lo_packByte, and_self]
  · rw [square_group_first m hk, square_group_second m hk]
    simp only [packPair, packByte_hi_lo]

/-- Settles O37: the loaded palette is in canonical form and reads back the buffer (`Memory.read_load`). -/
theorem palSetReplacesThePalette : Obligations.PalSetReplacesThePalette :=
  fun _ buffer _ => ⟨Memory.load buffer, rfl, Memory.load_wf buffer, Memory.read_load buffer⟩

/-- Settles O38: the index is the square's, and the square's channels are the high and low nibbles of its group's
bytes, by the parity of the index. -/
theorem palGetReadsTheSquare : Obligations.PalGetReadsTheSquare := by
  refine fun s index => ⟨fun hin => ?_, exec_palGet_above s⟩
  have hindex : (index.setWidth 8).toNat = index.toNat := by rw [BitVec.toNat_setWidth]; omega
  rw [exec_palGet_in_range s hin]
  dsimp only
  split
  · next heven =>
    rw [square_of_even s.pal (hindex ▸ heven), hindex]
    simp only [hi_toNat, lo_toNat, Nat.add_zero]
  · next hodd =>
    rw [square_of_odd s.pal (hindex ▸ hodd), hindex]
    simp only [hi_toNat, lo_toNat]

/-- Settles O39: each byte of the pair is `packByte_nibbleOf`; one operand above 15 fails the check. -/
theorem palPackPairPacksNibbles : Obligations.PalPackPairPacksNibbles := by
  refine fun s er eg eb or' og ob =>
    ⟨fun h => ?_, fun h => congrArg Host.Outcome.next (if_neg (all_isNibble_of_above h))⟩
  have hall := (all_isNibble_iff _).2 h
  simp only [List.forall_mem_cons] at h
  obtain ⟨her, heg, heb, hor, hog, hob, -⟩ := h
  rw [← packByte_nibbleOf her heg, ← packByte_nibbleOf heb hor, ← packByte_nibbleOf hog hob]
  exact congrArg Host.Outcome.next (if_pos hall)

/-- Settles O40: a nibble in the response is its value as a byte. -/
theorem palUnpackPairSplitsBytes : Obligations.PalUnpackPairSplitsBytes := by
  intro s b0 b1 b2
  simp only [exec, execPalUnpackPair, nibbleByte_eq_ofNat, hi_toNat, lo_toNat]
  rfl

/-- Settles O41: each channel is `displayChannel_nibbleOf`; one operand above 15 fails the check. -/
theorem palToDisplayScalesNibbles : Obligations.PalToDisplayScalesNibbles := by
  refine fun s r g b => ⟨fun h => ?_, fun h => congrArg Host.Outcome.next (if_neg (all_isNibble_of_above h))⟩
  have hall := (all_isNibble_iff _).2 h
  simp only [List.forall_mem_cons] at h
  obtain ⟨hr, hg, hb, -⟩ := h
  rw [← displayChannel_nibbleOf hr, ← displayChannel_nibbleOf hg, ← displayChannel_nibbleOf hb]
  exact congrArg Host.Outcome.next (if_pos hall)

/-- Settles O42, channel by channel. -/
theorem palQuantizeTakesHighNibbles : Obligations.PalQuantizeTakesHighNibbles := by
  intro s r g b
  rw [← nibbleByte_quantizeChannel r, ← nibbleByte_quantizeChannel g, ← nibbleByte_quantizeChannel b]
  rfl

/-- Settles O44, channel by channel in either direction. -/
theorem quantizeInvertsDisplay : Obligations.QuantizeInvertsDisplay := by
  refine ⟨fun p => ?_, fun c => ?_⟩
  · simp only [quantize, toDisplay, quantizeChannel_displayChannel]
  · simp only [toDisplay, quantize, displayChannel_quantizeChannel]

/-! ### What a `TICK` writes to the sink -/

/-- An output of a `TICK` is the stepper's, or that of the effect timer's expiry. -/
theorem mem_out_of_tick {s t : State} {o : Output} (h : tick s = .next t) (ho : o ∈ t.out) :
    o ∈ s.out
    ∨ o ∈ (seqStep s.par s.pal s.countedDown.sq).2
    ∨ (s.ep.timer.expires = true ∧ ∃ r, effectExpiry s.par s.countedDown.ep = some r ∧ o ∈ r.2) := by
  obtain ⟨-, -, rfl⟩ | ⟨hx, -, r, hr, rfl⟩ | ⟨-, -, rfl⟩ | ⟨hx, -, r, hr, rfl⟩ := tick_cases s t h
  · exact .inl ho
  · exact (List.mem_append.1 ho).imp_right fun he => .inr ⟨hx, r, hr, he⟩
  · exact (List.mem_append.1 ho).imp_right .inl
  · have horder : o ∈ s.out ∨ o ∈ (seqStep s.par s.pal s.countedDown.sq).2 ∨ o ∈ r.2 := by
      dsimp only at ho
      split at ho
      · simpa only [List.mem_append, or_assoc] using ho
      · simpa only [List.mem_append, or_assoc, or_comm (a := o ∈ r.2)] using ho
    exact horder.imp_right (Or.imp_right fun he => ⟨hx, r, hr, he⟩)

/-- The one color a sequence step writes is the display color of the square at the pointer (42_sequence.md R162). -/
theorem sink_mem_seqStep {p : Params} {pal : Memory} {q : Sequencer} {c : Color}
    (h : Output.sink c ∈ (seqStep p pal q).2) : c = toDisplay (square pal q.pointer) := by
  obtain hsink | hbeat := List.mem_cons.1 h
  · exact Output.sink.inj hsink
  · unfold beatAt at hbeat
    split at hbeat <;> simp at hbeat

/-- Whatever the stepper's state, its step writes a color of the palette path (40_palette.md R111). -/
theorem seqStep_channels (p : Params) (pal : Memory) (q : Sequencer) (c : Color)
    (h : Output.sink c ∈ (seqStep p pal q).2) : c.r.toNat % 16 = 0 ∧ c.g.toNat % 16 = 0 ∧ c.b.toNat % 16 = 0 :=
  sink_mem_seqStep h ▸ toDisplay_channels _

/-- Settles O45: the step's color is `seqStep_channels`, in whatever order the expiries run; a color in a `TICK`'s outputs
is the step's or that of the effect's rule (`mem_out_of_tick`). -/
theorem stepperColorsAreMultiplesOfSixteen : Obligations.StepperColorsAreMultiplesOfSixteen := by
  refine ⟨seqStep_channels, fun s t rest c hquiet hin hnext hc => ?_, fun s t rest r c hx hin hnext hr hc hother => ?_⟩
  · rw [step_tick s rest hin] at hnext
    obtain hopen | hq | ⟨hx, -⟩ := mem_out_of_tick hnext hc
    · cases hopen
    · exact seqStep_channels _ _ _ c hq
    · exact absurd (hquiet.symm.trans hx) Bool.false_ne_true
  · rw [step_tick s rest hin] at hnext
    obtain hopen | hq | ⟨-, r', hr', he⟩ := mem_out_of_tick hnext hc
    · cases hopen
    · exact seqStep_channels _ _ _ c hq
    · have hcount : (s.opened rest).countedDown.ep = { s.ep with timer := ⟨false, 0⟩ } := by
        simp only [State.countedDown_ep, State.opened_ep, countDown_expiring _ hx, disarmed]
      rw [hcount, State.opened_par, hr, Option.some.injEq] at hr'
      exact absurd (hr' ▸ he) hother

end Sys2Proof.Machine

namespace Sys2Proof.Machine

open Sys2Proof

/-! ### Interpolation (41_effect_player.md R121) -/

theorem interpNat_of_le {start finish elapsed total : Nat} (h : total ≤ elapsed) :
    interpNat start finish elapsed total = finish := if_pos h

theorem interpNat_of_lt {start finish elapsed total : Nat} (h : elapsed < total) :
    interpNat start finish elapsed total = (start * (total - elapsed) + finish * elapsed) / total :=
  if_neg (Nat.not_le.2 h)

/-- The two weights of the quotient sum to the total, so it lies between what two equal ends would give. -/
theorem interpNat_mem_ends {low high start finish : Nat} (hls : low ≤ start) (hlf : low ≤ finish) (hsh : start ≤ high)
    (hfh : finish ≤ high) (elapsed total : Nat) :
    low ≤ interpNat start finish elapsed total ∧ interpNat start finish elapsed total ≤ high := by
  rcases Nat.lt_or_ge elapsed total with hlt | hge
  · have hpos : 0 < total := Nat.zero_lt_of_lt hlt
    have hweights (x : Nat) : x * (total - elapsed) + x * elapsed = x * total := by
      rw [← Nat.mul_add, Nat.sub_add_cancel hlt.le]
    rw [interpNat_of_lt hlt]
    constructor
    · rw [Nat.le_div_iff_mul_le hpos, ← hweights low]
      exact Nat.add_le_add (Nat.mul_le_mul_right _ hls) (Nat.mul_le_mul_right _ hlf)
    · refine Nat.div_le_of_le_mul ?_
      rw [Nat.mul_comm total high, ← hweights high]
      exact Nat.add_le_add (Nat.mul_le_mul_right _ hsh) (Nat.mul_le_mul_right _ hfh)
  · rw [interpNat_of_le hge]
    exact ⟨hlf, hfh⟩

theorem interpNat_between (start finish elapsed total : Nat) :
    min start finish ≤ interpNat start finish elapsed total
      ∧ interpNat start finish elapsed total ≤ max start finish :=
  interpNat_mem_ends (Nat.min_le_left _ _) (Nat.min_le_right _ _) (Nat.le_max_left _ _) (Nat.le_max_right _ _) _ _

/-- The 8-bit channel loses nothing: the quotient is at most the greater of two bytes. -/
theorem interp_toNat (start finish : Byte) (elapsed total : Nat) :
    (interp start finish elapsed total).toNat = interpNat start.toNat finish.toNat elapsed total := by
  have hle := (interpNat_between start.toNat finish.toNat elapsed total).2
  have hmax : max start.toNat finish.toNat < 2 ^ 8 := Nat.max_lt.2 ⟨start.isLt, finish.isLt⟩
  rw [interp, BitVec.toNat_ofNat, Nat.mod_eq_of_lt (hle.trans_lt hmax)]

/-- Settles O27: a channel is the natural quotient (`interp_toNat`), which lies between its ends. -/
theorem interpolationIsExactAndBetweenItsEnds : Obligations.InterpolationIsExactAndBetweenItsEnds := by
  intro start finish e t _
  rw [interp_toNat]
  refine ⟨fun hge => BitVec.eq_of_toNat_eq ?_, interpNat_of_lt, interpNat_between _ _ e t⟩
  rw [interp_toNat, interpNat_of_le hge]

/-! ### The first phase of an effect (41_effect_player.md R123) -/

/-- What `enter_first_phase()` makes of a player that holds `d`: `on` written, and STROBE_ON or the fade begun. -/
def firstPhase (p : Params) (d : Descriptor) (remaining : Word32) : EffectPlayer × List Output :=
  if d.kind = .strobe then
    (EffectPlayer.running d .strobeOn remaining 0 (waitOf p d.t0.toNat), [.sink d.onColor])
  else sinkThen d.onColor (fadeEntered p d remaining)

theorem firstPhase_strobe (p : Params) {d : Descriptor} (remaining : Word32) (h : d.kind = .strobe) :
    firstPhase p d remaining
      = (EffectPlayer.running d .strobeOn remaining 0 (waitOf p d.t0.toNat), [.sink d.onColor]) :=
  if_pos h

theorem firstPhase_fade (p : Params) {d : Descriptor} (remaining : Word32) (h : d.kind = .fade) :
    firstPhase p d remaining = sinkThen d.onColor (fadeEntered p d remaining) :=
  if_neg (by simp [h])

theorem enterFirstPhase_eq (p : Params) (e : EffectPlayer) (hv : e.valid = true) (he : e.elapsed = 0) :
    enterFirstPhase p e = firstPhase p e.desc e.remaining := by
  unfold enterFirstPhase firstPhase
  split
  · simp [enterStrobeOn, EffectPlayer.running, armTimer_eq, hv, he]
  · rw [enterFadeIn_eq p e hv]

/-- The start delay is stored in the descriptor and otherwise decides nothing of the first phase. -/
theorem firstPhase_withDelay (p : Params) (d : Descriptor) (remaining delay : Word32) :
    firstPhase p { d with delay := delay } remaining
      = ({ (firstPhase p d remaining).1 with desc := { (firstPhase p d remaining).1.desc with delay := delay } },
         (firstPhase p d remaining).2) := by
  unfold firstPhase
  dsimp only
  split
  · rfl
  · unfold fadeEntered
    dsimp only
    split <;> rfl

theorem startEffect_now (p : Params) (d : Descriptor) (h : d.delay = 0) :
    startEffect p EffectPlayer.atReset d = firstPhase p d d.repeatCount := by
  unfold startEffect
  dsimp only
  rw [if_pos h, enterFirstPhase_eq _ _ rfl rfl]

theorem startEffect_delayed (p : Params) (d : Descriptor) (h : d.delay ≠ 0) :
    startEffect p EffectPlayer.atReset d
      = (EffectPlayer.running d .delay d.repeatCount 0 d.delay.toNat, []) := by
  unfold startEffect
  dsimp only
  rw [if_neg h, armTimer_eq, waitOf_of_pos p _ (word_toNat_pos h)]
  rfl

/-! ### The player's commands (41_effect_player.md section 3) -/

/-- EP_PLAY of a present descriptor where no allocation can fail. -/
theorem exec_epPlay_present (s : State) {kind : Byte} {k : EffectKind} (onColor offColor : Color)
    (t0 t1 hold repeatCount delay : Word32) (hk : effectKindOfByte kind = some k) (hp : s.par.allocMayFail = false) :
    exec (.epPlay kind onColor offColor t0 t1 hold repeatCount delay) s
      = .next ((s.withEffect (startEffect s.par EffectPlayer.atReset
          ⟨k, onColor, offColor, t0, t1, hold, repeatCount, delay⟩)).respond .ok []) := by
  simp only [exec, execEpPlay, hk, play_eq s _ hp]

theorem exec_epPlay_now (s : State) {kind : Byte} {k : EffectKind} (onColor offColor : Color)
    (t0 t1 hold repeatCount : Word32) (hk : effectKindOfByte kind = some k) (hp : s.par.allocMayFail = false) :
    exec (.epPlay kind onColor offColor t0 t1 hold repeatCount 0) s
      = .next ((s.withEffect (firstPhase s.par ⟨k, onColor, offColor, t0, t1, hold, repeatCount, 0⟩
          repeatCount)).respond .ok []) := by
  rw [exec_epPlay_present s _ _ _ _ _ _ _ hk hp, startEffect_now _ _ rfl]

theorem exec_epPlay_delayed (s : State) {kind : Byte} {k : EffectKind} (onColor offColor : Color)
    (t0 t1 hold repeatCount delay : Word32) (hk : effectKindOfByte kind = some k) (hp : s.par.allocMayFail = false)
    (hd : delay ≠ 0) :
    exec (.epPlay kind onColor offColor t0 t1 hold repeatCount delay) s
      = .next ((s.withEffect (EffectPlayer.running ⟨k, onColor, offColor, t0, t1, hold, repeatCount, delay⟩ .delay
          repeatCount 0 delay.toNat, [])).respond .ok []) := by
  rw [exec_epPlay_present s _ _ _ _ _ _ _ hk hp, startEffect_delayed _ _ hd]

/-- Settles O20: the first phase of a strobe. -/
theorem epPlayStartsAStrobe : Obligations.EpPlayStartsAStrobe := by
  intro s onColor offColor t0 t1 hold repeatCount hp
  rw [exec_epPlay_now s _ _ _ _ _ _ (k := .strobe) rfl hp, firstPhase_strobe _ _ rfl]
  rfl

/-- Settles O21: the first phase of a fade, which is entered through FADE_IN or, with `fade_in_ms` 0, FADE_HOLD. -/
theorem epPlayStartsAFade : Obligations.EpPlayStartsAFade := by
  intro s onColor offColor t0 t1 hold repeatCount hp
  dsimp only
  rw [exec_epPlay_now s _ _ _ _ _ _ (k := .fade) rfl hp, firstPhase_fade _ _ rfl, fadeEntered]
  dsimp only
  split <;> rfl

/-- Settles O22: both kind bytes name an effect, and its start delay is waited out first. -/
theorem epPlayWaitsItsStartDelay : Obligations.EpPlayWaitsItsStartDelay := by
  intro s kind k onColor offColor t0 t1 hold repeatCount delay hp hkind hd
  have hk : effectKindOfByte kind = some k := by
    obtain ⟨rfl, rfl⟩ | ⟨rfl, rfl⟩ := hkind <;> rfl
  rw [exec_epPlay_delayed s _ _ _ _ _ _ _ hk hp hd, State.withEffect, State.emit, List.append_nil]
  rfl

/-- Kind bytes other than 1 and 2 name no effect (41_effect_player.md R131). -/
theorem effectKindOfByte_of_other {kind : Byte} (h : kind = 0 ∨ 3 ≤ kind.toNat) : effectKindOfByte kind = none := by
  have hone : kind ≠ 1 := by rintro rfl; revert h; decide
  have htwo : kind ≠ 2 := by rintro rfl; revert h; decide
  rw [effectKindOfByte, if_neg hone, if_neg htwo]

/-- Settles O23: such a kind byte names no effect, so the command is refused before it writes anything. -/
theorem epPlayRefusesOtherKinds : Obligations.EpPlayRefusesOtherKinds := by
  intro s kind onColor offColor t0 t1 hold repeatCount delay hkind
  simp only [exec, execEpPlay, effectKindOfByte_of_other hkind]
  rfl

/-- Settles O25: `finish` leaves the player of reset whatever ran (`finish_eq`). -/
theorem epStopFinishesTheEffect : Obligations.EpStopFinishesTheEffect := by
  intro s
  simp only [exec, execEpStop, finish_eq]
  rfl

/-- In IDLE every field of the report is 0 (41_effect_player.md R150). -/
theorem report_of_idle {e : EffectPlayer} (h : EffectInv e) (hidle : e.phase = .idle) :
    e.report = List.replicate 15 0 := by
  obtain ⟨hdesc, hremaining, helapsed⟩ := h.idle_cleared hidle
  have harmed : e.timer.armed = false := by simpa [hidle] using h.armed_iff
  have hcount := h.disarmed_count harmed
  rw [EffectPlayer.report, hidle, hdesc, hremaining, helapsed, harmed, hcount]
  rfl

/-- Settles O26: the payload is the report, each number read back at the offset where `le32b` writes it. -/
theorem epQueryReportsThePlayer : Obligations.EpQueryReportsThePlayer := by
  intro s
  refine ⟨s.ep.report, rfl, ?_, ?_, ?_, rfl, ?_, rfl, report_of_idle⟩
  · have hcodes : s.ep.report.take 2 = [s.ep.phase.code, s.ep.desc.kind.code] := rfl
    rw [hcodes, List.cons.injEq, List.cons.injEq]
    refine ⟨?_, ?_, rfl⟩
    · cases s.ep.phase <;> rfl
    · cases s.ep.desc.kind <;> rfl
  · simp [EffectPlayer.report]
  · simp [EffectPlayer.report]
  · simp [EffectPlayer.report]

/-! ### The expiry rule, phase by phase (41_effect_player.md R140) -/

/-- A running effect whose timer has just run out: what its expiry rule finds (60_exceptions.md R220). -/
def EffectPlayer.expired (d : Descriptor) (phase : Phase) (remaining elapsed : Word32) : EffectPlayer where
  valid := true
  desc := d
  phase := phase
  remaining := remaining
  elapsed := elapsed
  timer := ⟨false, 0⟩

/-- The `TICK` in which only the effect timer expires runs the rule of its phase. -/
theorem step_expired {s : State} {rest : List Event} {d : Descriptor} {phase : Phase} {remaining elapsed : Word32}
    {r : EffectPlayer × List Output} (hin : s.inbox = .tick :: rest) (hq : s.sq.timer.expires = false)
    (hep : s.ep = EffectPlayer.running d phase remaining elapsed 1)
    (hr : effectExpiry s.par (EffectPlayer.expired d phase remaining elapsed) = some r) :
    step s = .next (s.afterEffectTick rest r.1 r.2) :=
  step_effect_tick s rest r.1 r.2 hin (hep ▸ rfl) hq (hep ▸ hr)

section

variable (p : Params) {d : Descriptor} {remaining : Word32}

theorem waitStrobeOff_expired (d : Descriptor) (phase : Phase) (remaining : Word32) :
    waitStrobeOff p (EffectPlayer.expired d phase remaining 0)
      = (EffectPlayer.running d .strobeOff remaining 0 (waitOf p d.t1.toNat), []) := by
  simp only [waitStrobeOff, EffectPlayer.expired, armTimer_eq, EffectPlayer.running]

theorem strobeOn_expiry_forever (h : d.repeatCount = 0) :
    effectExpiry p (EffectPlayer.expired d .strobeOn remaining 0)
      = some (EffectPlayer.running d .strobeOff remaining 0 (waitOf p d.t1.toNat), [.sink d.offColor]) := by
  change some (sinkThen d.offColor (repeatThen _ _)) = _
  rw [repeatThen_forever _ _ h, waitStrobeOff_expired]
  rfl

theorem strobeOn_expiry_last (h : d.repeatCount ≠ 0) (h1 : remaining = 1) :
    effectExpiry p (EffectPlayer.expired d .strobeOn remaining 0)
      = some (EffectPlayer.atReset, [.sink d.offColor]) := by
  change some (sinkThen d.offColor (repeatThen _ _)) = _
  rw [repeatThen_last _ _ h h1]
  rfl

theorem strobeOn_expiry_more (h : d.repeatCount ≠ 0) (h1 : remaining ≠ 1) :
    effectExpiry p (EffectPlayer.expired d .strobeOn remaining 0)
      = some (EffectPlayer.running d .strobeOff (remaining - 1) 0 (waitOf p d.t1.toNat), [.sink d.offColor]) := by
  change some (sinkThen d.offColor (repeatThen _ _)) = _
  rw [repeatThen_more _ _ h h1]
  exact congrArg (fun r => some (sinkThen d.offColor r)) (waitStrobeOff_expired p d .strobeOn (remaining - 1))

theorem strobeOff_expiry :
    effectExpiry p (EffectPlayer.expired d .strobeOff remaining 0)
      = some (EffectPlayer.running d .strobeOn remaining 0 (waitOf p d.t0.toNat), [.sink d.onColor]) := by
  simp only [effectExpiry, EffectPlayer.expired, enterStrobeOn, armTimer_eq, EffectPlayer.running]

theorem delay_expiry :
    effectExpiry p (EffectPlayer.expired d .delay remaining 0) = some (firstPhase p d remaining) :=
  congrArg some (enterFirstPhase_eq p (EffectPlayer.expired d .delay remaining 0) rfl rfl)

/-- The elapsed count goes up in its register as it does in the naturals, up to the width of a u32. -/
theorem ofNat_toNat_add_twenty (elapsed : Word32) : BitVec.ofNat 32 (elapsed.toNat + 20) = elapsed + 20 := by
  apply BitVec.eq_of_toNat_eq
  simp

theorem interpStep_expired (d : Descriptor) (phase : Phase) (remaining elapsed : Word32) (c : Color) :
    interpStep p (EffectPlayer.expired d phase remaining elapsed) (elapsed.toNat + 20) c
      = (EffectPlayer.running d phase remaining (elapsed + 20) 20, [.sink c]) := by
  simp only [interpStep, EffectPlayer.expired, ofNat_toNat_add_twenty, armTimer_eq, EffectPlayer.running]
  rfl

theorem fadeIn_expiry_interpolates {elapsed : Word32} (h : elapsed.toNat + 20 < d.t0.toNat) :
    effectExpiry p (EffectPlayer.expired d .fadeIn remaining elapsed)
      = some (EffectPlayer.running d .fadeIn remaining (elapsed + 20) 20,
          [.sink (interpColor d.onColor d.offColor (elapsed.toNat + 20) d.t0.toNat)]) := by
  rw [← interpStep_expired p d]
  exact congrArg some (if_neg (Nat.not_le.2 h))

theorem fadeIn_expiry_holds {elapsed : Word32} (h : d.t0.toNat ≤ elapsed.toNat + 20) :
    effectExpiry p (EffectPlayer.expired d .fadeIn remaining elapsed)
      = some (EffectPlayer.running d .fadeHold remaining 0 (waitOf p d.hold.toNat), [.sink d.offColor]) := by
  have hhold : enterFadeHold p (EffectPlayer.expired d .fadeIn remaining elapsed)
      = (EffectPlayer.running d .fadeHold remaining 0 (waitOf p d.hold.toNat), [.sink d.offColor]) := by
    simp only [enterFadeHold, EffectPlayer.expired, armTimer_eq, EffectPlayer.running]
  rw [← hhold]
  exact congrArg some (if_pos h)

/-- A completed cycle of a player whose elapsed count is reset (41_effect_player.md R129). -/
theorem sinkThen_cycleComplete_expired (d : Descriptor) (phase : Phase) (remaining : Word32) :
    sinkThen d.onColor (cycleComplete p (EffectPlayer.expired d phase remaining 0))
      = sinkThen d.onColor (cycleEnded p d remaining) := by
  rw [cycleComplete_eq p _ rfl]
  rfl

theorem fadeHold_expiry_fades (h : d.t1 ≠ 0) :
    effectExpiry p (EffectPlayer.expired d .fadeHold remaining 0)
      = some (EffectPlayer.running d .fadeOut remaining 0 20, []) :=
  congrArg some (if_neg h)

theorem fadeHold_expiry_completes (h : d.t1 = 0) :
    effectExpiry p (EffectPlayer.expired d .fadeHold remaining 0)
      = some (sinkThen d.onColor (cycleEnded p d remaining)) := by
  rw [← sinkThen_cycleComplete_expired p d .fadeHold]
  exact congrArg some (if_pos h)

theorem fadeOut_expiry_interpolates {elapsed : Word32} (h : elapsed.toNat + 20 < d.t1.toNat) :
    effectExpiry p (EffectPlayer.expired d .fadeOut remaining elapsed)
      = some (EffectPlayer.running d .fadeOut remaining (elapsed + 20) 20,
          [.sink (interpColor d.offColor d.onColor (elapsed.toNat + 20) d.t1.toNat)]) := by
  rw [← interpStep_expired p d]
  exact congrArg some (if_neg (Nat.not_le.2 h))

theorem fadeOut_expiry_completes {elapsed : Word32} (h : d.t1.toNat ≤ elapsed.toNat + 20) :
    effectExpiry p (EffectPlayer.expired d .fadeOut remaining elapsed)
      = some (sinkThen d.onColor (cycleEnded p d remaining)) := by
  rw [← sinkThen_cycleComplete_expired p d .fadeOut]
  exact congrArg some (if_pos h)

end

/-- Below the length of its phase, the elapsed count does not wrap. -/
theorem elapsed_add_twenty_toNat {elapsed total : Word32} (h : elapsed.toNat + 20 < total.toNat) :
    (elapsed + 20).toNat = elapsed.toNat + 20 := by
  rw [← ofNat_toNat_add_twenty, BitVec.toNat_ofNat, Nat.mod_eq_of_lt (h.trans total.isLt)]

/-- Settles O28, expiry by expiry. -/
theorem strobeExpiryToggles : Obligations.StrobeExpiryToggles := by
  intro s rest d remaining hin hq
  exact ⟨fun hep =>
      ⟨fun h0 => step_expired hin hq hep (strobeOn_expiry_forever s.par h0),
       fun h0 h1 => step_expired hin hq hep (strobeOn_expiry_last s.par h0 h1),
       fun h0 h1 => step_expired hin hq hep (strobeOn_expiry_more s.par h0 h1)⟩,
    fun hep => step_expired hin hq hep (strobeOff_expiry s.par)⟩

/-- Settles O29: the rule enters `firstPhase`, which is the strobe's or the fade's. -/
theorem delayExpiryEntersTheFirstPhase : Obligations.DelayExpiryEntersTheFirstPhase := by
  intro s rest d remaining hin hq hep
  have hstep := step_expired hin hq hep (delay_expiry s.par)
  refine ⟨fun hk => ?_, fun hk => ?_⟩
  · rw [hstep, firstPhase_strobe _ _ hk]
  · rw [hstep, firstPhase_fade _ _ hk, sinkThen_fst, sinkThen_snd]

/-- Settles O30: the two sides of the bound are the two branches of the rule of FADE_IN. -/
theorem fadeInTickInterpolatesOrHolds : Obligations.FadeInTickInterpolatesOrHolds := by
  intro s rest d remaining elapsed hin hq hep
  exact ⟨fun h => ⟨step_expired hin hq hep (fadeIn_expiry_interpolates s.par h), elapsed_add_twenty_toNat h⟩,
    fun h => step_expired hin hq hep (fadeIn_expiry_holds s.par h)⟩

/-- Settles O31: the two branches of the rule of FADE_HOLD. -/
theorem fadeHoldExpiryEntersFadeOut : Obligations.FadeHoldExpiryEntersFadeOut := by
  intro s rest d remaining hin hq hep
  exact ⟨fun h => step_expired hin hq hep (fadeHold_expiry_fades s.par h),
    fun h => step_expired hin hq hep (fadeHold_expiry_completes s.par h)⟩

/-- Settles O32: the two sides of the bound are the two branches of the rule of FADE_OUT. -/
theorem fadeOutTickInterpolatesOrCompletes : Obligations.FadeOutTickInterpolatesOrCompletes := by
  intro s rest d remaining elapsed hin hq hep
  exact ⟨fun h => ⟨step_expired hin hq hep (fadeOut_expiry_interpolates s.par h), elapsed_add_twenty_toNat h⟩,
    fun h => step_expired hin hq hep (fadeOut_expiry_completes s.par h)⟩

end Sys2Proof.Machine

namespace Sys2Proof.Machine

open Sys2Proof

/-! ### The player alone in a `TICK` (60_exceptions.md R220, 42_sequence.md R171) -/

/-- What a `TICK` does to the player, whatever the rest of the block is: its timer counts down, or expires and the rule
of its phase runs. -/
def effectTick (p : Params) (e : EffectPlayer) : Option (EffectPlayer × List Output) :=
  if e.timer.expires then effectExpiry p { e with timer := e.timer.countDown }
  else some ({ e with timer := e.timer.countDown }, [])

/-- With the stepper's timer disarmed, a `TICK` is the player's. -/
theorem step_tick_of_disarmed {s : State} {rest : List Event} {r : EffectPlayer × List Output}
    (hin : s.inbox = .tick :: rest) (hq : s.sq.timer.armed = false) (hr : effectTick s.par s.ep = some r) :
    step s = .next (s.afterEffectTick rest r.1 r.2) := by
  have hquiet : s.sq.timer.expires = false := by simp [Timer.expires, hq]
  unfold effectTick at hr
  split at hr
  · next hx =>
    rw [step_tick s rest hin, tick_effect (s.opened rest) hx hquiet,
      runEffectExpiry_eq (s.opened rest).countedDown r hr]
    rfl
  · next hx =>
    obtain rfl := Option.some.inj hr
    rw [step_tick s rest hin, tick_quiet (s.opened rest) (Bool.eq_false_iff.2 hx) hquiet]
    rfl

theorem State.afterEffectTick_sq_of_disarmed {s : State} (hq : s.sq.timer.armed = false) (rest : List Event)
    (e : EffectPlayer) (out : List Output) : (s.afterEffectTick rest e out).sq = s.sq := by
  simp only [State.afterEffectTick, countDown_disarmed _ hq]

theorem effectTick_atReset (p : Params) : effectTick p EffectPlayer.atReset = some (EffectPlayer.atReset, []) := rfl

theorem effectTick_running_one (p : Params) (d : Descriptor) (phase : Phase) (remaining elapsed : Word32) :
    effectTick p (EffectPlayer.running d phase remaining elapsed 1)
      = effectExpiry p (EffectPlayer.expired d phase remaining elapsed) := by
  have hx : (EffectPlayer.running d phase remaining elapsed 1).timer.expires = true := (expires_iff _).2 ⟨rfl, rfl⟩
  rw [effectTick, if_pos hx, countDown_expiring _ hx]
  rfl

/-- With more than one `TICK` to wait, the player waits one less. -/
theorem effectTick_running_succ (p : Params) (d : Descriptor) (phase : Phase) (remaining elapsed : Word32) {n : Nat}
    (hpos : 0 < n) (hlt : n + 1 < 2 ^ 32) :
    effectTick p (EffectPlayer.running d phase remaining elapsed (n + 1))
      = some (EffectPlayer.running d phase remaining elapsed n, []) := by
  have hcount : BitVec.ofNat 32 (n + 1) - 1 = BitVec.ofNat 32 n := by simp [BitVec.ofNat_add]
  have hx : (⟨true, BitVec.ofNat 32 (n + 1)⟩ : Timer 32).expires = false := by
    rw [Bool.eq_false_iff, ne_eq, expires_iff]
    rintro ⟨-, hone⟩
    have htoNat := congrArg BitVec.toNat hone
    simp only [BitVec.toNat_ofNat, BitVec.ofNat_eq_ofNat] at htoNat
    omega
  simp only [effectTick, EffectPlayer.running, hx, countDown_running _ rfl hx, hcount]
  rfl

theorem toNat_ofNat_of_lt {n : Nat} (h : n < 2 ^ 32) : (BitVec.ofNat 32 n).toNat = n :=
  (BitVec.toNat_ofNat n 32).trans (Nat.mod_eq_of_lt h)

/-- `phase` of the effect `d` interpolates from `start` to `finish` over `total` ms and then does `r`
(41_effect_player.md R141, R142). -/
structure InterpolationPhase (p : Params) (d : Descriptor) (phase : Phase) (remaining : Word32) (start finish : Color)
    (total : Word32) (r : EffectPlayer × List Output) : Prop where
  /-- Below the length of the phase: the interpolated color, and 20 ms more. -/
  below : ∀ elapsed : Word32, elapsed.toNat + 20 < total.toNat →
    effectExpiry p (EffectPlayer.expired d phase remaining elapsed)
      = some (EffectPlayer.running d phase remaining (elapsed + 20) 20,
          [.sink (interpColor start finish (elapsed.toNat + 20) total.toNat)])
  /-- At the length of the phase or past it. -/
  past : ∀ elapsed : Word32, total.toNat ≤ elapsed.toNat + 20 →
    effectExpiry p (EffectPlayer.expired d phase remaining elapsed) = some r

theorem fadeIn_interpolates (p : Params) (d : Descriptor) (remaining : Word32) :
    InterpolationPhase p d .fadeIn remaining d.onColor d.offColor d.t0
      (EffectPlayer.running d .fadeHold remaining 0 (waitOf p d.hold.toNat), [.sink d.offColor]) :=
  ⟨fun _ => fadeIn_expiry_interpolates p, fun _ => fadeIn_expiry_holds p⟩

theorem fadeOut_interpolates (p : Params) (d : Descriptor) (remaining : Word32) :
    InterpolationPhase p d .fadeOut remaining d.offColor d.onColor d.t1
      (sinkThen d.onColor (cycleEnded p d remaining)) :=
  ⟨fun _ => fadeOut_expiry_interpolates p, fun _ => fadeOut_expiry_completes p⟩

/-! ### The remaining count of a finite effect (10_state.md R27) -/

/-- A u32 other than 0 is one more than some natural. -/
theorem exists_toNat_eq_succ {v : Word32} (h : v ≠ 0) : ∃ m, v.toNat = m + 1 :=
  Nat.exists_eq_add_one_of_ne_zero (word_toNat_pos h).ne'

theorem remaining_eq_one {remaining : Word32} (h : remaining.toNat = 0 + 1) : remaining = 1 :=
  BitVec.eq_of_toNat_eq h

theorem remaining_sub_one_toNat {remaining : Word32} {m : Nat} (h : remaining.toNat = m + 1 + 1) :
    remaining ≠ 1 ∧ (remaining - 1).toNat = m + 1 := by
  have hlt := remaining.isLt
  constructor
  · rintro rfl
    simp at h
  · rw [BitVec.toNat_sub]
    simp only [BitVec.ofNat_eq_ofNat, BitVec.toNat_ofNat]
    omega

/-! ### The player over many `TICK`s -/

/-- In `k` `TICK`s the player goes from `r.1` to `r'.1`, and its writes grow from `r.2` to `r'.2`. -/
inductive PlaysTo (p : Params) : Nat → EffectPlayer × List Output → EffectPlayer × List Output → Prop
  | here (r : EffectPlayer × List Output) : PlaysTo p 0 r r
  | tick {k : Nat} {r r' q : EffectPlayer × List Output} (first : effectTick p r.1 = some q)
      (later : PlaysTo p k (q.1, r.2 ++ q.2) r') : PlaysTo p (k + 1) r r'

namespace PlaysTo

variable {p : Params}

theorem trans {j k n : Nat} {r r' r'' : EffectPlayer × List Output} (h : PlaysTo p j r r') (h' : PlaysTo p k r' r'')
    (hn : n = j + k) : PlaysTo p n r r'' := by
  subst hn
  induction h with
  | here => rwa [Nat.zero_add]
  | tick first _ ih =>
    rw [Nat.add_right_comm]
    exact .tick first (ih h')

/-- What was written before stays in front. -/
theorem before {k : Nat} {r r' : EffectPlayer × List Output} (h : PlaysTo p k r r') (os : List Output) :
    PlaysTo p k (r.1, os ++ r.2) (r'.1, os ++ r'.2) := by
  induction h with
  | here => exact .here _
  | tick first _ ih =>
    refine .tick first ?_
    rw [List.append_assoc]
    exact ih

theorem atReset (k : Nat) (os : List Output) : PlaysTo p k (EffectPlayer.atReset, os) (EffectPlayer.atReset, os) := by
  induction k with
  | zero => exact .here _
  | succ k ih =>
    refine .tick (effectTick_atReset p) ?_
    rwa [List.append_nil]

section

variable {d : Descriptor} {phase : Phase} {remaining elapsed : Word32}

/-- A running effect counts down in silence. -/
theorem countDown {m : Nat} (hpos : 0 < m) (k : Nat) (hlt : m + k < 2 ^ 32) (os : List Output) :
    PlaysTo p k (EffectPlayer.running d phase remaining elapsed (m + k), os)
      (EffectPlayer.running d phase remaining elapsed m, os) := by
  induction k with
  | zero => exact .here _
  | succ k ih =>
    refine .tick (effectTick_running_succ p d phase remaining elapsed (Nat.add_pos_left hpos k) hlt) ?_
    rw [List.append_nil]
    exact ih (Nat.lt_of_succ_lt hlt)

/-- A running effect waits out its `n` `TICK`s, and in the last of them the rule of its phase runs. -/
theorem wait {n : Nat} {r : EffectPlayer × List Output}
    (hr : effectExpiry p (EffectPlayer.expired d phase remaining elapsed) = some r) (hpos : 0 < n) (hlt : n < 2 ^ 32)
    (os : List Output) :
    PlaysTo p n (EffectPlayer.running d phase remaining elapsed n, os) (r.1, os ++ r.2) := by
  obtain ⟨k, rfl⟩ := Nat.exists_eq_add_of_le hpos
  have hlast := PlaysTo.tick (r := (_, os)) ((effectTick_running_one ..).trans hr) (.here _)
  exact trans (countDown Nat.one_pos k hlt os) hlast (Nat.add_comm 1 k)

/-- An interpolation phase of length `total` from `elapsed = 20 * j` on, of which `m` interpolated colors are still to
come: one every 20 ms, and 20 ms later what ends the phase (41_effect_player.md R141, R142). -/
theorem interpolate_from {start finish : Color} {total : Word32} {r : EffectPlayer × List Output}
    (h : InterpolationPhase p d phase remaining start finish total r) (m j : Nat) (hlast : 20 * (j + m) < total.toNat)
    (hend : total.toNat ≤ 20 * (j + m + 1)) (os : List Output) :
    PlaysTo p (20 * (m + 1)) (EffectPlayer.running d phase remaining (BitVec.ofNat 32 (20 * j)) 20, os)
      (r.1,
        os ++ (List.range' (j + 1) m).map (fun i => .sink (interpColor start finish (20 * i) total.toNat))
          ++ r.2) := by
  have hfits := total.isLt
  induction m generalizing j os with
  | zero =>
    rw [List.range'_zero, List.map_nil, List.append_nil]
    have helapsed := toNat_ofNat_of_lt (n := 20 * j) (by omega)
    exact wait (h.past _ (by omega)) (by decide) (by decide) os
  | succ m ih =>
    have helapsed := toNat_ofNat_of_lt (n := 20 * j) (by omega)
    have hfirst := wait (n := 20) (h.below (BitVec.ofNat 32 (20 * j)) (by omega)) (by decide) (by decide) os
    have hsum : BitVec.ofNat 32 (20 * j) + 20 = BitVec.ofNat 32 (20 * (j + 1)) := by
      rw [Nat.mul_add, BitVec.ofNat_add]
      rfl
    have hrest := ih (j + 1) (by omega) (by omega)
      (os ++ [.sink (interpColor start finish (20 * (j + 1)) total.toNat)])
    rw [helapsed, hsum, ← Nat.mul_add_one] at hfirst
    refine trans (k := 20 * (m + 1)) hfirst ?_ (by omega)
    rw [List.range'_succ, List.map_cons]
    simpa only [List.append_assoc, List.cons_append, List.nil_append] using hrest

/-- An interpolation phase of length `total`, from its entry to what ends it, takes `L(total)` `TICK`s
(41_effect_player.md R145). -/
theorem interpolate {start finish : Color} {total : Word32} {r : EffectPlayer × List Output}
    (h : InterpolationPhase p d phase remaining start finish total r) (hpos : total ≠ 0) (os : List Output) :
    PlaysTo p (fadeTicks total.toNat) (EffectPlayer.running d phase remaining 0 20, os)
      (r.1, os ++ interpolatedColors start finish total.toNat ++ r.2) := by
  have hsome := word_toNat_pos hpos
  have hcount : fadeTicks total.toNat = 20 * ((total.toNat + 19) / 20 - 1 + 1) := by
    unfold fadeTicks
    omega
  have hcolors : (List.range' (0 + 1) ((total.toNat + 19) / 20 - 1)).map
      (fun i => Output.sink (interpColor start finish (20 * i) total.toNat))
        = interpolatedColors start finish total.toNat := by
    rw [List.range'_eq_map_range, List.map_map, interpolatedColors]
    simp only [Function.comp_def, Nat.zero_add, Nat.add_comm 1]
  have hphase := interpolate_from h ((total.toNat + 19) / 20 - 1) 0 (by omega) (by omega) os
  rwa [hcolors, ← hcount] at hphase

end

/-! ### A strobe's toggles and a fade's cycles -/

/-- A finite strobe that has written `on` and has `m + 1` toggles left writes the rest of them and finishes
(41_effect_player.md R143). -/
theorem strobe (hp : ParamsLegal p) {d : Descriptor} (hfinite : d.repeatCount ≠ 0) (m : Nat) {remaining : Word32}
    (hm : remaining.toNat = m + 1) :
    PlaysTo p ((m + 1) * waitOf p d.t0.toNat + m * waitOf p d.t1.toNat)
      (EffectPlayer.running d .strobeOn remaining 0 (waitOf p d.t0.toNat), [.sink d.onColor])
      (EffectPlayer.atReset, (List.replicate (m + 1) [Output.sink d.onColor, Output.sink d.offColor]).flatten) := by
  have hon := waitOf_pos p hp d.t0.toNat
  have hon' := waitOf_lt p hp d.t0.toNat d.t0.isLt
  have hoff := waitOf_pos p hp d.t1.toNat
  have hoff' := waitOf_lt p hp d.t1.toNat d.t1.isLt
  induction m generalizing remaining with
  | zero =>
    have hlast := wait (strobeOn_expiry_last p hfinite (remaining_eq_one hm)) hon hon' [.sink d.onColor]
    simpa using hlast
  | succ m ih =>
    obtain ⟨hne, hless⟩ := remaining_sub_one_toNat hm
    have htoggle := wait (strobeOn_expiry_more p hfinite hne) hon hon' [.sink d.onColor]
    have hagain := wait (strobeOff_expiry p (d := d) (remaining := remaining - 1)) hoff hoff'
      [.sink d.onColor, .sink d.offColor]
    have hrest := (ih hless).before [.sink d.onColor, .sink d.offColor]
    rw [List.replicate_succ, List.flatten_cons]
    exact trans (trans htoggle hagain rfl) hrest (by ring)

/-- The first half of a fade cycle: FADE_IN, none of it with `fade_in_ms` 0, and `off` written on entering FADE_HOLD
(41_effect_player.md R126, R127, R141). -/
theorem fadeIn (d : Descriptor) (remaining : Word32) :
    PlaysTo p (fadeTicks d.t0.toNat) (fadeEntered p d remaining)
      (EffectPlayer.running d .fadeHold remaining 0 (waitOf p d.hold.toNat),
        interpolatedColors d.onColor d.offColor d.t0.toNat ++ [.sink d.offColor]) := by
  unfold fadeEntered
  split
  · next h0 =>
    rw [h0]
    exact .here _
  · next h0 =>
    exact interpolate (fadeIn_interpolates p d remaining) h0 []

/-- The second half of a fade cycle: FADE_HOLD, then FADE_OUT, none of it with `fade_out_ms` 0, and `on` written as the
cycle ends (41_effect_player.md R128, R129, R142). -/
theorem fadeHold (hp : ParamsLegal p) (d : Descriptor) (remaining : Word32) (os : List Output) :
    PlaysTo p (waitOf p d.hold.toNat + fadeTicks d.t1.toNat)
      (EffectPlayer.running d .fadeHold remaining 0 (waitOf p d.hold.toNat), os)
      ((cycleEnded p d remaining).1,
        os ++ interpolatedColors d.offColor d.onColor d.t1.toNat
          ++ (.sink d.onColor :: (cycleEnded p d remaining).2)) := by
  have hpos := waitOf_pos p hp d.hold.toNat
  have hlt := waitOf_lt p hp d.hold.toNat d.hold.isLt
  by_cases h1 : d.t1 = 0
  · have hnone : interpolatedColors d.offColor d.onColor d.t1.toNat = [] := by
      rw [h1]
      rfl
    have hticks : fadeTicks d.t1.toNat = 0 := by
      rw [h1]
      rfl
    rw [hnone, hticks, List.append_nil, Nat.add_zero]
    exact wait (fadeHold_expiry_completes p h1) hpos hlt os
  · have hhold := wait (fadeHold_expiry_fades p (remaining := remaining) h1) hpos hlt os
    rw [List.append_nil] at hhold
    exact trans hhold (interpolate (fadeOut_interpolates p d remaining) h1 os) rfl

/-- One fade cycle, from its entry to its end. -/
theorem fadeCycle (hp : ParamsLegal p) (d : Descriptor) (remaining : Word32) :
    PlaysTo p (fadeTicks d.t0.toNat + waitOf p d.hold.toNat + fadeTicks d.t1.toNat) (fadeEntered p d remaining)
      ((cycleEnded p d remaining).1, fadeCycleOutputs d ++ (cycleEnded p d remaining).2) := by
  have h := trans (fadeIn d remaining) (fadeHold hp d remaining _) (Nat.add_assoc _ _ _)
  simpa [fadeCycleOutputs] using h

/-- A finite fade with `m + 1` cycles left runs them and finishes (41_effect_player.md R145). -/
theorem fade (hp : ParamsLegal p) {d : Descriptor} (hfinite : d.repeatCount ≠ 0) (m : Nat) {remaining : Word32}
    (hm : remaining.toNat = m + 1) :
    PlaysTo p ((m + 1) * (fadeTicks d.t0.toNat + waitOf p d.hold.toNat + fadeTicks d.t1.toNat))
      (fadeEntered p d remaining)
      (EffectPlayer.atReset, (List.replicate (m + 1) (fadeCycleOutputs d)).flatten) := by
  have hcycle := fadeCycle hp d remaining
  induction m generalizing remaining with
  | zero =>
    have hended : cycleEnded p d remaining = (EffectPlayer.atReset, []) := by
      rw [cycleEnded, if_neg hfinite, if_pos (remaining_eq_one hm)]
    simpa [hended] using hcycle
  | succ m ih =>
    obtain ⟨hne, hless⟩ := remaining_sub_one_toNat hm
    have hended : cycleEnded p d remaining = fadeEntered p d (remaining - 1) := by
      rw [cycleEnded, if_neg hfinite, if_neg hne]
    rw [hended] at hcycle
    rw [List.replicate_succ, List.flatten_cons]
    exact trans hcycle ((ih hless (fadeCycle hp d _)).before (fadeCycleOutputs d)) (by ring)

end PlaysTo

/-! ### Runs in which only the player moves -/

/-- `k` steps from `s` answer, leave the player at `e` and the rest of the block as it was, and output `os`. -/
def EffectRun (s : State) (k : Nat) (e : EffectPlayer) (os : List Output) : Prop :=
  ∃ t obs, run k s = some (t, obs) ∧ outputsOf obs = os ∧ t.ep = e
    ∧ t.sq = s.sq ∧ t.pal = s.pal ∧ t.isRoot = s.isRoot ∧ t.par = s.par

theorem run_succ {s t u : State} {obs : List Observation} {n : Nat} (h : step s = .next t)
    (hrun : run n t = some (u, obs)) : run (n + 1) s = some (u, ⟨t.resp, t.out⟩ :: obs) := by
  simp only [run, h, hrun]

/-- A step that keeps all but the player, and a run after it. -/
theorem EffectRun.cons {s t : State} {k : Nat} {e : EffectPlayer} {os : List Output} (h : step s = .next t)
    (hsq : t.sq = s.sq) (hpal : t.pal = s.pal) (hroot : t.isRoot = s.isRoot) (hpar : t.par = s.par)
    (hrun : EffectRun t k e os) : EffectRun s (k + 1) e (t.out ++ os) := by
  obtain ⟨u, obs, hk, rfl, hep, hsq', hpal', hroot', hpar'⟩ := hrun
  exact ⟨u, _, run_succ h hk, rfl, hep, hsq'.trans hsq, hpal'.trans hpal, hroot'.trans hroot, hpar'.trans hpar⟩

/-- With the stepper's timer disarmed, `k` scheduled `TICK`s run the player alone. -/
theorem PlaysTo.effectRun {p : Params} {k : Nat} {r r' : EffectPlayer × List Output} (h : PlaysTo p k r r') {s : State}
    {rest : List Event} (hpar : s.par = p) (hep : s.ep = r.1) (hq : s.sq.timer.armed = false)
    (hin : s.inbox = List.replicate k .tick ++ rest) : ∃ os, r'.2 = r.2 ++ os ∧ EffectRun s k r'.1 os := by
  induction h generalizing s with
  | here r => exact ⟨[], (List.append_nil _).symm, s, [], rfl, rfl, hep, rfl, rfl, rfl, rfl⟩
  | @tick k r r' q first _ ih =>
    have hin' : s.inbox = .tick :: (List.replicate k .tick ++ rest) := hin
    have hstep := step_tick_of_disarmed hin' hq (by rw [hpar, hep, first])
    have hsq := State.afterEffectTick_sq_of_disarmed hq (List.replicate k .tick ++ rest) q.1 q.2
    obtain ⟨os, hos, hrun⟩ := ih (s := s.afterEffectTick (List.replicate k .tick ++ rest) q.1 q.2) hpar rfl
      (by rw [hsq, hq]) rfl
    exact ⟨q.2 ++ os, by rw [hos, List.append_assoc], hrun.cons hstep hsq rfl rfl rfl⟩

/-- The run of a player's command and `k` of the `TICK`s scheduled after it, with a stopped stepper: `u` is what the
command leaves, and the player goes on from there. -/
theorem effectRun_of_command {s u : State} {i : Instr} {n k : Nat} {r : EffectPlayer × List Output} (hs : s.Inv)
    (hstopped : s.sq.active = false) (hin : s.inbox = commandThenTicks i n) (hwf : i.wellFormed = true)
    (hop : opcodeOf i = .epPlay ∨ opcodeOf i = .epStop) (hexec : exec i (s.opened (List.replicate n .tick)) = .next u)
    (hk : k ≤ n) (h : PlaysTo s.par k (u.ep, u.out) r) : EffectRun s (1 + k) r.1 r.2 := by
  have hstep := step_command s _ i _ hin (decodeOfEncodeIsTheCommand i hwf)
  have heffect := exec_effect i _ u hexec
  obtain ⟨hroot, hpar, hinbox⟩ := heffect.frame
  have hsq : u.sq = s.sq := by
    obtain ho | ho := hop <;> exact heffect.sq_eq (by simp [ho]) (by simp [ho]) (by simp [ho]) (by simp [ho])
  have hpal : u.pal = s.pal := by
    obtain ho | ho := hop <;> exact heffect.pal_eq (by simp [ho]) (by simp [ho])
  have hdisarmed : u.sq.timer.armed = false := by rw [hsq, hs.sequence.armed_eq, hstopped]
  have hticks : u.inbox = List.replicate k .tick ++ List.replicate (n - k) .tick := by
    rw [hinbox, State.opened_inbox, List.replicate_append_replicate, Nat.add_sub_cancel' hk]
  obtain ⟨os, hos, hrun⟩ := h.effectRun hpar rfl hdisarmed hticks
  rw [hos, Nat.add_comm]
  exact hrun.cons (hstep.trans hexec) hsq hpal hroot hpar

/-- Settles O36: `finish` leaves the player of reset, in which no `TICK` does anything. -/
theorem nothingIsWrittenAfterEpStop : Obligations.NothingIsWrittenAfterEpStop := by
  intro n s hs hstopped hin
  obtain ⟨t, obs, hrun, hout, hep, hsq, -⟩ :=
    effectRun_of_command hs hstopped hin rfl (.inr rfl) rfl (Nat.le_refl n) (.atReset n [])
  exact ⟨t, obs, hrun, hout, hep, hsq⟩

/-- Settles O33: EP_PLAY enters STROBE_ON, and `PlaysTo.strobe` runs the toggles from there. -/
theorem finiteStrobeRunsItsToggles : Obligations.FiniteStrobeRunsItsToggles := by
  intro s onColor offColor t0 t1 hold repeatCount hs hstopped hp hfinite n ticks hin
  obtain ⟨m, hm⟩ := exists_toNat_eq_succ hfinite
  have hplays := PlaysTo.strobe hs.params (d := ⟨.strobe, onColor, offColor, t0, t1, hold, repeatCount, 0⟩) hfinite m hm
  have hn : n = m + 1 := hm
  have hticks : ticks = (m + 1) * waitOf s.par t0.toNat + m * waitOf s.par t1.toNat := by
    simp only [ticks, hn, Nat.add_sub_cancel]
  rw [hn]
  rw [← hticks] at hplays
  obtain ⟨t, obs, hrun, hout, hep, hsq, hpal, -⟩ := effectRun_of_command hs hstopped hin rfl (.inl rfl)
    (epPlayStartsAStrobe _ onColor offColor t0 t1 hold repeatCount hp) (Nat.le_refl ticks) hplays
  exact ⟨t, obs, hrun, hout, hep, hsq, hpal⟩

/-- Settles O34: EP_PLAY writes `on` and enters the fade, and `PlaysTo.fade` runs the cycles from there. -/
theorem finiteFadeRunsItsCycles : Obligations.FiniteFadeRunsItsCycles := by
  intro s onColor offColor t0 t1 hold repeatCount hs hstopped hp hfinite n ticks hin
  obtain ⟨m, hm⟩ := exists_toNat_eq_succ hfinite
  have hplays := (PlaysTo.fade hs.params (d := ⟨.fade, onColor, offColor, t0, t1, hold, repeatCount, 0⟩) hfinite m
    hm).before [.sink onColor]
  rw [← hm] at hplays
  have hexec := exec_epPlay_now (s.opened (List.replicate ticks .tick)) onColor offColor t0 t1 hold repeatCount
    (kind := 2) (k := .fade) rfl hp
  rw [firstPhase_fade _ _ rfl] at hexec
  obtain ⟨t, obs, hrun, hout, hep, hsq, hpal, -⟩ := effectRun_of_command hs hstopped hin rfl (.inl rfl)
    hexec (Nat.le_refl ticks) hplays
  exact ⟨t, obs, hrun, hout, hep, hsq, hpal⟩

/-- Settles O35: the player counts the delay down in silence, and its last `TICK` enters the first phase that EP_PLAY
enters at once with no delay (`firstPhase_withDelay`). -/
theorem startDelayPostponesTheEffect : Obligations.StartDelayPostponesTheEffect := by
  intro s kind onColor offColor t0 t1 hold repeatCount delay hs hstopped hp hkind hd hout hin
  obtain ⟨k, hk⟩ : ∃ k, effectKindOfByte kind = some k := by
    obtain rfl | rfl := hkind
    · exact ⟨.strobe, rfl⟩
    · exact ⟨.fade, rfl⟩
  obtain ⟨m, hm⟩ := exists_toNat_eq_succ hd
  have hlt : 1 + m < 2 ^ 32 := by
    have := delay.isLt
    omega
  have hexec := exec_epPlay_delayed (s.opened (List.replicate delay.toNat .tick)) onColor offColor t0 t1 hold
    repeatCount delay hk hp hd
  constructor
  · have hplays := PlaysTo.countDown (p := s.par) (phase := .delay) (remaining := repeatCount) (elapsed := 0)
      (d := ⟨k, onColor, offColor, t0, t1, hold, repeatCount, delay⟩) Nat.one_pos m hlt []
    rw [Nat.add_comm 1 m, ← hm] at hplays
    obtain ⟨t, obs, hrun, hwrites, hep, -⟩ :=
      effectRun_of_command hs hstopped hin rfl (.inl rfl) hexec (by omega) hplays
    refine ⟨t, obs, ?_, hwrites, congrArg EffectPlayer.phase hep⟩
    rw [hm, Nat.add_comm]
    exact hrun
  · have hplays := PlaysTo.wait (delay_expiry s.par (remaining := repeatCount)
      (d := ⟨k, onColor, offColor, t0, t1, hold, repeatCount, delay⟩)) (word_toNat_pos hd) delay.isLt []
    obtain ⟨t, obs, hrun, hwrites, hep, hrest⟩ :=
      effectRun_of_command hs hstopped hin rfl (.inl rfl) hexec (Nat.le_refl _) hplays
    obtain ⟨hplayer, hcolors⟩ := Prod.ext_iff.1
      (firstPhase_withDelay s.par ⟨k, onColor, offColor, t0, t1, hold, repeatCount, 0⟩ repeatCount delay)
    refine ⟨t, obs, _, hrun, exec_epPlay_now s _ _ _ _ _ _ hk hp, ?_, ?_, hrest⟩
    · rw [hwrites, State.respond_out, State.withEffect_out, hout]
      exact hcolors
    · rw [hep]
      exact hplayer

end Sys2Proof.Machine

namespace Sys2Proof.Machine

open Sys2Proof

/-! ### The checks of the stepper's commands (60_exceptions.md R216, R223) -/

theorem State.onRoot_root {s : State} (root : s.isRoot = true) (k : State) : s.onRoot k = k := if_pos root

/-- On a child a role-checked command only answers. -/
theorem State.onRoot_child {s : State} (child : s.isRoot = false) (k : State) :
    s.onRoot k = s.answered .wrongRole [] :=
  if_neg (Bool.eq_false_iff.1 child)

/-- A command that draws (60_exceptions.md R216): a true draw refuses it, and on a false one it leaves `k`. -/
def State.onDraw (s k : State) : State := if s.allocFails then s.drawn.raise .resourceExhausted else k

theorem State.allocFails_of_never {s : State} (never : s.par.allocMayFail = false) : s.allocFails = false := by
  simp [State.allocFails, never]

theorem State.drawn_of_never {s : State} (never : s.par.allocMayFail = false) : s.drawn = s := by
  simp [State.drawn, never]

theorem State.onDraw_never {s : State} (never : s.par.allocMayFail = false) (k : State) : s.onDraw k = k := by
  simp [State.onDraw, State.allocFails_of_never never]

theorem State.drawn_of_may {s : State} (may : s.par.allocMayFail = true) : s.drawn = { s with draws := s.draws + 1 } := by
  simp [State.drawn, may]

theorem State.onDraw_may {s : State} (may : s.par.allocMayFail = true) (k : State) :
    s.onDraw k
      = if Config.allocFails s.draws then { s with draws := s.draws + 1, resp := some ⟨.resourceExhausted, []⟩ }
        else k := by
  simp only [State.onDraw, State.allocFails, may, Bool.true_and, State.drawn_of_may may]
  rfl

/-! ### The stepper's commands (42_sequence.md section 2) -/

theorem exec_sqStore_root {s : State} (root : s.isRoot = true) {rhythm : Byte} (legal : rhythm ≠ 0)
    (buffer : List Byte) :
    exec (.sqStore rhythm buffer) s
      = .next (s.onDraw { s.drawn with
          sq := ⟨rhythm, 0, true, ⟨true, BitVec.ofNat 16 (rhythm.toNat * 10)⟩⟩
          pal := Memory.load buffer
          out := s.out ++ [.msg (s.par.idSequence :: rhythm :: buffer)]
          resp := some ⟨.ok, []⟩ }) := by
  simp only [exec, execSqStore, State.onRoot_root root, isRhythm_of_ne rhythm legal,
    restarted_eq s.par { s.sq with rhythm := rhythm } legal]
  rfl

theorem exec_sqStore_zero {s : State} (root : s.isRoot = true) (buffer : List Byte) :
    exec (.sqStore 0 buffer) s = .next (s.answered .invalidArgument []) := by
  simp only [exec, execSqStore, State.onRoot_root root]
  rfl

theorem exec_sqStart_root {s : State} (root : s.isRoot = true) :
    exec .sqStart s
      = .next (s.onDraw { s.drawn with
          sq := Sequencer.restarted s.par s.sq
          out := s.out ++ [.msg [s.par.idStart]]
          resp := some ⟨.ok, []⟩ }) :=
  congrArg _ (State.onRoot_root root _)

theorem exec_sqStop_root {s : State} (root : s.isRoot = true) :
    exec .sqStop s
      = .next { s with
          sq := ⟨s.sq.rhythm, s.sq.pointer, false, ⟨false, 0⟩⟩
          out := s.out ++ [.msg [s.par.idStop]]
          resp := some ⟨.ok, []⟩ } :=
  congrArg _ (State.onRoot_root root _)

/-- SQ_RESET restarts an active stepper. -/
theorem pointerReset_of_active (p : Params) {q : Sequencer} (active : q.active = true) :
    Sequencer.pointerReset p q = Sequencer.restarted p q := by
  rw [Sequencer.pointerReset, if_pos active, Sequencer.restarted, ← active]

theorem pointerReset_of_stopped (p : Params) {q : Sequencer} (stopped : q.active = false) :
    Sequencer.pointerReset p q = ⟨q.rhythm, 0, false, q.timer⟩ := by
  rw [Sequencer.pointerReset, if_neg (Bool.eq_false_iff.1 stopped), stopped]

theorem exec_sqReset_active {s : State} (root : s.isRoot = true) (active : s.sq.active = true) :
    exec .sqReset s
      = .next (s.onDraw { s.drawn with
          sq := Sequencer.restarted s.par s.sq
          out := s.out ++ [.msg [s.par.idReset]]
          resp := some ⟨.ok, []⟩ }) := by
  simp only [exec, execSqReset, State.onRoot_root root, pointerReset_of_active s.par active, active, Bool.true_and,
    if_true]
  rfl

/-- A stopped stepper draws nothing. -/
theorem exec_sqReset_stopped {s : State} (root : s.isRoot = true) (stopped : s.sq.active = false) :
    exec .sqReset s
      = .next { s with
          sq := ⟨s.sq.rhythm, 0, false, s.sq.timer⟩
          out := s.out ++ [.msg [s.par.idReset]]
          resp := some ⟨.ok, []⟩ } := by
  simp only [exec, execSqReset, State.onRoot_root root, pointerReset_of_stopped s.par stopped, stopped]
  rfl

/-- Settles O46: no draw is made, and the loaded palette is in canonical form and reads back the buffer. -/
theorem sqStoreLoadsAndRestarts : Obligations.SqStoreLoadsAndRestarts := by
  intro s rhythm buffer root never legal _
  refine ⟨Memory.load buffer, ?_, Memory.load_wf buffer, Memory.read_load buffer⟩
  rw [exec_sqStore_root root legal, State.onDraw_never never, State.drawn_of_never never]

/-- Settles O47: no draw is made, and the stored rhythm is legal, so a full period is armed. -/
theorem sqStartRestarts : Obligations.SqStartRestarts := by
  intro s root never legal
  rw [exec_sqStart_root root, State.onDraw_never never, State.drawn_of_never never, restarted_eq s.par s.sq legal]

/-- Settles O48, role by role. -/
theorem sqStopStops : Obligations.SqStopStops := fun _ =>
  ⟨exec_sqStop_root, fun child => congrArg _ (State.onRoot_child child _)⟩

/-- Settles O49: an active stepper restarts where no draw is made, and a stopped one never draws. -/
theorem sqResetReturnsToSquareZero : Obligations.SqResetReturnsToSquareZero := by
  intro s root quiet legal
  cases hactive : s.sq.active with
  | false => exact exec_sqReset_stopped root hactive
  | true =>
    have never : s.par.allocMayFail = false := quiet.resolve_right (by simp [hactive])
    rw [exec_sqReset_active root hactive, State.onDraw_never never, State.drawn_of_never never,
      restarted_eq s.par s.sq legal]
    rfl

/-- The two bytes of a u16, least significant first, make up its value. -/
theorem le16b_value (v : Word16) :
    (BitVec.ofNat 8 v.toNat).toNat + 256 * (BitVec.ofNat 8 (v.toNat / 2 ^ 8)).toNat = v.toNat := by
  have := v.isLt
  simp only [BitVec.toNat_ofNat]
  omega

/-- Settles O50: the answer is `State.sequenceReport`, with the count's two bytes as `le16b` writes them. -/
theorem sqQueryReportsTheStepper : Obligations.SqQueryReportsTheStepper := fun s =>
  ⟨_, _, rfl, le16b_value s.sq.timer.count⟩

/-- Settles O51: each of the four is role-checked before anything else. -/
theorem childrenAreRefusedTheStepper : Obligations.ChildrenAreRefusedTheStepper := by
  intro s rhythm buffer child i hi
  simp only [List.mem_cons, List.not_mem_nil, or_false] at hi
  obtain rfl | rfl | rfl | rfl := hi <;> exact congrArg _ (State.onRoot_child child _)

/-- The block with `ALLOC_MAY_FAIL` turned off, and all else as in `s`. -/
def State.neverFailing (s : State) : State := { s with par := { s.par with allocMayFail := false } }

/-- What the draw of a command decides (60_exceptions.md R216): a true one refuses it, and after a false one `k` is left,
which is `u`, what the command leaves where allocation cannot fail, but for the draw. -/
theorem exec_of_onDraw {i : Instr} {s k u : State} (may : s.par.allocMayFail = true)
    (hdraw : exec i s = .next (s.onDraw k)) (hnever : exec i s.neverFailing = .next (s.neverFailing.onDraw u))
    (hk : k = { u with par := s.par, draws := s.draws + 1 }) :
    ∃ t, exec i s = .next t
      ∧ (Config.allocFails s.draws = true →
          t = { s with draws := s.draws + 1, resp := some ⟨.resourceExhausted, []⟩ })
      ∧ (Config.allocFails s.draws = false →
          ∃ u, exec i s.neverFailing = .next u ∧ t = { u with par := s.par, draws := s.draws + 1 }) := by
  rw [State.onDraw_may may] at hdraw
  rw [State.onDraw_never rfl] at hnever
  refine ⟨_, hdraw, fun fails => if_pos fails, fun succeeds => ⟨u, hnever, ?_⟩⟩
  rw [if_neg (Bool.eq_false_iff.1 succeeds), hk]

/-- Settles O52: SQ_STORE refuses an illegal rhythm before it draws, and each of the three drawing commands is one
`exec_of_onDraw`. -/
theorem stepperRefusalsKeepItsState : Obligations.StepperRefusalsKeepItsState := by
  intro s rhythm buffer root
  refine ⟨exec_sqStore_zero root buffer, fun may i hi => ?_⟩
  obtain ⟨rfl, legal⟩ | rfl | ⟨rfl, active⟩ := hi
  · refine exec_of_onDraw may (exec_sqStore_root root legal buffer)
      (exec_sqStore_root (s := s.neverFailing) root legal buffer) ?_
    rw [State.drawn_of_may may]
    rfl
  · refine exec_of_onDraw may (exec_sqStart_root root) (exec_sqStart_root (s := s.neverFailing) root) ?_
    rw [State.drawn_of_may may]
    rfl
  · refine exec_of_onDraw may (exec_sqReset_active root active)
      (exec_sqReset_active (s := s.neverFailing) root active) ?_
    rw [State.drawn_of_may may]
    rfl

end Sys2Proof.Machine

namespace Sys2Proof.Machine

open Sys2Proof

/-! ### The stepper alone in a `TICK` (60_exceptions.md R220, 42_sequence.md R168) -/

/-- What a `TICK` does to the stepper, whatever the rest of the block is: its timer counts down, or expires and the
stepper steps. -/
def sequenceTick (p : Params) (pal : Memory) (q : Sequencer) : Sequencer × List Output :=
  if q.timer.expires then seqStep p pal q else ({ q with timer := q.timer.countDown }, [])

/-- A step arms its timer anew, whatever is left of it. -/
theorem seqStep_timer (p : Params) (pal : Memory) (q : Sequencer) (t : Timer 16) :
    seqStep p pal { q with timer := t } = seqStep p pal q := rfl

/-- A `TICK` in which the effect timer does not expire is the stepper's, the player's timer counted down. -/
theorem step_tick_of_quiet_effect {s : State} {rest : List Event} (hin : s.inbox = .tick :: rest)
    (he : s.ep.timer.expires = false) :
    step s = .next { s with
      ep := { s.ep with timer := s.ep.timer.countDown }
      sq := (sequenceTick s.par s.pal s.sq).1
      inbox := rest
      out := (sequenceTick s.par s.pal s.sq).2
      resp := none } := by
  rw [step_tick s rest hin]
  cases hq : s.sq.timer.expires with
  | false =>
    rw [tick_quiet (s.opened rest) he hq, sequenceTick, if_neg (Bool.eq_false_iff.1 hq)]
    rfl
  | true =>
    rw [tick_sequence (s.opened rest) he hq, sequenceTick, if_pos hq]
    rfl

/-- The BEAT after step `k`, counted from 1 (42_sequence.md R162). -/
theorem beatAt_ofNat (p : Params) (k : Nat) :
    beatAt p (BitVec.ofNat 8 k) = if k % 16 = 0 then [.msg [p.idBeat, BitVec.ofNat 8 k]] else [] := by
  have hrow : k % 256 % 16 = 0 ↔ k % 16 = 0 := by omega
  simp only [beatAt, encBeat, Config.rowLength, BitVec.toNat_ofNat, Nat.reducePow, hrow]

/-- Settles O53: with the count at 1 the `TICK` is a sequence step, which arms a full period. -/
theorem sequenceExpiryStepsThePalette : Obligations.SequenceExpiryStepsThePalette := by
  intro s rest hin hq he legal next
  have hx : s.sq.timer.expires = true := (expires_iff _).2 (by simp [hq])
  have hnext : s.sq.pointer + 1 = next := (advance_eq s.sq.pointer).symm
  rw [step_tick_of_quiet_effect hin he, sequenceTick, if_pos hx, seqStep_eq s.par s.pal s.sq legal, hnext]
  rfl

/-! ### The stepper over many `TICK`s -/

/-- The stepper after `n` `TICK`s, with its outputs in order. -/
def sequenceTicks (p : Params) (pal : Memory) : Nat → Sequencer → Sequencer × List Output
  | 0, q => (q, [])
  | n + 1, q =>
    let first := sequenceTick p pal q
    let later := sequenceTicks p pal n first.1
    (later.1, first.2 ++ later.2)

/-- `n` steps from `s` leave the stepper at `q`, the rest of the block as it was and the events `rest` to come, and
output `os`. -/
def StepperRun (s : State) (n : Nat) (rest : List Event) (q : Sequencer) (os : List Output) : Prop :=
  ∃ t obs, run n s = some (t, obs) ∧ outputsOf obs = os
    ∧ t.sq = q ∧ t.ep = s.ep ∧ t.pal = s.pal ∧ t.inbox = rest

theorem StepperRun.cons {s t : State} {n : Nat} {rest : List Event} {q : Sequencer} {os : List Output}
    (h : step s = .next t) (hep : t.ep = s.ep) (hpal : t.pal = s.pal) (hrun : StepperRun t n rest q os) :
    StepperRun s (n + 1) rest q (t.out ++ os) := by
  obtain ⟨u, obs, hn, rfl, hsq, hep', hpal', hin⟩ := hrun
  exact ⟨u, _, run_succ h hn, rfl, hsq, hep'.trans hep, hpal'.trans hpal, hin⟩

/-- With the effect timer disarmed, `n` scheduled `TICK`s run the stepper alone. -/
theorem stepperRun_ticks (n : Nat) {s : State} {rest : List Event} (he : s.ep.timer.armed = false)
    (hin : s.inbox = List.replicate n .tick ++ rest) :
    StepperRun s n rest (sequenceTicks s.par s.pal n s.sq).1 (sequenceTicks s.par s.pal n s.sq).2 := by
  induction n generalizing s with
  | zero => exact ⟨s, [], rfl, rfl, rfl, rfl, rfl, hin⟩
  | succ n ih =>
    have hquiet : s.ep.timer.expires = false := by simp [Timer.expires, he]
    have hstep := step_tick_of_quiet_effect (rest := List.replicate n .tick ++ rest) hin hquiet
    rw [countDown_disarmed _ he] at hstep
    exact .cons hstep rfl rfl (ih he rfl)

theorem sequenceTicks_add (p : Params) (pal : Memory) (m n : Nat) (q : Sequencer) :
    sequenceTicks p pal (m + n) q
      = ((sequenceTicks p pal n (sequenceTicks p pal m q).1).1,
         (sequenceTicks p pal m q).2 ++ (sequenceTicks p pal n (sequenceTicks p pal m q).1).2) := by
  induction m generalizing q with
  | zero => simp [sequenceTicks]
  | succ m ih => simp [Nat.add_right_comm m 1 n, sequenceTicks, ih]

/-- A stepper that waits `n + 1` `TICK`s waits them in silence and steps in the last. -/
theorem sequenceTicks_wait (p : Params) (pal : Memory) (q : Sequencer) {n : Nat} (hn : n + 1 < 2 ^ 16) :
    sequenceTicks p pal (n + 1) { q with timer := ⟨true, BitVec.ofNat 16 (n + 1)⟩ } = seqStep p pal q := by
  induction n with
  | zero =>
    have hx : (⟨true, BitVec.ofNat 16 (0 + 1)⟩ : Timer 16).expires = true := rfl
    simp only [sequenceTicks, sequenceTick, hx, if_true, seqStep_timer, List.append_nil]
  | succ n ih =>
    have hcount : BitVec.ofNat 16 (n + 1 + 1) - 1 = BitVec.ofNat 16 (n + 1) := by simp [BitVec.ofNat_add]
    have hx : (⟨true, BitVec.ofNat 16 (n + 1 + 1)⟩ : Timer 16).expires = false := by
      rw [Bool.eq_false_iff, ne_eq, expires_iff]
      rintro ⟨-, hone⟩
      have htoNat := congrArg BitVec.toNat hone
      simp only [BitVec.toNat_ofNat, BitVec.ofNat_eq_ofNat] at htoNat
      omega
    have hfirst : sequenceTick p pal { q with timer := ⟨true, BitVec.ofNat 16 (n + 1 + 1)⟩ }
        = ({ q with timer := ⟨true, BitVec.ofNat 16 (n + 1)⟩ }, []) := by
      simp only [sequenceTick, hx, countDown_running _ rfl hx, hcount]
      rfl
    rw [sequenceTicks, hfirst]
    simp only [ih (by omega), List.nil_append]

/-- A full period armed is one step, and a full period armed again (42_sequence.md R169). -/
theorem sequenceTicks_period (p : Params) (pal : Memory) (q : Sequencer) (legal : q.rhythm ≠ 0)
    (harmed : q.timer = ⟨true, BitVec.ofNat 16 (q.rhythm.toNat * 10)⟩) :
    sequenceTicks p pal (q.rhythm.toNat * 10) q
      = ({ q with pointer := q.pointer + 1 }, .sink (toDisplay (square pal q.pointer)) :: beatAt p (q.pointer + 1)) := by
  obtain ⟨hlow, hhigh⟩ := period_bounds q legal
  obtain ⟨n, hn⟩ : ∃ n, q.rhythm.toNat * 10 = n + 1 := Nat.exists_eq_add_one.2 (Nat.lt_of_lt_of_le (by decide) hlow)
  have hwait := sequenceTicks_wait p pal q (n := n) (hn ▸ Nat.lt_of_le_of_lt hhigh (by decide))
  rw [← hn, ← harmed] at hwait
  rw [hwait, seqStep_eq p pal q legal, ← harmed]

/-- `k` periods from pointer 0 show the squares 0, 1, ... modulo 256 in order (42_sequence.md R169, R170). -/
theorem sequenceTicks_periods (p : Params) (pal : Memory) (q : Sequencer) (legal : q.rhythm ≠ 0)
    (hpointer : q.pointer = 0) (harmed : q.timer = ⟨true, BitVec.ofNat 16 (q.rhythm.toNat * 10)⟩) (k : Nat) :
    sequenceTicks p pal (k * (q.rhythm.toNat * 10)) q
      = ({ q with pointer := BitVec.ofNat 8 k }, sequenceOutputs p pal k) := by
  induction k with
  | zero =>
    rw [Nat.zero_mul, sequenceTicks, show BitVec.ofNat 8 0 = q.pointer from hpointer.symm]
    rfl
  | succ k ih =>
    have hlast := sequenceTicks_period p pal { q with pointer := BitVec.ofNat 8 k } legal harmed
    have hadvance : BitVec.ofNat 8 k + 1 = BitVec.ofNat 8 (k + 1) := BitVec.ofNat_add_ofNat k 1
    simp only [hadvance, beatAt_ofNat] at hlast
    rw [Nat.succ_mul, sequenceTicks_add, ih, hlast]
    simp [sequenceOutputs, List.range_succ]

/-- Settles O54: an IDLE player's timer is disarmed, so the run is the stepper's `sequenceTicks_periods`. -/
theorem sequenceRunsThroughThePalette : Obligations.SequenceRunsThroughThePalette := by
  intro k s rest hs hidle hactive hpointer hcount hin
  have hdisarmed : s.ep.timer.armed = false := Bool.eq_false_iff.2 fun harmed => hs.effect.armed_iff.1 harmed hidle
  have harmed : s.sq.timer = ⟨true, BitVec.ofNat 16 (s.sq.rhythm.toNat * 10)⟩ := by
    rw [← hcount, BitVec.ofNat_toNat, BitVec.setWidth_eq, ← hactive, ← hs.sequence.armed_eq]
  obtain ⟨t, obs, hrun, hout, hsq, hep, hpal, hrest⟩ := stepperRun_ticks _ hdisarmed hin
  have hperiods := sequenceTicks_periods s.par s.pal s.sq hs.sequence.rhythm_pos hpointer harmed k
  rw [hperiods] at hout hsq
  exact ⟨t, obs, hrun, hout, hsq, hep, hpal, hrest⟩

end Sys2Proof.Machine

namespace Sys2Proof.Machine

open Sys2Proof

/-! ### The player writes the sink only (42_sequence.md R171) -/

theorem msg_notMem_repeatThen {e : EffectPlayer} {next : EffectPlayer → EffectPlayer × List Output} {m : List Byte}
    (hnext : ∀ e, .msg m ∉ (next e).2) : .msg m ∉ (repeatThen e next).2 := by
  unfold repeatThen
  split_ifs
  · exact hnext _
  · exact List.not_mem_nil
  · exact hnext _

theorem msg_notMem_cycleComplete (p : Params) (e : EffectPlayer) (m : List Byte) : .msg m ∉ (cycleComplete p e).2 :=
  msg_notMem_repeatThen fun e => msg_notMem_enterFadeIn p e m

theorem msg_notMem_sinkThen {r : EffectPlayer × List Output} {m : List Byte} (c : Color) (h : .msg m ∉ r.2) :
    .msg m ∉ (sinkThen c r).2 := by
  simpa using h

theorem msg_notMem_enterStrobeOff (p : Params) (e : EffectPlayer) (m : List Byte) : .msg m ∉ (enterStrobeOff p e).2 :=
  msg_notMem_sinkThen _ (msg_notMem_repeatThen fun _ => List.not_mem_nil)

theorem msg_notMem_fadeInStep (p : Params) (e : EffectPlayer) (m : List Byte) : .msg m ∉ (fadeInStep p e).2 := by
  unfold fadeInStep
  dsimp only
  split
  · simp [enterFadeHold]
  · simp [interpStep]

theorem msg_notMem_enterFadeOut (p : Params) (e : EffectPlayer) (m : List Byte) : .msg m ∉ (enterFadeOut p e).2 := by
  unfold enterFadeOut
  split
  · exact msg_notMem_sinkThen _ (msg_notMem_cycleComplete p _ m)
  · exact List.not_mem_nil

theorem msg_notMem_fadeOutStep (p : Params) (e : EffectPlayer) (m : List Byte) : .msg m ∉ (fadeOutStep p e).2 := by
  unfold fadeOutStep
  dsimp only
  split
  · exact msg_notMem_sinkThen _ (msg_notMem_cycleComplete p _ m)
  · simp [interpStep]

/-- No phase's expiry rule makes a message (41_effect_player.md R140). -/
theorem msg_notMem_effectExpiry {p : Params} {e : EffectPlayer} {r : EffectPlayer × List Output}
    (h : effectExpiry p e = some r) (m : List Byte) : .msg m ∉ r.2 := by
  unfold effectExpiry at h
  split at h <;> cases h
  exacts [msg_notMem_enterStrobeOff p e m, by simp [enterStrobeOn], msg_notMem_fadeInStep p e m,
    msg_notMem_enterFadeOut p e m, msg_notMem_fadeOutStep p e m, msg_notMem_enterFirstPhase p e m]

/-! ### Each engine in a `TICK`, as a function of its own part of the state -/

theorem tick_effectTick {s t : State} (h : tick s = .next t) : ∃ r, effectTick s.par s.ep = some r ∧ t.ep = r.1 := by
  obtain ⟨hx, hep⟩ | ⟨hx, r, hr, hep⟩ := tick_ep s t h
  · exact ⟨_, if_neg (Bool.eq_false_iff.1 hx), hep⟩
  · exact ⟨r, (if_pos hx).trans hr, hep⟩

theorem tick_sequenceTick {s t : State} (h : tick s = .next t) : t.sq = (sequenceTick s.par s.pal s.sq).1 := by
  obtain ⟨hx, hsq⟩ | ⟨hx, hsq⟩ := tick_sq s t h
  · rw [hsq, sequenceTick, if_neg (Bool.eq_false_iff.1 hx)]
  · rw [hsq, sequenceTick, if_pos hx, seqStep_timer]

/-- The messages of a `TICK` are the stepper's, whatever the player does in it and whichever of two expiries runs
first. -/
theorem msg_mem_tick {s t : State} (h : tick s = .next t) (m : List Byte) :
    .msg m ∈ t.out ↔ .msg m ∈ s.out ∨ .msg m ∈ (sequenceTick s.par s.pal s.sq).2 := by
  obtain ⟨-, hq, rfl⟩ | ⟨-, hq, r, hr, rfl⟩ | ⟨-, hq, rfl⟩ | ⟨-, hq, r, hr, rfl⟩ := tick_cases s t h
  · simp [sequenceTick, hq]
  · simp [sequenceTick, hq, msg_notMem_effectExpiry hr m]
  · simp [sequenceTick, hq, runSequenceExpiry, seqStep_timer]
  · dsimp only
    split <;> simp [sequenceTick, hq, msg_notMem_effectExpiry hr m, seqStep_timer]

/-! ### Two steps at the same event -/

/-- What two steps that take the same event can do: the two blocks wait, run the same command, refuse the same frame,
take a `TICK` or are reset alike. -/
theorem step_pair {s₁ s₂ t₁ t₂ : State} (hin : s₁.inbox = s₂.inbox) (h₁ : step s₁ = .next t₁)
    (h₂ : step s₂ = .next t₂) :
    (t₁ = s₁.opened [] ∧ t₂ = s₂.opened [])
    ∨ (∃ rest i, exec i (s₁.opened rest) = .next t₁ ∧ exec i (s₂.opened rest) = .next t₂)
    ∨ (∃ rest st, t₁ = (s₁.opened rest).raise st ∧ t₂ = (s₂.opened rest).raise st)
    ∨ (∃ rest, tick (s₁.opened rest) = .next t₁ ∧ tick (s₂.opened rest) = .next t₂)
    ∨ (∃ rest strap, t₁ = (s₁.opened rest).resetBlock strap ∧ t₂ = (s₂.opened rest).resetBlock strap) := by
  cases hs : s₂.inbox with
  | nil =>
    rw [step_waiting _ (hin.trans hs), Host.Outcome.next.injEq] at h₁
    rw [step_waiting _ hs, Host.Outcome.next.injEq] at h₂
    exact .inl ⟨h₁.symm, h₂.symm⟩
  | cons e rest =>
    rw [step_event _ e rest (hin.trans hs)] at h₁
    rw [step_event _ e rest hs] at h₂
    refine .inr ?_
    cases e with
    | cmd F =>
      cases hd : decode F with
      | command i =>
        exact .inl ⟨rest, i, (runFrame_command F i _ hd).symm.trans h₁, (runFrame_command F i _ hd).symm.trans h₂⟩
      | illegalCommand =>
        exact .inr (.inl ⟨rest, _, Host.Outcome.next.inj (h₁.symm.trans (runFrame_illegal F _ hd)),
          Host.Outcome.next.inj (h₂.symm.trans (runFrame_illegal F _ hd))⟩)
      | malformed =>
        exact .inr (.inl ⟨rest, _, Host.Outcome.next.inj (h₁.symm.trans (runFrame_malformed F _ hd)),
          Host.Outcome.next.inj (h₂.symm.trans (runFrame_malformed F _ hd))⟩)
    | tick => exact .inr (.inr (.inl ⟨rest, h₁, h₂⟩))
    | reset strap =>
      exact .inr (.inr (.inr ⟨rest, strap, (Host.Outcome.next.inj h₁).symm, (Host.Outcome.next.inj h₂).symm⟩))

/-! ### Two blocks whose players agree -/

/-- The parameters and the player are the same; of the rest of the block nothing is said. -/
structure SamePlayer (s₁ s₂ : State) : Prop where
  par : s₁.par = s₂.par
  ep : s₁.ep = s₂.ep

namespace SamePlayer

variable {s₁ s₂ t₁ t₂ : State}

theorem opened (h : SamePlayer s₁ s₂) (rest : List Event) : SamePlayer (s₁.opened rest) (s₂.opened rest) :=
  ⟨h.par, h.ep⟩

theorem play_ep_eq (h : SamePlayer s₁ s₂) (hdraw : s₁.allocFails = s₂.allocFails) (d : Descriptor) :
    (s₁.play d).ep = (s₂.play d).ep := by
  unfold State.play
  rw [hdraw]
  split
  · rfl
  · simp [h.par]

/-- EP_PLAY with the same draw and EP_STOP write the same player; no other command writes it. -/
theorem exec_ep_eq (h : SamePlayer s₁ s₂) (hdraw : s₁.allocFails = s₂.allocFails) {i : Instr}
    (h₁ : exec i s₁ = .next t₁) (h₂ : exec i s₂ = .next t₂) : t₁.ep = t₂.ep := by
  cases i with
  | epPlay =>
    injection h₁ with h₁
    injection h₂ with h₂
    subst h₁ h₂
    split
    · exact h.ep
    · exact h.play_ep_eq hdraw _
  | epStop =>
    injection h₁ with h₁
    injection h₂ with h₂
    subst h₁ h₂
    rfl
  | _ =>
    have hkept₁ := (exec_effect _ s₁ t₁ h₁).ep_eq nofun nofun
    have hkept₂ := (exec_effect _ s₂ t₂ h₂).ep_eq nofun nofun
    rw [hkept₁, hkept₂, h.ep]

theorem tick_ep_eq (h : SamePlayer s₁ s₂) (h₁ : tick s₁ = .next t₁) (h₂ : tick s₂ = .next t₂) : t₁.ep = t₂.ep := by
  obtain ⟨r₁, hr₁, hep₁⟩ := tick_effectTick h₁
  obtain ⟨r₂, hr₂, hep₂⟩ := tick_effectTick h₂
  rw [h.par, h.ep, hr₂, Option.some.injEq] at hr₁
  rw [hep₁, hep₂, hr₁]

theorem step_ep_eq (h : SamePlayer s₁ s₂) (hdraw : s₁.allocFails = s₂.allocFails) (hin : s₁.inbox = s₂.inbox)
    (h₁ : step s₁ = .next t₁) (h₂ : step s₂ = .next t₂) : t₁.ep = t₂.ep := by
  obtain ⟨rfl, rfl⟩ | ⟨rest, i, hexec₁, hexec₂⟩ | ⟨rest, st, rfl, rfl⟩ | ⟨rest, htick₁, htick₂⟩
    | ⟨rest, strap, rfl, rfl⟩ := step_pair hin h₁ h₂
  · exact h.ep
  · exact (h.opened rest).exec_ep_eq hdraw hexec₁ hexec₂
  · exact h.ep
  · exact (h.opened rest).tick_ep_eq htick₁ htick₂
  · rfl

end SamePlayer

/-! ### Two blocks whose steppers agree -/

/-- The parameters, the stepper, the palette, the role and the messages made are the same; of the rest of the block
nothing is said. -/
structure SameStepper (s₁ s₂ : State) : Prop where
  par : s₁.par = s₂.par
  sq : s₁.sq = s₂.sq
  pal : s₁.pal = s₂.pal
  isRoot : s₁.isRoot = s₂.isRoot
  msgs (m : List Byte) : .msg m ∈ s₁.out ↔ .msg m ∈ s₂.out

/-- A command of another opcode than PAL_SET's and the four stepper commands' neither writes the stepper or the palette
nor makes a message. -/
theorem CommandEffect.sameStepper {s t : State} {o : Opcode} (h : CommandEffect s o t)
    (ho : o ∉ [.palSet, .sqStore, .sqStart, .sqStop, .sqReset]) : SameStepper s t := by
  cases h with
  | answers | startFails | finishes => exact ⟨rfl, rfl, rfl, rfl, fun _ => Iff.rfl⟩
  | starts d => exact ⟨rfl, rfl, rfl, rfl, fun m => by simp [msg_notMem_startEffect s.par _ d m]⟩
  | palLoads | stores | restarts | stops | rewinds => exact absurd (by decide) ho

namespace SameStepper

variable {s₁ s₂ s₃ t₁ t₂ k₁ k₂ : State}

theorem symm (h : SameStepper s₁ s₂) : SameStepper s₂ s₁ :=
  ⟨h.par.symm, h.sq.symm, h.pal.symm, h.isRoot.symm, fun m => (h.msgs m).symm⟩

theorem trans (h : SameStepper s₁ s₂) (h' : SameStepper s₂ s₃) : SameStepper s₁ s₃ :=
  ⟨h.par.trans h'.par, h.sq.trans h'.sq, h.pal.trans h'.pal, h.isRoot.trans h'.isRoot,
    fun m => (h.msgs m).trans (h'.msgs m)⟩

/-- A step begins with no message made, so the outputs of the last step do not matter. -/
theorem of_opened (hpar : s₁.par = s₂.par) (hsq : s₁.sq = s₂.sq) (hpal : s₁.pal = s₂.pal)
    (hroot : s₁.isRoot = s₂.isRoot) (rest : List Event) : SameStepper (s₁.opened rest) (s₂.opened rest) :=
  ⟨hpar, hsq, hpal, hroot, fun _ => Iff.rfl⟩

theorem respond (h : SameStepper s₁ s₂) (st : Status) (payload : List Byte) :
    SameStepper (s₁.respond st payload) (s₂.respond st payload) :=
  ⟨h.par, h.sq, h.pal, h.isRoot, h.msgs⟩

theorem raise (h : SameStepper s₁ s₂) (st : Status) : SameStepper (s₁.raise st) (s₂.raise st) := h.respond st []

theorem drawn (h : SameStepper s₁ s₂) : SameStepper s₁.drawn s₂.drawn :=
  ⟨h.par, h.sq, h.pal, h.isRoot, h.msgs⟩

theorem emit (h : SameStepper s₁ s₂) {os₁ os₂ : List Output} (hos : os₁ = os₂) :
    SameStepper (s₁.emit os₁) (s₂.emit os₂) :=
  ⟨h.par, h.sq, h.pal, h.isRoot, fun m => by simp [h.msgs m, hos]⟩

/-- The stepper and the palette written alike. -/
theorem written (h : SameStepper s₁ s₂) {q₁ q₂ : Sequencer} {pal₁ pal₂ : Memory} (hq : q₁ = q₂)
    (hpal : pal₁ = pal₂) : SameStepper { s₁ with sq := q₁, pal := pal₁ } { s₂ with sq := q₂, pal := pal₂ } :=
  ⟨h.par, hq, hpal, h.isRoot, h.msgs⟩

theorem resetBlock (h : SameStepper s₁ s₂) (strap : Bool) :
    SameStepper (s₁.resetBlock strap) (s₂.resetBlock strap) :=
  ⟨h.par, congrArg Sequencer.atReset h.par, rfl, rfl, h.msgs⟩

theorem onRoot (h : SameStepper s₁ s₂) (hk : SameStepper k₁ k₂) : SameStepper (s₁.onRoot k₁) (s₂.onRoot k₂) := by
  unfold State.onRoot
  rw [h.isRoot]
  split
  · exact hk
  · exact h.raise _

theorem onDraw (h : SameStepper s₁ s₂) (hdraw : s₁.allocFails = s₂.allocFails) (hk : SameStepper k₁ k₂) :
    SameStepper (s₁.onDraw k₁) (s₂.onDraw k₂) := by
  unfold State.onDraw
  rw [hdraw]
  split
  · exact h.drawn.raise _
  · exact hk

/-- SQ_STORE reads its operands, the role and the draw. -/
theorem after_sqStore (h : SameStepper s₁ s₂) (hdraw : s₁.allocFails = s₂.allocFails) {rhythm : Byte} {buffer : List Byte}
    (h₁ : exec (.sqStore rhythm buffer) s₁ = .next t₁) (h₂ : exec (.sqStore rhythm buffer) s₂ = .next t₂) :
    SameStepper t₁ t₂ := by
  cases h₁
  cases h₂
  refine h.onRoot ?_
  split
  · exact h.raise _
  · exact h.onDraw hdraw
      (((h.drawn.written (by rw [h.par, h.sq]) rfl).emit (by rw [h.par])).respond _ _)

/-- SQ_RESET reads the stepper, the role and, while the stepper is active, the draw. -/
theorem after_sqReset (h : SameStepper s₁ s₂) (hdraw : s₁.allocFails = s₂.allocFails)
    (h₁ : exec .sqReset s₁ = .next t₁) (h₂ : exec .sqReset s₂ = .next t₂) : SameStepper t₁ t₂ := by
  cases h₁
  cases h₂
  refine h.onRoot ?_
  rw [h.sq, hdraw]
  split
  · exact h.drawn.raise _
  · have hs : SameStepper (if s₂.sq.active then s₁.drawn else s₁) (if s₂.sq.active then s₂.drawn else s₂) := by
      split
      · exact h.drawn
      · exact h
    exact ((hs.written (by rw [h.par]) hs.pal).emit (by rw [h.par])).respond _ _

/-- Every command keeps the steppers alike: PAL_SET and the four stepper commands write them alike, and no other command
writes them or makes a message. -/
theorem after_exec (h : SameStepper s₁ s₂) (hdraw : s₁.allocFails = s₂.allocFails) {i : Instr}
    (h₁ : exec i s₁ = .next t₁) (h₂ : exec i s₂ = .next t₂) : SameStepper t₁ t₂ := by
  cases i with
  | palSet buffer =>
    cases h₁
    cases h₂
    exact (h.written h.sq rfl).respond _ _
  | sqStore => exact h.after_sqStore hdraw h₁ h₂
  | sqStart =>
    cases h₁
    cases h₂
    exact h.onRoot (h.onDraw hdraw
      (((h.drawn.written (by rw [h.par, h.sq]) h.pal).emit (by rw [h.par])).respond _ _))
  | sqStop =>
    cases h₁
    cases h₂
    exact h.onRoot (((h.written (by rw [h.sq]) h.pal).emit (by rw [h.par])).respond _ _)
  | sqReset => exact h.after_sqReset hdraw h₁ h₂
  | _ =>
    have hkept₁ := (exec_effect _ s₁ t₁ h₁).sameStepper (by simp [opcodeOf])
    have hkept₂ := (exec_effect _ s₂ t₂ h₂).sameStepper (by simp [opcodeOf])
    exact hkept₁.symm.trans (h.trans hkept₂)

theorem after_tick (h : SameStepper s₁ s₂) (h₁ : tick s₁ = .next t₁) (h₂ : tick s₂ = .next t₂) : SameStepper t₁ t₂ := by
  obtain ⟨hroot₁, hpar₁, hpal₁, -⟩ := tick_frame s₁ t₁ h₁
  obtain ⟨hroot₂, hpar₂, hpal₂, -⟩ := tick_frame s₂ t₂ h₂
  exact
    { par := by rw [hpar₁, hpar₂, h.par]
      sq := by rw [tick_sequenceTick h₁, tick_sequenceTick h₂, h.par, h.pal, h.sq]
      pal := by rw [hpal₁, hpal₂, h.pal]
      isRoot := by rw [hroot₁, hroot₂, h.isRoot]
      msgs := fun m => by rw [msg_mem_tick h₁, msg_mem_tick h₂, h.msgs m, h.par, h.pal, h.sq] }

theorem after_step (hopened : ∀ rest, SameStepper (s₁.opened rest) (s₂.opened rest))
    (hdraw : s₁.allocFails = s₂.allocFails) (hin : s₁.inbox = s₂.inbox) (h₁ : step s₁ = .next t₁)
    (h₂ : step s₂ = .next t₂) : SameStepper t₁ t₂ := by
  obtain ⟨rfl, rfl⟩ | ⟨rest, i, hexec₁, hexec₂⟩ | ⟨rest, st, rfl, rfl⟩ | ⟨rest, htick₁, htick₂⟩
    | ⟨rest, strap, rfl, rfl⟩ := step_pair hin h₁ h₂
  · exact hopened []
  · exact (hopened rest).after_exec hdraw hexec₁ hexec₂
  · exact (hopened rest).raise st
  · exact (hopened rest).after_tick htick₁ htick₂
  · exact (hopened rest).resetBlock strap

end SameStepper

/-- The draw is read at the counter, and only where `ALLOC_MAY_FAIL` asks for one (60_exceptions.md R216). -/
theorem allocFails_eq {s₁ s₂ : State} (hpar : s₁.par = s₂.par)
    (hdraws : s₁.par.allocMayFail = false ∨ s₁.draws = s₂.draws) : s₁.allocFails = s₂.allocFails := by
  obtain never | hdraws := hdraws
  · rw [State.allocFails_of_never never, State.allocFails_of_never (hpar ▸ never)]
  · rw [State.allocFails, State.allocFails, hpar, hdraws]

/-- Settles O15: the two steps are taken at the same event (`step_pair`), and each event keeps players that agree and
steppers that agree. -/
theorem enginesAreIndependent : Obligations.EnginesAreIndependent := by
  intro s₁ s₂ t₁ t₂ hpar hdraws hin h₁ h₂
  have hdraw := allocFails_eq hpar hdraws
  refine ⟨fun hep => SamePlayer.step_ep_eq ⟨hpar, hep⟩ hdraw hin h₁ h₂, fun hsq hpal hroot => ?_⟩
  have h := SameStepper.after_step (.of_opened hpar hsq hpal hroot) hdraw hin h₁ h₂
  exact ⟨h.sq, h.pal, h.msgs⟩

end Sys2Proof.Machine

namespace Sys2Proof.Machine

open Sys2Proof

/-! ### The layout that MSG_DECODE reads a message by (43_codec.md R198) -/

section

variable {p : Params} {m : List Byte}

/-- R198 tests the ids in the order of `Params.ids`; the tests before an id's own fail on it (30_encoding.md R84). -/
theorem id_ne_earlier (distinct : p.ids.Nodup) :
    p.idBeat ≠ p.idSequence
      ∧ (p.idStart ≠ p.idSequence ∧ p.idStart ≠ p.idBeat)
      ∧ (p.idStop ≠ p.idSequence ∧ p.idStop ≠ p.idBeat ∧ p.idStop ≠ p.idStart)
      ∧ (p.idReset ≠ p.idSequence ∧ p.idReset ≠ p.idBeat ∧ p.idReset ≠ p.idStart ∧ p.idReset ≠ p.idStop)
      ∧ (p.idSetcolor ≠ p.idSequence ∧ p.idSetcolor ≠ p.idBeat ∧ p.idSetcolor ≠ p.idStart ∧ p.idSetcolor ≠ p.idStop
          ∧ p.idSetcolor ≠ p.idReset) := by
  simp only [Params.ids, List.nodup_cons, List.mem_cons, not_or] at distinct
  grind

theorem decodeMessage_sequence (h : m.head? = some p.idSequence) : decodeMessage p m = decSequence m := by
  obtain ⟨rest, rfl⟩ := List.head?_eq_some_iff.1 h
  exact if_pos rfl

theorem decodeMessage_beat (distinct : p.ids.Nodup) (h : m.head? = some p.idBeat) :
    decodeMessage p m = decFields 2 1 m := by
  obtain ⟨rest, rfl⟩ := List.head?_eq_some_iff.1 h
  obtain ⟨hne, -⟩ := id_ne_earlier distinct
  simp [decodeMessage, hne]

theorem decodeMessage_start (distinct : p.ids.Nodup) (h : m.head? = some p.idStart) :
    decodeMessage p m = decFields 1 2 m := by
  obtain ⟨rest, rfl⟩ := List.head?_eq_some_iff.1 h
  obtain ⟨-, hne, -⟩ := id_ne_earlier distinct
  simp [decodeMessage, hne]

theorem decodeMessage_stop (distinct : p.ids.Nodup) (h : m.head? = some p.idStop) :
    decodeMessage p m = decFields 1 3 m := by
  obtain ⟨rest, rfl⟩ := List.head?_eq_some_iff.1 h
  obtain ⟨-, -, hne, -⟩ := id_ne_earlier distinct
  simp [decodeMessage, hne]

theorem decodeMessage_reset (distinct : p.ids.Nodup) (h : m.head? = some p.idReset) :
    decodeMessage p m = decFields 1 4 m := by
  obtain ⟨rest, rfl⟩ := List.head?_eq_some_iff.1 h
  obtain ⟨-, -, -, hne, -⟩ := id_ne_earlier distinct
  simp [decodeMessage, hne]

theorem decodeMessage_setcolor (distinct : p.ids.Nodup) (h : m.head? = some p.idSetcolor) :
    decodeMessage p m = decFields 4 5 m := by
  obtain ⟨rest, rfl⟩ := List.head?_eq_some_iff.1 h
  obtain ⟨-, -, -, -, hne⟩ := id_ne_earlier distinct
  simp [decodeMessage, hne]

theorem decodeMessage_unknown {id : Byte} (h : m.head? = some id) (unlisted : id ∉ p.ids) :
    decodeMessage p m = (.unknownMessage, []) := by
  obtain ⟨rest, rfl⟩ := List.head?_eq_some_iff.1 h
  simp only [Params.ids, List.mem_cons, List.not_mem_nil, or_false, not_or] at unlisted
  simp [decodeMessage, unlisted]

/-! ### What each layout answers (43_codec.md R198) -/

/-- A message of one byte has no fields. -/
theorem decFields_one (kind : Byte) (m : List Byte) :
    decFields 1 kind m = if m.length = 1 then (.ok, [kind]) else (.malformed, []) := by
  unfold decFields bytesFrom
  split
  next hlen => rw [List.drop_of_length_le hlen.le]
  next => rfl

theorem decSequence_of_ne (hlen : m.length ≠ 386) : decSequence m = (.malformed, []) :=
  (if_neg fun h => hlen h.1).trans (decFields_of_ne 0 hlen)

theorem decSequence_of_rhythm_zero (hlen : m.length = 386) (hzero : byteAt m 1 = 0) :
    decSequence m = (.invalidArgument, []) :=
  if_pos ⟨hlen, hzero ▸ isRhythm_zero⟩

theorem decSequence_of_rhythm_ne (hlen : m.length = 386) (legal : byteAt m 1 ≠ 0) :
    decSequence m = (.ok, 0 :: m.drop 1) :=
  (decSequence_ok_iff 0 m _).2 ⟨hlen, legal, rfl, rfl⟩

/-- Settles O59: the ids being distinct, a message is read by the one layout its first byte names, and each layout's
answer is known. -/
theorem msgDecodeRecognisesTheMessages : Obligations.MsgDecodeRecognisesTheMessages := by
  intro s m distinct
  refine ⟨(decodeMessage s.par m).1, (decodeMessage s.par m).2, rfl, ?_, fun h => ?_, decodeMessage_beat distinct,
    fun h => (decodeMessage_start distinct h).trans (decFields_one 2 m),
    fun h => (decodeMessage_stop distinct h).trans (decFields_one 3 m),
    fun h => (decodeMessage_reset distinct h).trans (decFields_one 4 m),
    decodeMessage_setcolor distinct, fun _ => decodeMessage_unknown⟩
  · rintro rfl
    rfl
  · have hdec := decodeMessage_sequence h
    exact ⟨fun hlen => hdec.trans (decSequence_of_ne hlen),
      fun hlen hzero => hdec.trans (decSequence_of_rhythm_zero hlen hzero),
      fun hlen legal => hdec.trans (decSequence_of_rhythm_ne hlen legal)⟩

/-! ### Round trip (43_codec.md R199) -/

/-- The fields of a message that its layout accepts are the bytes after its id. -/
theorem decFields_cons_ok {n : Nat} {kind k id : Byte} {rest fields : List Byte}
    (h : decFields (n + 1) kind (id :: rest) = (.ok, k :: fields)) : rest.length = n ∧ k = kind ∧ fields = rest := by
  simpa using (decFields_ok_iff (n + 1) kind k (id :: rest) fields).1 h

theorem decFields_one_ok {kind k id : Byte} {rest fields : List Byte}
    (h : decFields 1 kind (id :: rest) = (.ok, k :: fields)) : rest = [] ∧ k = kind ∧ fields = [] := by
  obtain ⟨hlen, hkind, rfl⟩ := decFields_cons_ok h
  have hnil := List.length_eq_zero_iff.1 hlen
  exact ⟨hnil, hkind, hnil⟩

theorem decSequence_cons_ok {k id : Byte} {rest fields : List Byte}
    (h : decSequence (id :: rest) = (.ok, k :: fields)) : rest.length = 385 ∧ k = 0 ∧ fields = rest := by
  obtain ⟨hlen, -, hkind, hfields⟩ := (decSequence_ok_iff k (id :: rest) fields).1 h
  exact ⟨Nat.succ.inj hlen, hkind, hfields⟩

/-- Encoding what a message decodes to gives the message back, whatever the ids: it begins with the id of its kind, and
its length says how many fields follow. -/
theorem encode_of_decodeMessage_ok {kind : Byte} {fields : List Byte} (h : decodeMessage p m = (.ok, kind :: fields)) :
    (kind = 0 ∧ ∃ rhythm buffer, fields = rhythm :: buffer ∧ encSequence p rhythm buffer = m)
      ∨ (kind = 1 ∧ ∃ pointer, fields = [pointer] ∧ encBeat p pointer = m)
      ∨ (kind = 2 ∧ fields = [] ∧ encStart p = m)
      ∨ (kind = 3 ∧ fields = [] ∧ encStop p = m)
      ∨ (kind = 4 ∧ fields = [] ∧ encReset p = m)
      ∨ (kind = 5 ∧ ∃ c : Color, fields = [c.r, c.g, c.b] ∧ encSetcolor p c = m) := by
  cases m with
  | nil => simp [decodeMessage] at h
  | cons id rest =>
    simp only [decodeMessage] at h
    split_ifs at h with hsequence hbeat hstart hstop hreset hsetcolor
    · obtain ⟨hlen, rfl, rfl⟩ := decSequence_cons_ok h
      obtain ⟨rhythm, buffer, rfl⟩ := List.exists_cons_of_length_eq_add_one hlen
      exact .inl ⟨rfl, rhythm, buffer, rfl, hsequence ▸ rfl⟩
    · obtain ⟨hlen, rfl, rfl⟩ := decFields_cons_ok h
      obtain ⟨pointer, rfl⟩ := List.length_eq_one_iff.1 hlen
      exact .inr (.inl ⟨rfl, pointer, rfl, hbeat ▸ rfl⟩)
    · obtain ⟨rfl, rfl, rfl⟩ := decFields_one_ok h
      exact .inr (.inr (.inl ⟨rfl, rfl, hstart ▸ rfl⟩))
    · obtain ⟨rfl, rfl, rfl⟩ := decFields_one_ok h
      exact .inr (.inr (.inr (.inl ⟨rfl, rfl, hstop ▸ rfl⟩)))
    · obtain ⟨rfl, rfl, rfl⟩ := decFields_one_ok h
      exact .inr (.inr (.inr (.inr (.inl ⟨rfl, rfl, hreset ▸ rfl⟩))))
    · obtain ⟨hlen, rfl, rfl⟩ := decFields_cons_ok h
      obtain ⟨r, g, b, rfl⟩ := List.length_eq_three.1 hlen
      exact .inr (.inr (.inr (.inr (.inr ⟨rfl, ⟨r, g, b⟩, rfl, hsetcolor ▸ rfl⟩))))
    · simp at h

theorem decodeMessage_encSequence {rhythm : Byte} {buffer : List Byte} (legal : rhythm ≠ 0)
    (hlen : buffer.length = 384) :
    decodeMessage p (encSequence p rhythm buffer) = (.ok, 0 :: rhythm :: buffer) :=
  (decodeMessage_sequence rfl).trans (decSequence_of_rhythm_ne (by simp [encSequence, hlen]) legal)

end

/-- Settles O60: an encoder's message begins with the id of its own layout and has that layout's length. -/
theorem codecRoundTrips : Obligations.CodecRoundTrips := by
  intro p distinct
  refine ⟨fun _ _ => decodeMessage_encSequence, fun _ => ?beat, ?start, ?stop, ?reset, fun _ => ?setcolor,
    fun _ _ _ => encode_of_decodeMessage_ok⟩
  case beat => exact (decodeMessage_beat distinct rfl).trans (decFields_of_length 1 rfl)
  case start => exact (decodeMessage_start distinct rfl).trans (decFields_of_length 2 rfl)
  case stop => exact (decodeMessage_stop distinct rfl).trans (decFields_of_length 3 rfl)
  case reset => exact (decodeMessage_reset distinct rfl).trans (decFields_of_length 4 rfl)
  case setcolor => exact (decodeMessage_setcolor distinct rfl).trans (decFields_of_length 5 rfl)

/-! ### The encoder commands (43_codec.md R191 to R196) -/

/-- MSG_ENC_SEQUENCE of a legal rhythm. -/
theorem exec_msgEncSequence_legal (s : State) {rhythm : Byte} (legal : rhythm ≠ 0) (buffer : List Byte) :
    exec (.msgEncSequence rhythm buffer) s = .next (s.answered .ok (s.par.idSequence :: rhythm :: buffer)) :=
  congrArg _ (if_pos (isRhythm_of_ne rhythm legal))

/-- Settles O58: only MSG_ENC_SEQUENCE checks its operand; each of the others answers its message outright. -/
theorem encodersAnswerTheirMessages : Obligations.EncodersAnswerTheirMessages := fun s _ _ _ _ _ buffer =>
  ⟨fun legal => exec_msgEncSequence_legal s legal buffer, rfl, rfl, rfl, rfl, rfl, rfl⟩

end Sys2Proof.Machine

namespace Sys2Proof.Machine

open Sys2Proof

/-! ### A timer over many `TICK`s (60_exceptions.md R219, R220) -/

/-- An armed timer expires with the count 1 and with no other. -/
theorem expires_ofNat_iff {width n : Nat} (hpos : 0 < n) (hlt : n < 2 ^ width) :
    (⟨true, BitVec.ofNat width n⟩ : Timer width).expires = true ↔ n = 1 := by
  rw [expires_iff]
  constructor
  · rintro ⟨-, hone⟩
    have htoNat : n % 2 ^ width = 1 % 2 ^ width := by simpa using congrArg BitVec.toNat hone
    rwa [Nat.mod_eq_of_lt hlt, Nat.mod_eq_of_lt (by omega)] at htoNat
  · rintro rfl
    exact ⟨rfl, rfl⟩

/-- Before its last `TICK`, an armed timer counts one down. -/
theorem countDown_ofNat_succ {width n : Nat} (hpos : 0 < n) (hlt : n + 1 < 2 ^ width) :
    (⟨true, BitVec.ofNat width (n + 1)⟩ : Timer width).countDown = ⟨true, BitVec.ofNat width n⟩ := by
  have hx : (⟨true, BitVec.ofNat width (n + 1)⟩ : Timer width).expires = false := by
    rw [Bool.eq_false_iff, ne_eq, expires_ofNat_iff (Nat.succ_pos n) hlt]
    omega
  rw [countDown_running _ rfl hx]
  simp [BitVec.ofNat_add]

/-- `k` `TICK`s, fewer than its count, lower an armed timer by `k`. -/
theorem countDown_iterate {width c : Nat} (hlt : c < 2 ^ width) (k : Nat) (hk : k < c) :
    Timer.countDown^[k] ⟨true, BitVec.ofNat width c⟩ = ⟨true, BitVec.ofNat width (c - k)⟩ := by
  induction k with
  | zero => rfl
  | succ k ih =>
    have hsub : c - k = c - (k + 1) + 1 := by omega
    rw [Function.iterate_succ_apply', ih (by omega), hsub, countDown_ofNat_succ (by omega) (by omega)]

/-- Settles O55: after `k` `TICK`s the count is `c - k`, and the timer expires where that is 1. -/
theorem timerExpiresInItsCountsTick : Obligations.TimerExpiresInItsCountsTick := by
  intro width c k _ hlt hk
  have hexpires : (⟨true, BitVec.ofNat width (c - k)⟩ : Timer width).expires = true ↔ k + 1 = c := by
    rw [expires_ofNat_iff (by omega) (by omega)]
    omega
  dsimp only
  rw [countDown_iterate hlt k hk]
  exact ⟨rfl, hexpires, fun hlast => countDown_expiring _ (hexpires.2 hlast)⟩

/-! ### A `TICK` with no expiry and one with two (60_exceptions.md R220, R222) -/

/-- A timer that does not stand at 1 does not expire. -/
theorem not_expires {width : Nat} {t : Timer width} (h : ¬ (t.armed = true ∧ t.count = 1)) : t.expires = false :=
  Bool.eq_false_iff.2 (mt (expires_iff t).1 h)

/-- A timer that does not expire is one lower where it is armed, and as it was where it is not. -/
theorem countDown_of_not_expires {width : Nat} {t : Timer width} (h : t.expires = false) :
    t.countDown = if t.armed then ⟨true, t.count - 1⟩ else t := by
  split
  · next harmed => exact countDown_running t harmed h
  · next hdisarmed => exact countDown_disarmed t (Bool.eq_false_iff.2 hdisarmed)

/-- Settles O56: neither timer expires, so the `TICK` is the counting down of both. -/
theorem tickWithoutExpiryOnlyCounts : Obligations.TickWithoutExpiryOnlyCounts := by
  intro s rest hin he hq
  have hep : { s.ep with timer := s.ep.timer.countDown }
      = if s.ep.timer.armed then { s.ep with timer := ⟨true, s.ep.timer.count - 1⟩ } else s.ep := by
    rw [countDown_of_not_expires (not_expires he)]
    split <;> rfl
  have hsq : { s.sq with timer := s.sq.timer.countDown }
      = if s.sq.timer.armed then { s.sq with timer := ⟨true, s.sq.timer.count - 1⟩ } else s.sq := by
    rw [countDown_of_not_expires (not_expires hq)]
    split <;> rfl
  rw [step_tick s rest hin, tick_quiet (s.opened rest) (not_expires he) (not_expires hq), ← hep, ← hsq]
  rfl

/-- Every phase but IDLE has an expiry rule (41_effect_player.md R140). -/
theorem effectExpiry_of_not_idle (p : Params) {e : EffectPlayer} (h : e.phase ≠ .idle) :
    ∃ r, effectExpiry p e = some r := by
  unfold effectExpiry
  split
  · contradiction
  all_goals exact ⟨_, rfl⟩

/-- Settles O57: `runBothExpiries_eq` on the state that both timers leave disarmed. -/
theorem simultaneousExpiriesRunBothRules : Obligations.SimultaneousExpiriesRunBothRules := by
  intro s rest hin he hq hphase
  have hex : s.ep.timer.expires = true := (expires_iff _).2 (by simp [he])
  have hqx : s.sq.timer.expires = true := (expires_iff _).2 (by simp [hq])
  obtain ⟨r, hr⟩ := effectExpiry_of_not_idle s.par (e := { s.ep with timer := disarmed }) hphase
  have hrule : effectExpiry s.par (s.opened rest).countedDown.ep = some r := by
    rw [State.countedDown_ep, State.opened_ep, countDown_expiring _ hex, hr]
  have hstep := runBothExpiries_eq (s.opened rest).countedDown r hrule
  rw [← tick_both (s.opened rest) hex hqx, ← step_tick s rest hin] at hstep
  exact ⟨_, r, hstep, hr, rfl, rfl, rfl, rfl, rfl, rfl, rfl⟩

end Sys2Proof.Machine

namespace Sys2Proof.Machine

open Sys2Proof

/-! ### EP_PLAY where allocation may fail (60_exceptions.md R216) -/

theorem exec_epPlay (s : State) {kind : Byte} {k : EffectKind} (onColor offColor : Color)
    (t0 t1 hold repeatCount delay : Word32) (hk : effectKindOfByte kind = some k) :
    exec (.epPlay kind onColor offColor t0 t1 hold repeatCount delay) s
      = .next (s.play ⟨k, onColor, offColor, t0, t1, hold, repeatCount, delay⟩) := by
  simp only [exec, execEpPlay, hk]

/-- A true draw cancels what ran and starts nothing. -/
theorem State.play_of_fails {s : State} (may : s.par.allocMayFail = true) (fails : Config.allocFails s.draws = true)
    (d : Descriptor) :
    s.play d
      = { s with ep := EffectPlayer.atReset, draws := s.draws + 1, resp := some ⟨.resourceExhausted, []⟩ } := by
  have hdraw : s.allocFails = true := by simp [State.allocFails, may, fails]
  rw [State.play, if_pos hdraw, State.drawn_of_may (s := { s with ep := finish s.ep }) may, finish_eq]
  rfl

/-- A false draw only counts: the effect is the one that starts where allocation cannot fail. -/
theorem State.play_of_succeeds {s : State} (may : s.par.allocMayFail = true)
    (succeeds : Config.allocFails s.draws = false) (d : Descriptor) :
    s.play d = { s.neverFailing.play d with par := s.par, draws := s.draws + 1 } := by
  have hdraw : s.allocFails = false := by simp [State.allocFails, succeeds]
  rw [State.play, if_neg (Bool.eq_false_iff.1 hdraw), State.drawn_of_may may, finish_eq, play_eq s.neverFailing d rfl]
  rfl

/-- Settles O24: both kind bytes name an effect, and `State.play` is as the draw says. -/
theorem epPlayFailsToAllocate : Obligations.EpPlayFailsToAllocate := by
  intro s kind onColor offColor t0 t1 hold repeatCount delay may hkind
  obtain ⟨k, hk⟩ : ∃ k, effectKindOfByte kind = some k := by
    obtain rfl | rfl := hkind <;> exact ⟨_, rfl⟩
  refine ⟨_, exec_epPlay s _ _ _ _ _ _ _ hk, fun fails => State.play_of_fails may fails _, fun succeeds => ?_⟩
  exact ⟨_, exec_epPlay s.neverFailing _ _ _ _ _ _ _ hk, State.play_of_succeeds may succeeds _⟩

/-! ### What a refused frame leaves (60_exceptions.md R212) -/

/-- A command of another opcode than these seven only answers (10_state.md R41). -/
theorem CommandEffect.only_answers {s t : State} {o : Opcode} (h : CommandEffect s o t)
    (reads : o ∉ [.epPlay, .epStop, .palSet, .sqStore, .sqStart, .sqStop, .sqReset]) :
    ∃ n r, t = { s with draws := n, resp := r } := by
  cases h with
  | answers _ n r => exact ⟨n, r, rfl⟩
  | starts | startFails | finishes | palLoads | stores | restarts | stops | rewinds =>
    exact absurd (by decide) reads

/-- How a command of opcode `o` ends in the state `t`: with OK, as the EP_PLAY whose draw failed, or with every element
of `s` as it was. -/
inductive CommandEnd (s : State) (o : Opcode) (t : State) : Prop
  | ok (payload : List Byte) (answered : t.resp = some ⟨.ok, payload⟩)
  | exhausted (play : o = .epPlay) (answered : t.resp = some ⟨.resourceExhausted, []⟩)
  | unchanged (n : Nat) (r : Option Response) (same : t = { s with draws := n, resp := r })

theorem CommandEnd.raise (s : State) (o : Opcode) (st : Status) : CommandEnd s o (s.raise st) :=
  .unchanged s.draws _ rfl

theorem CommandEnd.drawn_raise (s : State) (o : Opcode) (st : Status) : CommandEnd s o (s.drawn.raise st) :=
  .unchanged s.drawn.draws _ rfl

theorem CommandEnd.onRoot {s k : State} {o : Opcode} (h : CommandEnd s o k) : CommandEnd s o (s.onRoot k) := by
  unfold State.onRoot
  split
  · exact h
  · exact .raise s o _

theorem State.play_end (s : State) (d : Descriptor) : CommandEnd s .epPlay (s.play d) := by
  unfold State.play
  split
  · exact .exhausted rfl rfl
  · exact .ok [] rfl

/-- Every command ends in one of the three ways, the refusals of the commands that write included. -/
theorem exec_end (i : Instr) (s t : State) (h : exec i s = .next t) : CommandEnd s (opcodeOf i) t := by
  cases i with
  | epPlay =>
    injection h with h
    subst h
    split
    · exact .raise s _ _
    · exact s.play_end _
  | epStop | palSet => injection h with h; subst h; exact .ok [] rfl
  | sqStop => injection h with h; subst h; exact .onRoot (.ok [] rfl)
  | sqStore =>
    injection h with h
    subst h
    refine .onRoot ?_
    split
    · exact .raise s _ _
    · split
      · exact .drawn_raise s _ _
      · exact .ok [] rfl
  | sqStart | sqReset =>
    injection h with h
    subst h
    refine .onRoot ?_
    split
    · exact .drawn_raise s _ _
    · exact .ok [] rfl
  | _ =>
    obtain ⟨n, r, same⟩ := (exec_effect _ s t h).only_answers (by simp [opcodeOf])
    exact .unchanged n r same

/-- A command that an accepted frame carries answers an empty payload where it does not answer OK. -/
theorem payload_of_refused_command {F : List Byte} {i : Instr} {s t : State} {st : Status} {payload : List Byte}
    (hdec : decode F = .command i) (hexec : exec i s = .next t) (hresp : t.resp = some ⟨st, payload⟩)
    (refused : st ≠ .ok) : payload = [] := by
  obtain ⟨t', st', payload', hexec', hresp', -, -, hempty, -⟩ :=
    everyCommandAnswersOneResponse i s (acceptedFramesAreEncodings F i hdec).1
  obtain rfl : t = t' := Host.Outcome.next.inj (hexec.symm.trans hexec')
  obtain ⟨rfl, rfl⟩ : st = st' ∧ payload = payload' := by simpa using hresp.symm.trans hresp'
  exact hempty refused

/-- What is raised is answered with an empty payload, and nothing else of the state is another. -/
theorem raise_of_resp {s : State} {st st' : Status} {payload : List Byte}
    (hresp : (s.raise st').resp = some ⟨st, payload⟩) :
    payload = [] ∧ s.raise st' = { s with draws := (s.raise st').draws, resp := some ⟨st, []⟩ } := by
  obtain ⟨rfl, rfl⟩ : st' = st ∧ [] = payload := by simpa using hresp
  exact ⟨rfl, rfl⟩

/-- Settles O16: a frame that does not decode is raised, and of the three ends of a command the first answers OK and the
second is the exception. -/
theorem refusedCommandsChangeNothing : Obligations.RefusedCommandsChangeNothing := by
  intro F s t st payload hrun hresp refused notExhausted
  cases hdec : decode F with
  | illegalCommand =>
    obtain rfl := Host.Outcome.next.inj ((runFrame_illegal F s hdec).symm.trans hrun)
    exact raise_of_resp hresp
  | malformed =>
    obtain rfl := Host.Outcome.next.inj ((runFrame_malformed F s hdec).symm.trans hrun)
    exact raise_of_resp hresp
  | command i =>
    have hexec : exec i s = .next t := (runFrame_command F i s hdec).symm.trans hrun
    obtain rfl := payload_of_refused_command hdec hexec hresp refused
    refine ⟨rfl, ?_⟩
    cases exec_end i s t hexec with
    | ok payload answered =>
      have hok : st = .ok ∧ [] = payload := by simpa using hresp.symm.trans answered
      exact absurd hok.left refused
    | exhausted play answered =>
      have hst : st = .resourceExhausted := by simpa using hresp.symm.trans answered
      obtain ⟨hhead, -, -⟩ := decode_command hdec
      rw [play] at hhead
      exact absurd ⟨hhead, hst⟩ notExhausted
    | unchanged n r same =>
      subst same
      exact congrArg (fun r => { s with draws := n, resp := r }) hresp

end Sys2Proof.Machine

namespace Sys2Proof.Machine

open Sys2Proof

/-! ### A child emits no message (60_exceptions.md R223) -/

/-- A child's command adds no message to the step's output: the commands that send one are refused it. -/
theorem CommandEffect.msg_of_child {s t : State} {o : Opcode} (h : CommandEffect s o t) (child : s.isRoot = false)
    {m : List Byte} (hm : .msg m ∈ t.out) : .msg m ∈ s.out := by
  have not_root : s.isRoot ≠ true := Bool.eq_false_iff.1 child
  cases h with
  | answers | startFails | finishes | palLoads => exact hm
  | starts d => exact (List.mem_append.1 hm).resolve_right (msg_notMem_startEffect s.par _ d m)
  | stores _ _ _ _ _ root => exact absurd root not_root
  | restarts _ _ _ root => exact absurd root not_root
  | stops _ _ root => exact absurd root not_root
  | rewinds _ _ _ root => exact absurd root not_root

/-- A stopped stepper's timer does not expire. -/
theorem not_expires_of_stopped {q : Sequencer} (h : SequenceInv q) (stopped : q.active = false) :
    q.timer.expires = false :=
  not_expires fun ⟨armed, _⟩ => Bool.eq_false_iff.1 stopped (h.armed_eq ▸ armed)

/-- A child's `TICK` adds no message: its stepper is stopped, and the player sends none. -/
theorem msg_of_child_tick {s t : State} (hs : s.Inv) (child : s.isRoot = false) (h : tick s = .next t) {m : List Byte}
    (hm : .msg m ∈ t.out) : .msg m ∈ s.out := by
  have quiet := not_expires_of_stopped hs.sequence (hs.child_stopped child)
  simpa [sequenceTick, quiet] using (msg_mem_tick h m).1 hm

/-- A child is a root after a step only where the step is a reset with a high strap. -/
theorem reset_of_child_becomes_root {s t : State} (child : s.isRoot = false) (h : step s = .next t)
    (root : t.isRoot = true) : ∃ rest, s.inbox = .reset true :: rest := by
  by_cases hreset : ∃ strap rest, s.inbox = .reset strap :: rest
  · obtain ⟨strap, rest, hin⟩ := hreset
    obtain rfl := Host.Outcome.next.inj ((step_reset s strap rest hin).symm.trans h)
    obtain rfl : strap = true := root
    exact ⟨rest, hin⟩
  · obtain ⟨-, hrole⟩ := roleChangesOnlyAtReset s t h
    have hkept : t.isRoot = s.isRoot := hrole fun strap rest hin => hreset ⟨strap, rest, hin⟩
    simp [hkept, child] at root

/-- Settles O13: a step begins with no output, and neither a command nor a `TICK` of a child adds a message. -/
theorem childNeverEmitsAMessage : Obligations.ChildNeverEmitsAMessage := by
  intro s t hs child h
  refine ⟨fun m hm => ?_, reset_of_child_becomes_root child h⟩
  obtain ⟨-, rfl⟩ | ⟨F, rest, i, -, -, hexec⟩ | ⟨F, rest, -, -, rfl⟩ | ⟨F, rest, -, -, rfl⟩ | ⟨rest, -, htick⟩
    | ⟨strap, rest, -, rfl⟩ := step_cases s t h
  · exact List.not_mem_nil hm
  · exact List.not_mem_nil ((exec_effect i _ t hexec).msg_of_child child hm)
  · exact List.not_mem_nil hm
  · exact List.not_mem_nil hm
  · exact List.not_mem_nil (msg_of_child_tick (hs.opened rest) child htick hm)
  · exact List.not_mem_nil hm

/-! ### Every step answers (60_exceptions.md R211) -/

/-- A `TICK` answers, as the effect timer does not expire in IDLE (41_effect_player.md R140). -/
theorem tick_next {s : State} (hs : s.Inv) : ∃ t, tick s = .next t := by
  cases he : s.ep.timer.expires with
  | false =>
    cases hq : s.sq.timer.expires with
    | false => exact ⟨_, tick_quiet s he hq⟩
    | true => exact ⟨_, tick_sequence s he hq⟩
  | true =>
    obtain ⟨r, hr⟩ := effectExpiry_of_not_idle s.par (e := s.countedDown.ep) (not_idle_of_expires s.ep hs.effect he)
    cases hq : s.sq.timer.expires with
    | false => exact ⟨_, (tick_effect s he hq).trans (runEffectExpiry_eq _ r hr)⟩
    | true => exact ⟨_, (tick_both s he hq).trans (runBothExpiries_eq _ r hr)⟩

theorem runFrame_next (F : List Byte) (s : State) : ∃ t, runFrame F s = .next t := by
  cases hdec : decode F with
  | illegalCommand => exact ⟨_, runFrame_illegal F s hdec⟩
  | malformed => exact ⟨_, runFrame_malformed F s hdec⟩
  | command i =>
    obtain ⟨t, ht⟩ := exec_next i s
    exact ⟨t, (runFrame_command F i s hdec).trans ht⟩

theorem runEvent_next (e : Event) {s : State} (hs : s.Inv) : ∃ t, runEvent e s = .next t := by
  cases e with
  | cmd F => exact runFrame_next F s
  | tick => exact tick_next hs
  | reset strap => exact ⟨_, rfl⟩

/-- Every step from the invariant answers a next state, and that state meets it again. -/
theorem step_next {s : State} (hs : s.Inv) : ∃ t, step s = .next t ∧ t.Inv := by
  have answers : ∃ t, step s = .next t := by
    cases hin : s.inbox with
    | nil => exact ⟨_, step_waiting s hin⟩
    | cons e rest =>
      rw [step_event s e rest hin]
      exact runEvent_next e (hs.opened rest)
  obtain ⟨t, ht⟩ := answers
  exact ⟨t, ht, everyStepKeepsTheInvariant s t hs ht⟩

/-- Any number of steps from the invariant answers, one observation each. -/
theorem run_next (n : Nat) {s : State} (hs : s.Inv) : ∃ t obs, run n s = some (t, obs) ∧ t.Inv ∧ obs.length = n := by
  induction n generalizing s with
  | zero => exact ⟨s, [], rfl, hs, rfl⟩
  | succ n ih =>
    obtain ⟨u, hstep, hu⟩ := step_next hs
    obtain ⟨t, obs, hrun, ht, hlength⟩ := ih hu
    exact ⟨t, _, run_succ hstep hrun, ht, congrArg (· + 1) hlength⟩

/-! ### The infinite run of an environment (00_scope.md R7) -/

/-- The block after the event `e`, as it was where the step does not answer. -/
def State.afterEvent (s : State) (e : Event) : State :=
  match step (s.present e) with
  | .next t => t
  | .fault _ => s
  | .refused _ => s

/-- The block before step `n`, `start` at the first, where the environment presents `env`. -/
def trajectory (env : Nat → Event) (start : State) : Nat → State
  | 0 => start
  | n + 1 => (trajectory env start n).afterEvent (env n)

/-- Presenting an event touches nothing the invariant speaks of. -/
theorem State.Inv.present {s : State} (hs : s.Inv) (e : Event) : (s.present e).Inv :=
  ⟨hs.params, hs.effect, hs.sequence, hs.palette, hs.child_stopped⟩

/-- From the invariant, a presented event is answered with `State.afterEvent`, which meets it again. -/
theorem step_present {s : State} (hs : s.Inv) (e : Event) :
    step (s.present e) = .next (s.afterEvent e) ∧ (s.afterEvent e).Inv := by
  obtain ⟨t, hstep, ht⟩ := step_next (hs.present e)
  have hafter : s.afterEvent e = t := by simp only [State.afterEvent, hstep]
  exact hafter ▸ ⟨hstep, ht⟩

theorem trajectory_inv (env : Nat → Event) {start : State} (hs : start.Inv) (n : Nat) :
    (trajectory env start n).Inv := by
  induction n with
  | zero => exact hs
  | succ n ih => exact (step_present ih (env n)).2

theorem trajectory_infiniteRun (env : Nat → Event) {start : State} (hs : start.Inv) :
    InfiniteRun env (trajectory env start) :=
  fun n => (step_present (trajectory_inv env hs n) (env n)).1

/-- Settles O12: every step from the invariant answers and keeps it, so runs of every length do, and so does the
environment's trajectory. -/
theorem noRunEverStops : Obligations.NoRunEverStops :=
  ⟨fun n _ hs => run_next n hs, fun env start hs =>
    ⟨trajectory env start, rfl, trajectory_infiniteRun env hs, trajectory_inv env hs⟩⟩

end Sys2Proof.Machine

namespace Sys2Proof.Machine

open Sys2Proof

/-! ### A player left to its `TICK`s (70_reset_and_hazards.md R250) -/

/-- The player comes to IDLE in some number of `TICK`s, whatever it writes in them. -/
inductive Finishes (p : Params) : EffectPlayer → Prop
  | idle {e : EffectPlayer} (h : e.phase = .idle) : Finishes p e
  | tick {e : EffectPlayer} {r : EffectPlayer × List Output} (first : effectTick p e = some r)
      (later : Finishes p r.1) : Finishes p e

theorem PlaysTo.finishes {p : Params} {k : Nat} {r r' : EffectPlayer × List Output} (h : PlaysTo p k r r')
    (hend : Finishes p r'.1) : Finishes p r.1 := by
  induction h with
  | here => exact hend
  | tick first _ ih => exact .tick first (ih hend)

/-- A running player of the invariant is `EffectPlayer.running` at its own fields. -/
theorem EffectInv.eq_running {e : EffectPlayer} (h : EffectInv e) (hphase : e.phase ≠ .idle) :
    e = EffectPlayer.running e.desc e.phase e.remaining e.elapsed e.timer.count.toNat := by
  have hvalid : e.valid = true := Bool.not_eq_false _ ▸ mt h.idle_iff.2 hphase
  have harmed : e.timer.armed = true := h.armed_iff.2 hphase
  obtain ⟨valid, d, phase, remaining, elapsed, ⟨armed, count⟩⟩ := e
  subst hvalid harmed
  simp only [EffectPlayer.running, BitVec.ofNat_toNat, BitVec.setWidth_eq]

namespace Finishes

section

variable {p : Params} {d : Descriptor} {phase : Phase} {remaining elapsed : Word32} {n : Nat}

theorem atReset (p : Params) : Finishes p EffectPlayer.atReset := .idle rfl

/-- A phase that is waited out finishes where what its expiry rule leaves does. -/
theorem after_wait {r : EffectPlayer × List Output}
    (hr : effectExpiry p (EffectPlayer.expired d phase remaining elapsed) = some r) (hend : Finishes p r.1)
    (hpos : 0 < n) (hlt : n < 2 ^ 32) : Finishes p (EffectPlayer.running d phase remaining elapsed n) :=
  (PlaysTo.wait hr hpos hlt []).finishes hend

/-- An interpolation phase finishes where what ends it does: the elapsed count grows until then. -/
theorem interpolation {start finish : Color} {total : Word32} {r : EffectPlayer × List Output}
    (h : InterpolationPhase p d phase remaining start finish total r) (hend : Finishes p r.1) (elapsed : Word32)
    (hpos : 0 < n) (hlt : n < 2 ^ 32) : Finishes p (EffectPlayer.running d phase remaining elapsed n) := by
  induction hleft : total.toNat - elapsed.toNat using Nat.strong_induction_on generalizing elapsed n with
  | _ left ih =>
    subst hleft
    by_cases hbelow : elapsed.toNat + 20 < total.toNat
    · have hnext := elapsed_add_twenty_toNat hbelow
      exact after_wait (h.below elapsed hbelow) (ih _ (by omega) (elapsed + 20) (by decide) (by decide) rfl) hpos hlt
    · exact after_wait (h.past elapsed (Nat.not_lt.1 hbelow)) hend hpos hlt

/-! #### A finite strobe (41_effect_player.md R143) -/

theorem strobeOn_entered (hp : ParamsLegal p) (hfinite : d.repeatCount ≠ 0) (hrem : remaining ≠ 0) :
    Finishes p (EffectPlayer.running d .strobeOn remaining 0 (waitOf p d.t0.toNat)) := by
  obtain ⟨m, hm⟩ := exists_toNat_eq_succ hrem
  exact (PlaysTo.strobe hp hfinite m hm).finishes (atReset p)

theorem strobeOff (hp : ParamsLegal p) (hfinite : d.repeatCount ≠ 0) (hrem : remaining ≠ 0) (hpos : 0 < n)
    (hlt : n < 2 ^ 32) : Finishes p (EffectPlayer.running d .strobeOff remaining 0 n) :=
  after_wait (strobeOff_expiry p) (strobeOn_entered hp hfinite hrem) hpos hlt

theorem strobeOn (hp : ParamsLegal p) (hfinite : d.repeatCount ≠ 0) (hpos : 0 < n) (hlt : n < 2 ^ 32) :
    Finishes p (EffectPlayer.running d .strobeOn remaining 0 n) := by
  by_cases hlast : remaining = 1
  · exact after_wait (strobeOn_expiry_last p hfinite hlast) (atReset p) hpos hlt
  · have hless : remaining - 1 ≠ 0 := mt (sub_one_eq_zero_iff remaining).1 hlast
    exact after_wait (strobeOn_expiry_more p hfinite hlast)
      (strobeOff hp hfinite hless (waitOf_pos p hp _) (waitOf_lt p hp _ d.t1.isLt)) hpos hlt

/-! #### A finite fade (41_effect_player.md R145) -/

theorem fade_entered (hp : ParamsLegal p) (hfinite : d.repeatCount ≠ 0) (hrem : remaining ≠ 0) :
    Finishes p (fadeEntered p d remaining).1 := by
  obtain ⟨m, hm⟩ := exists_toNat_eq_succ hrem
  exact (PlaysTo.fade hp hfinite m hm).finishes (atReset p)

theorem cycle_ended (hp : ParamsLegal p) (hfinite : d.repeatCount ≠ 0) : Finishes p (cycleEnded p d remaining).1 := by
  rw [cycleEnded, if_neg hfinite]
  split
  · exact atReset p
  · next hlast => exact fade_entered hp hfinite (mt (sub_one_eq_zero_iff remaining).1 hlast)

theorem fadeOut (hp : ParamsLegal p) (hfinite : d.repeatCount ≠ 0) (hpos : 0 < n) (hlt : n < 2 ^ 32) :
    Finishes p (EffectPlayer.running d .fadeOut remaining elapsed n) :=
  interpolation (fadeOut_interpolates p d remaining) (cycle_ended hp hfinite) elapsed hpos hlt

theorem fadeHold (hp : ParamsLegal p) (hfinite : d.repeatCount ≠ 0) (hpos : 0 < n) (hlt : n < 2 ^ 32) :
    Finishes p (EffectPlayer.running d .fadeHold remaining 0 n) := by
  by_cases hnone : d.t1 = 0
  · exact after_wait (fadeHold_expiry_completes p hnone) (cycle_ended hp hfinite) hpos hlt
  · exact after_wait (fadeHold_expiry_fades p hnone) (fadeOut hp hfinite (by decide) (by decide)) hpos hlt

theorem fadeIn (hp : ParamsLegal p) (hfinite : d.repeatCount ≠ 0) (hpos : 0 < n) (hlt : n < 2 ^ 32) :
    Finishes p (EffectPlayer.running d .fadeIn remaining elapsed n) :=
  interpolation (fadeIn_interpolates p d remaining)
    (fadeHold hp hfinite (waitOf_pos p hp _) (waitOf_lt p hp _ d.hold.isLt)) elapsed hpos hlt

theorem delay (hp : ParamsLegal p) (hfinite : d.repeatCount ≠ 0) (hrem : remaining ≠ 0) (hpos : 0 < n)
    (hlt : n < 2 ^ 32) : Finishes p (EffectPlayer.running d .delay remaining 0 n) := by
  refine after_wait (delay_expiry p) ?_ hpos hlt
  unfold firstPhase
  split
  · exact strobeOn_entered hp hfinite hrem
  · exact fade_entered hp hfinite hrem

end

/-- Every finite effect of the invariant finishes, in whichever phase and with whatever count it is found. -/
theorem of_inv {p : Params} (hp : ParamsLegal p) {e : EffectPlayer} (he : EffectInv e)
    (hfinite : e.desc.repeatCount ≠ 0) : Finishes p e := by
  by_cases hidle : e.phase = .idle
  · exact .idle hidle
  have hpos : 0 < e.timer.count.toNat := word_toNat_pos (he.armed_count (he.armed_iff.2 hidle))
  have hlt := e.timer.count.isLt
  obtain ⟨hrem, -⟩ := he.finite_remaining hidle hfinite
  have helapsed := he.other_elapsed
  rw [he.eq_running hidle]
  cases hphase : e.phase with
  | idle => exact absurd hphase hidle
  | strobeOn =>
    rw [helapsed (by simp [hphase]) (by simp [hphase])]
    exact strobeOn hp hfinite hpos hlt
  | strobeOff =>
    rw [helapsed (by simp [hphase]) (by simp [hphase])]
    exact strobeOff hp hfinite hrem hpos hlt
  | fadeIn => exact fadeIn hp hfinite hpos hlt
  | fadeHold =>
    rw [helapsed (by simp [hphase]) (by simp [hphase])]
    exact fadeHold hp hfinite hpos hlt
  | fadeOut => exact fadeOut hp hfinite hpos hlt
  | delay =>
    rw [helapsed (by simp [hphase]) (by simp [hphase])]
    exact delay hp hfinite hrem hpos hlt

end Finishes

/-! ### One event of an infinite run -/

/-- EP_STOP leaves the player of reset (41_effect_player.md R132), if it leaves another than it found. -/
theorem CommandEffect.ep_of_epStop {s t : State} (h : CommandEffect s .epStop t) :
    t.ep = s.ep ∨ t.ep = EffectPlayer.atReset := by
  cases h with
  | answers => exact .inl rfl
  | finishes => exact .inr rfl

/-- Every output of a sequence step is among those of the `TICK` it is run in, with or without an effect expiry. -/
theorem seqStep_out_of_tick {s t : State} (h : tick s = .next t) (hx : s.sq.timer.expires = true) {o : Output}
    (ho : o ∈ (seqStep s.par s.pal s.sq).2) : o ∈ t.out := by
  obtain ⟨-, hq, -⟩ | ⟨-, hq, -⟩ | ⟨-, -, rfl⟩ | ⟨-, -, r, -, rfl⟩ := tick_cases s t h
  · simp [hq] at hx
  · simp [hq] at hx
  · exact List.mem_append_right _ ho
  · have hstep : o ∈ (seqStep s.par s.pal s.countedDown.sq).2 := ho
    dsimp only
    split <;> simp only [List.mem_append, hstep, or_true, true_or]

/-- A `TICK` in which a running stepper's timer does not expire lowers its count. -/
theorem countDown_lt {q : Sequencer} (h : SequenceInv q) (active : q.active = true) (hx : q.timer.expires = false) :
    q.timer.countDown.count.toNat < q.timer.count.toNat := by
  have armed : q.timer.armed = true := h.armed_eq.trans active
  obtain ⟨hpos, -⟩ := h.armed_count armed
  have hlt := q.timer.count.isLt
  rw [countDown_running _ armed hx, BitVec.toNat_sub]
  simp only [BitVec.ofNat_eq_ofNat, BitVec.toNat_ofNat]
  omega

/-- What every step keeps is what it was at first. -/
theorem eq_first_of_kept {α : Type} {f : Nat → α} (kept : ∀ n, f (n + 1) = f n) (n : Nat) : f n = f 0 := by
  induction n with
  | zero => rfl
  | succ n ih => exact (kept n).trans ih

namespace InfiniteRun

variable {env : Nat → Event} {s : Nat → State}

theorem inv (hrun : InfiniteRun env s) (h0 : (s 0).Inv) (n : Nat) : (s n).Inv := by
  induction n with
  | zero => exact h0
  | succ n ih => exact everyStepKeepsTheInvariant _ _ (ih.present (env n)) (hrun n)

theorem par_eq (hrun : InfiniteRun env s) (n : Nat) : (s n).par = (s 0).par :=
  eq_first_of_kept (f := fun k => (s k).par) (fun k => (roleChangesOnlyAtReset _ _ (hrun k)).1) n

/-- Step `n` runs the event presented for it, in the state it finds, with the last step's outputs cleared. -/
theorem runEvent_eq (hrun : InfiniteRun env s) (n : Nat) :
    runEvent (env n) ((s n).opened (s n).inbox) = .next (s (n + 1)) :=
  (step_event ((s n).present (env n)) (env n) (s n).inbox rfl).symm.trans (hrun n)

theorem tick_eq (hrun : InfiniteRun env s) {n : Nat} (htick : env n = .tick) :
    tick ((s n).opened (s n).inbox) = .next (s (n + 1)) := by
  have h := hrun.runEvent_eq n
  rwa [htick] at h

/-- Everything a step whose event is no `TICK` can do: a command of the frame's first byte, a refused frame or a
reset. -/
theorem event_cases (hrun : InfiniteRun env s) {n : Nat} (hno : env n ≠ .tick) :
    (∃ F o, env n = .cmd F ∧ F.head? = some o.code ∧ CommandEffect ((s n).opened (s n).inbox) o (s (n + 1)))
    ∨ (∃ st, s (n + 1) = ((s n).opened (s n).inbox).raise st)
    ∨ ∃ strap, env n = .reset strap ∧ s (n + 1) = ((s n).opened (s n).inbox).resetBlock strap := by
  have h := hrun.runEvent_eq n
  cases he : env n with
  | tick => exact absurd he hno
  | reset strap =>
    rw [he] at h
    exact .inr (.inr ⟨strap, rfl, (Host.Outcome.next.inj h).symm⟩)
  | cmd F =>
    rw [he] at h
    change runFrame F _ = _ at h
    cases hdec : decode F with
    | command i =>
      rw [runFrame_command F i _ hdec] at h
      exact .inl ⟨F, opcodeOf i, rfl, (decode_command hdec).1, exec_effect i _ _ h⟩
    | illegalCommand =>
      rw [runFrame_illegal F _ hdec] at h
      exact .inr (.inl ⟨_, (Host.Outcome.next.inj h).symm⟩)
    | malformed =>
      rw [runFrame_malformed F _ hdec] at h
      exact .inr (.inl ⟨_, (Host.Outcome.next.inj h).symm⟩)

end InfiniteRun

/-- An opcode whose code the environment never sends is not the opcode of a frame it presents. -/
theorem NeverSends.opcode_ne {env : Nat → Event} {opcodes : List Byte} (h : NeverSends env opcodes) {n : Nat}
    {F : List Byte} {o o' : Opcode} (he : env n = .cmd F) (hhead : F.head? = some o.code) (ho' : o'.code ∈ opcodes) :
    o ≠ o' := by
  rintro rfl
  exact h n F _ he hhead ho'

/-! ### What stands still without a `TICK` -/

namespace InfiniteRun

variable {env : Nat → Event} {s : Nat → State}

/-- Between two `TICK`s, with no EP_PLAY, the player is left as it was or brought to IDLE by EP_STOP or a reset. -/
theorem ep_kept_or_atReset (hrun : InfiniteRun env s) (hplay : NeverSends env [0x01]) {n : Nat} (hno : env n ≠ .tick) :
    (s (n + 1)).ep = (s n).ep ∨ (s (n + 1)).ep = EffectPlayer.atReset := by
  obtain ⟨F, o, he, hhead, heffect⟩ | ⟨st, hraise⟩ | ⟨strap, -, hreset⟩ := hrun.event_cases hno
  · have hne : o ≠ .epPlay := hplay.opcode_ne he hhead (by decide)
    by_cases hstop : o = .epStop
    · subst hstop
      exact heffect.ep_of_epStop
    · exact .inl (heffect.ep_eq hne hstop)
  · rw [hraise]
    exact .inl rfl
  · rw [hreset]
    exact .inr rfl

/-- Between two `TICK`s, with no EP_PLAY, no EP_STOP and no reset, the player stands still. -/
theorem ep_kept (hrun : InfiniteRun env s) (hreset : NeverResets env) (hsend : NeverSends env [0x01, 0x02]) {n : Nat}
    (hno : env n ≠ .tick) : (s (n + 1)).ep = (s n).ep := by
  obtain ⟨F, o, he, hhead, heffect⟩ | ⟨st, hraise⟩ | ⟨strap, he, -⟩ := hrun.event_cases hno
  · exact heffect.ep_eq (hsend.opcode_ne he hhead (by decide)) (hsend.opcode_ne he hhead (by decide))
  · rw [hraise]
    rfl
  · exact absurd he (hreset n strap)

/-- Between two `TICK`s, with no stepper command and no reset, the stepper stands still. -/
theorem sq_kept (hrun : InfiniteRun env s) (hreset : NeverResets env)
    (hsend : NeverSends env [0x20, 0x21, 0x22, 0x23]) {n : Nat} (hno : env n ≠ .tick) :
    (s (n + 1)).sq = (s n).sq := by
  obtain ⟨F, o, he, hhead, heffect⟩ | ⟨st, hraise⟩ | ⟨strap, he, -⟩ := hrun.event_cases hno
  · exact heffect.sq_eq (hsend.opcode_ne he hhead (by decide)) (hsend.opcode_ne he hhead (by decide))
      (hsend.opcode_ne he hhead (by decide)) (hsend.opcode_ne he hhead (by decide))
  · rw [hraise]
    rfl
  · exact absurd he (hreset n strap)

end InfiniteRun

/-! ### Progress under infinitely many `TICK`s -/

/-- From any step on a fair environment presents a `TICK`, which finds what every other event keeps as it was. -/
theorem FairEnvironment.next_tick {env : Nat → Event} (fair : FairEnvironment env) {α : Type} {f : Nat → α}
    (kept : ∀ n, env n ≠ .tick → f (n + 1) = f n) (n : Nat) : ∃ m, n ≤ m ∧ env m = .tick ∧ f m = f n := by
  obtain ⟨m, hle, htick⟩ := fair n
  obtain ⟨d, rfl⟩ := Nat.exists_eq_add_of_le hle
  induction d generalizing n with
  | zero => exact ⟨n, le_rfl, htick, rfl⟩
  | succ d ih =>
    by_cases hnow : env n = .tick
    · exact ⟨n, le_rfl, hnow, rfl⟩
    · obtain ⟨m, hm, htick', hf⟩ := ih (n + 1) (Nat.le_add_right _ d) (by rwa [Nat.add_right_comm])
      exact ⟨m, Nat.le_of_succ_le hm, htick', hf.trans (kept n hnow)⟩

namespace InfiniteRun

variable {env : Nat → Event} {s : Nat → State}

/-- A player that finishes on its own is found IDLE: each `TICK` of `Finishes` comes, and what happens between two of
them leaves the player or brings it to IDLE earlier. -/
theorem idle_of_finishes (hrun : InfiniteRun env s) (fair : FairEnvironment env) (hplay : NeverSends env [0x01])
    {e : EffectPlayer} (h : Finishes (s 0).par e) (n : Nat) (hep : (s n).ep = e) : ∃ m, (s m).ep.phase = .idle := by
  induction h generalizing n with
  | idle hidle => exact ⟨n, hep ▸ hidle⟩
  | @tick e r first _ ih =>
    by_contra hnever
    have kept (k : Nat) (hno : env k ≠ .tick) : (s (k + 1)).ep = (s k).ep :=
      (hrun.ep_kept_or_atReset hplay hno).resolve_right fun hreset => hnever ⟨k + 1, hreset ▸ rfl⟩
    obtain ⟨m, -, htick, hm⟩ := fair.next_tick (f := fun k => (s k).ep) kept n
    obtain ⟨r', hr', hep'⟩ := tick_effectTick (hrun.tick_eq htick)
    rw [State.opened_par, State.opened_ep, hrun.par_eq, hm, hep, first] at hr'
    obtain rfl := Option.some.inj hr'
    exact hnever (ih (m + 1) hep')

/-- A `TICK` in which the running stepper steps: the pointer goes one up and the square at it is written. -/
theorem step_of_expires (hrun : InfiniteRun env s) {m : Nat} (hlegal : (s m).sq.rhythm ≠ 0) (htick : env m = .tick)
    (hx : (s m).sq.timer.expires = true) :
    (s (m + 1)).sq.pointer = (s m).sq.pointer + 1
      ∧ Output.sink (toDisplay (square (s m).pal (s m).sq.pointer)) ∈ (s (m + 1)).out := by
  have h := hrun.tick_eq htick
  refine ⟨?_, seqStep_out_of_tick h hx (List.mem_cons_self ..)⟩
  rw [tick_sequenceTick h, State.opened_sq, sequenceTick, if_pos hx, seqStep_eq _ _ _ hlegal]

/-- A running stepper that no command or reset touches stays active. -/
theorem active_kept (hrun : InfiniteRun env s) (hreset : NeverResets env)
    (hsend : NeverSends env [0x20, 0x21, 0x22, 0x23]) (active : (s 0).sq.active = true) (n : Nat) :
    (s n).sq.active = true := by
  have kept (k : Nat) : (s (k + 1)).sq.active = (s k).sq.active := by
    by_cases htick : env k = .tick
    · exact tick_active ((s k).opened (s k).inbox) _ (hrun.tick_eq htick)
    · rw [hrun.sq_kept hreset hsend htick]
  exact (eq_first_of_kept (f := fun k => (s k).sq.active) kept n).trans active

/-- From any step on a running stepper steps, as each `TICK` before that lowers its count. -/
theorem exists_step (hrun : InfiniteRun env s) (h0 : (s 0).Inv) (fair : FairEnvironment env)
    (hreset : NeverResets env) (hsend : NeverSends env [0x20, 0x21, 0x22, 0x23]) (active : (s 0).sq.active = true)
    (n : Nat) : ∃ m, n ≤ m ∧ env m = .tick ∧ (s m).sq.timer.expires = true := by
  induction hcount : (s n).sq.timer.count.toNat using Nat.strong_induction_on generalizing n with
  | _ count ih =>
    subst hcount
    obtain ⟨m, hm, htick, hsq⟩ := fair.next_tick (f := fun k => (s k).sq) (fun _ => hrun.sq_kept hreset hsend) n
    cases hx : (s m).sq.timer.expires with
    | true => exact ⟨m, hm, htick, hx⟩
    | false =>
      have hnext : (s (m + 1)).sq = { (s m).sq with timer := (s m).sq.timer.countDown } := by
        rw [tick_sequenceTick (hrun.tick_eq htick), State.opened_sq, sequenceTick, if_neg (Bool.eq_false_iff.1 hx)]
      have hless := countDown_lt (hrun.inv h0 m).sequence (hrun.active_kept hreset hsend active m) hx
      obtain ⟨m', hm', hstep⟩ := ih _ (by rwa [hnext, ← hsq]) (m + 1) rfl
      exact ⟨m', hm.trans (Nat.le_of_succ_le hm'), hstep⟩

end InfiniteRun

/-- Settles O7: the invariant's finite effects finish in their `TICK`s and its running steppers count down to a step;
no other event moves an engine that is sent no command and no reset. -/
theorem fairEnvironmentsMakeProgress : Obligations.FairEnvironmentsMakeProgress := by
  intro env s hrun h0
  refine ⟨fun fair hplay hfinite => ?_, fun fair hreset hsend active n => ?_, fun hno hreset => ⟨fun hsend => ?_,
    fun hsend => ?_⟩⟩
  · exact hrun.idle_of_finishes fair hplay (.of_inv h0.params h0.effect hfinite) 0 rfl
  · obtain ⟨m, hm, htick, hx⟩ := hrun.exists_step h0 fair hreset hsend active n
    exact ⟨m, hm, htick, hrun.step_of_expires (hrun.inv h0 m).sequence.rhythm_pos htick hx⟩
  · exact eq_first_of_kept fun n => hrun.ep_kept hreset hsend (hno n)
  · exact eq_first_of_kept fun n => hrun.sq_kept hreset hsend (hno n)

/-! ### The reset event (70_reset_and_hazards.md R240 to R242) -/

/-- Settles O9: the step is `State.resetBlock` of the state that taking the event leaves. -/
theorem resetEventResetsTheBlock : Obligations.ResetEventResetsTheBlock := fun s strap rest hin =>
  ⟨(s.opened rest).resetBlock strap, step_reset s strap rest hin, rfl, rfl, fun a _ => Memory.read_nil a, rfl, rfl, rfl,
    rfl, rfl, rfl⟩

end Sys2Proof.Machine
